-- ==== Sys2Proof/Word.lean ====
section
/-! DEFINITION. The one word type of the block: the byte of its four address spaces
(spec/20_memory.md R64: "There is one byte size (8 bits)"). Every other value is a natural number
(spec/00_scope.md R9: "All values are natural numbers unless a rule says integer"). -/
namespace Sys2Proof

/-- One byte of `IN`, `OUT`, `RAW` or `ROWS` (R35, R64). -/
abbrev Byte := BitVec 8

end Sys2Proof
end

