-- ==== Sys2Proof/Config.lean ====
section
/-! DEFINITION. What an implementation fixes and the spec leaves open: the two buffer bounds, which are arguments of the
machine with the spec's default, and opaque constants that no proof can evaluate. -/
namespace Sys2Proof

/-- `IN_MAX` and `OUT_MAX` (R8), the open parameters of an implementation's buffers; `none` is unbounded. -/
structure Bounds where
  /-- The largest `IN_LEN` that the implementation accepts. -/
  inMax : Option Nat
  /-- The largest output length. -/
  outMax : Option Nat
  deriving DecidableEq, Repr

/-- The default of both (R8, D3): no bound. -/
def Bounds.unbounded : Bounds := ⟨none, none⟩

/-- `I_CFG.NLEN_CHECK` right after hardware reset: R38 says "OPEN parameter", D7 asserts no default
(assumption 2). The register itself is a field of the state that the host writes. -/
opaque Config.nlenCheckAtReset : Bool

/-- Which unit takes the next step when both have something to do, drawn from a counter of the state
(assumption 8). `true`: the I-unit. No rule orders the two units (R370). -/
opaque Config.iUnitFirst : Nat → Bool

/-- What the host reads from `OUT` (`true`) or `ROWS` (`false`) at an address beyond the reported length
or in a state other than `DONE`: 93_implementation_defined.md U3, "any value for the reads"
(assumption 9). -/
opaque Config.unreportedByte : Bool → Nat → Byte

end Sys2Proof
end

