-- ==== Sys2Proof/Syntax.lean ====
section
/-! DEFINITION. The instructions of the block: the stream elements of spec/30_encoding.md (R90), one
constructor for each mnemonic of spec/opcode_table.json (the table's seven `RSVF` rows are one
instruction whose operand is the selector: the rows split 5-255 into masks). A row selects an element by
the value of its selecting field (R112), and the operands here are that field's free bits. Extra bits, the
stored body and the dynamic header are read from the stream by the meanings, as the rules' pseudocode does. -/
namespace Sys2Proof

/-- The formats that have opcodes of their own (R90, R112). `ST` and `DH` are the bodies of block types 0
and 2. -/
inductive Format where
  /-- Block header, 3 bits (R93). -/
  | bh
  /-- Code-length symbol, 5-bit symbol value (R97). -/
  | cl
  /-- Literal/length symbol, 9-bit symbol value (R98). -/
  | ll
  /-- Distance symbol, 5-bit symbol value (R99). -/
  | ds
  /-- Filter scanline, 8-bit selector (R100). -/
  | fs
  deriving DecidableEq, Repr

/-- One stream element (R90). -/
inductive Instr where
  /-- `BTYPE = 0` (R190), `bfin` is `BFINAL`. -/
  | stored (bfin : Bool)
  /-- `BTYPE = 1` (R192). -/
  | fixed (bfin : Bool)
  /-- `BTYPE = 2` (R193). -/
  | dynamic (bfin : Bool)
  /-- `BTYPE = 3` (R199). -/
  | btype3 (bfin : Bool)
  /-- Code-length symbols 0-15 (R195): one explicit length. -/
  | cllit (len : Nat)
  /-- Code-length symbols 16, 17, 18 (R196, R197, R198). -/
  | cl16 | cl17 | cl18
  /-- Literal/length symbols 0-255 (R221). -/
  | lit (b : Byte)
  /-- Literal/length symbol 256 (R222). -/
  | eob
  /- Length symbols 257-285 (R224-R252). -/
  | len257 | len258 | len259 | len260 | len261 | len262 | len263 | len264
  | len265 | len266 | len267 | len268 | len269 | len270 | len271 | len272
  | len273 | len274 | len275 | len276 | len277 | len278 | len279 | len280
  | len281 | len282 | len283 | len284 | len285
  /-- Reserved literal/length symbols 286, 287 (R253). -/
  | rsvl (sym : Nat)
  /- Distance symbols 0-29 (R261-R290). -/
  | dist0 | dist1 | dist2 | dist3 | dist4 | dist5 | dist6 | dist7 | dist8 | dist9
  | dist10 | dist11 | dist12 | dist13 | dist14 | dist15 | dist16 | dist17 | dist18 | dist19
  | dist20 | dist21 | dist22 | dist23 | dist24 | dist25 | dist26 | dist27 | dist28 | dist29
  /-- Reserved distance symbols 30, 31 (R291). -/
  | rsvd (sym : Nat)
  /-- Filter selectors 0-4 (R306-R310). -/
  | filterNone | filterSub | filterUp | filterAvg | filterPaeth
  /-- Reserved filter selectors 5-255 (R311). -/
  | rsvf (ft : Nat)
  deriving DecidableEq, Repr

end Sys2Proof
end

