-- ==== Sys2Proof/WellFormed.lean ====
section
/-! DEFINITION. Which terms of `Instr` are stream elements: the operands that a selecting field can hold
(spec/30_encoding.md R102, R105, R106, R108). -/
namespace Sys2Proof

/-- The operand lies in its row's symbol range (R112's `sym_lo`, `sym_hi`). -/
def Instr.wf : Instr → Bool
  | .cllit len => decide (len ≤ 15)
  | .rsvl sym => decide (286 ≤ sym ∧ sym ≤ 287)
  | .rsvd sym => decide (30 ≤ sym ∧ sym ≤ 31)
  | .rsvf ft => decide (5 ≤ ft ∧ ft ≤ 255)
  | _ => true

end Sys2Proof
end

