-- ==== Sys2Proof/Decode.lean ====
section
/-! DEFINITION. The decoder of spec/30_encoding.md: from the value of a format's selecting field (R112) to
the stream element, total, rejecting by name; then the encoder, the fixed block's codes (R107), the opcode
table as data, and the host's view of a table word. Finding the selecting field in the stream (a 3-bit
`READ`, a Huffman `DECODE`, a selector byte) is the fetch of Machine/Fetch.lean. -/
namespace Sys2Proof

/-- Why a selecting field has no element. No field of the hardware can hold these values (R112: "symbol
values 288-511 of the 9-bit LL field and 19-31 of the 5-bit CL field cannot occur"). -/
inductive DecodeError where
  /-- A block header of more than 3 bits. -/
  | noHeader (v : Nat)
  /-- A code-length symbol above 18. -/
  | noCodeLengthSymbol (v : Nat)
  /-- A literal/length symbol above 287. -/
  | noLitLenSymbol (v : Nat)
  /-- A distance symbol above 31. -/
  | noDistanceSymbol (v : Nat)
  /-- A selector of more than 8 bits. -/
  | noSelector (v : Nat)
  deriving DecidableEq, Repr

/-- `rev(c, L)`, the `L`-bit bit reversal of `c` (R9). -/
def rev (c : Nat) : Nat → Nat
  | 0 => 0
  | n + 1 => 2 ^ n * (c % 2) + rev (c / 2) n

/-- Format `BH` (R93, R101): `h = BFINAL + 2*BTYPE`. -/
def decodeBH (h : Nat) : Except DecodeError Instr :=
  let bfin := h % 2 == 1
  match h / 2 with
  | 0 => .ok (.stored bfin)
  | 1 => .ok (.fixed bfin)
  | 2 => .ok (.dynamic bfin)
  | 3 => .ok (.btype3 bfin)
  | _ => .error (.noHeader h)

/-- Format `CL` (R97, R106). -/
def decodeCL (v : Nat) : Except DecodeError Instr :=
  if v ≤ 15 then .ok (.cllit v)
  else if v = 16 then .ok .cl16
  else if v = 17 then .ok .cl17
  else if v = 18 then .ok .cl18
  else .error (.noCodeLengthSymbol v)

/-- The length symbols in order, from 257 (R102). -/
def lenInstrs : List Instr :=
  [.len257, .len258, .len259, .len260, .len261, .len262, .len263, .len264,
   .len265, .len266, .len267, .len268, .len269, .len270, .len271, .len272,
   .len273, .len274, .len275, .len276, .len277, .len278, .len279, .len280,
   .len281, .len282, .len283, .len284, .len285]

/-- Format `LL` (R98, R102). -/
def decodeLL (v : Nat) : Except DecodeError Instr :=
  if v ≤ 255 then .ok (.lit (BitVec.ofNat 8 v))
  else if v = 256 then .ok .eob
  else match lenInstrs[v - 257]? with
    | some i => .ok i
    | none => if v ≤ 287 then .ok (.rsvl v) else .error (.noLitLenSymbol v)

/-- The distance symbols in order, from 0 (R105). -/
def distInstrs : List Instr :=
  [.dist0, .dist1, .dist2, .dist3, .dist4, .dist5, .dist6, .dist7, .dist8, .dist9,
   .dist10, .dist11, .dist12, .dist13, .dist14, .dist15, .dist16, .dist17, .dist18, .dist19,
   .dist20, .dist21, .dist22, .dist23, .dist24, .dist25, .dist26, .dist27, .dist28, .dist29]

/-- Format `DS` (R99, R105). -/
def decodeDS (v : Nat) : Except DecodeError Instr :=
  match distInstrs[v]? with
  | some i => .ok i
  | none => if v ≤ 31 then .ok (.rsvd v) else .error (.noDistanceSymbol v)

/-- Format `FS` (R100, R108). -/
def decodeFS (v : Nat) : Except DecodeError Instr :=
  match v with
  | 0 => .ok .filterNone
  | 1 => .ok .filterSub
  | 2 => .ok .filterUp
  | 3 => .ok .filterAvg
  | 4 => .ok .filterPaeth
  | _ => if v ≤ 255 then .ok (.rsvf v) else .error (.noSelector v)

/-- The element that the value `v` of a format's selecting field selects (R112). -/
def decode : Format → Nat → Except DecodeError Instr
  | .bh, v => decodeBH v
  | .cl, v => decodeCL v
  | .ll, v => decodeLL v
  | .ds, v => decodeDS v
  | .fs, v => decodeFS v

/-- The word of an element: its format and the value of the selecting field (R93, R101, R102, R105, R106,
R108). -/
def encode : Instr → Format × Nat
  | .stored bfin => (.bh, bfin.toNat + 2 * 0)
  | .fixed bfin => (.bh, bfin.toNat + 2 * 1)
  | .dynamic bfin => (.bh, bfin.toNat + 2 * 2)
  | .btype3 bfin => (.bh, bfin.toNat + 2 * 3)
  | .cllit len => (.cl, len)
  | .cl16 => (.cl, 16)
  | .cl17 => (.cl, 17)
  | .cl18 => (.cl, 18)
  | .lit b => (.ll, b.toNat)
  | .eob => (.ll, 256)
  | .len257 => (.ll, 257)
  | .len258 => (.ll, 258)
  | .len259 => (.ll, 259)
  | .len260 => (.ll, 260)
  | .len261 => (.ll, 261)
  | .len262 => (.ll, 262)
  | .len263 => (.ll, 263)
  | .len264 => (.ll, 264)
  | .len265 => (.ll, 265)
  | .len266 => (.ll, 266)
  | .len267 => (.ll, 267)
  | .len268 => (.ll, 268)
  | .len269 => (.ll, 269)
  | .len270 => (.ll, 270)
  | .len271 => (.ll, 271)
  | .len272 => (.ll, 272)
  | .len273 => (.ll, 273)
  | .len274 => (.ll, 274)
  | .len275 => (.ll, 275)
  | .len276 => (.ll, 276)
  | .len277 => (.ll, 277)
  | .len278 => (.ll, 278)
  | .len279 => (.ll, 279)
  | .len280 => (.ll, 280)
  | .len281 => (.ll, 281)
  | .len282 => (.ll, 282)
  | .len283 => (.ll, 283)
  | .len284 => (.ll, 284)
  | .len285 => (.ll, 285)
  | .rsvl sym => (.ll, sym)
  | .dist0 => (.ds, 0)
  | .dist1 => (.ds, 1)
  | .dist2 => (.ds, 2)
  | .dist3 => (.ds, 3)
  | .dist4 => (.ds, 4)
  | .dist5 => (.ds, 5)
  | .dist6 => (.ds, 6)
  | .dist7 => (.ds, 7)
  | .dist8 => (.ds, 8)
  | .dist9 => (.ds, 9)
  | .dist10 => (.ds, 10)
  | .dist11 => (.ds, 11)
  | .dist12 => (.ds, 12)
  | .dist13 => (.ds, 13)
  | .dist14 => (.ds, 14)
  | .dist15 => (.ds, 15)
  | .dist16 => (.ds, 16)
  | .dist17 => (.ds, 17)
  | .dist18 => (.ds, 18)
  | .dist19 => (.ds, 19)
  | .dist20 => (.ds, 20)
  | .dist21 => (.ds, 21)
  | .dist22 => (.ds, 22)
  | .dist23 => (.ds, 23)
  | .dist24 => (.ds, 24)
  | .dist25 => (.ds, 25)
  | .dist26 => (.ds, 26)
  | .dist27 => (.ds, 27)
  | .dist28 => (.ds, 28)
  | .dist29 => (.ds, 29)
  | .rsvd sym => (.ds, sym)
  | .filterNone => (.fs, 0)
  | .filterSub => (.fs, 1)
  | .filterUp => (.fs, 2)
  | .filterAvg => (.fs, 3)
  | .filterPaeth => (.fs, 4)
  | .rsvf ft => (.fs, ft)

/-- The Huffman code of a literal/length symbol in a fixed block, as (code length, code) (R107). -/
def fixedCodeLL (sym : Nat) : Nat × Nat :=
  if sym ≤ 143 then (8, 48 + sym)
  else if sym ≤ 255 then (9, 400 + (sym - 144))
  else if sym ≤ 279 then (7, sym - 256)
  else (8, 192 + (sym - 280))

/-- The Huffman code of a distance symbol in a fixed block, as (code length, code) (R107). -/
def fixedCodeDS (sym : Nat) : Nat × Nat := (5, sym)

/-- One row of spec/opcode_table.json: a field value `v` selects the row when `v & mask = match` (R112). -/
structure OpcodeRow where
  mnemonic : String
  format : Format
  matchBits : Nat
  mask : Nat
  deriving DecidableEq, Repr

/-- The row's test of a field value (R112). -/
def OpcodeRow.selects (r : OpcodeRow) (v : Nat) : Bool := (v &&& r.mask) == r.matchBits

/-- Rows of format `BH`. -/
def rowsBH : List OpcodeRow :=
  [⟨"STORED", .bh, 0x0, 0x6⟩, ⟨"FIXED", .bh, 0x2, 0x6⟩, ⟨"DYNAMIC", .bh, 0x4, 0x6⟩,
   ⟨"BTYPE3", .bh, 0x6, 0x6⟩]

/-- Rows of format `CL`. -/
def rowsCL : List OpcodeRow :=
  [⟨"CLLIT", .cl, 0x0, 0x10⟩, ⟨"CL16", .cl, 0x10, 0x1f⟩, ⟨"CL17", .cl, 0x11, 0x1f⟩,
   ⟨"CL18", .cl, 0x12, 0x1f⟩]

/-- Rows of format `LL`. -/
def rowsLL : List OpcodeRow :=
  [⟨"LIT", .ll, 0x0, 0x100⟩, ⟨"EOB", .ll, 0x100, 0x1ff⟩, ⟨"LEN257", .ll, 0x101, 0x1ff⟩,
   ⟨"LEN258", .ll, 0x102, 0x1ff⟩, ⟨"LEN259", .ll, 0x103, 0x1ff⟩, ⟨"LEN260", .ll, 0x104, 0x1ff⟩,
   ⟨"LEN261", .ll, 0x105, 0x1ff⟩, ⟨"LEN262", .ll, 0x106, 0x1ff⟩, ⟨"LEN263", .ll, 0x107, 0x1ff⟩,
   ⟨"LEN264", .ll, 0x108, 0x1ff⟩, ⟨"LEN265", .ll, 0x109, 0x1ff⟩, ⟨"LEN266", .ll, 0x10a, 0x1ff⟩,
   ⟨"LEN267", .ll, 0x10b, 0x1ff⟩, ⟨"LEN268", .ll, 0x10c, 0x1ff⟩, ⟨"LEN269", .ll, 0x10d, 0x1ff⟩,
   ⟨"LEN270", .ll, 0x10e, 0x1ff⟩, ⟨"LEN271", .ll, 0x10f, 0x1ff⟩, ⟨"LEN272", .ll, 0x110, 0x1ff⟩,
   ⟨"LEN273", .ll, 0x111, 0x1ff⟩, ⟨"LEN274", .ll, 0x112, 0x1ff⟩, ⟨"LEN275", .ll, 0x113, 0x1ff⟩,
   ⟨"LEN276", .ll, 0x114, 0x1ff⟩, ⟨"LEN277", .ll, 0x115, 0x1ff⟩, ⟨"LEN278", .ll, 0x116, 0x1ff⟩,
   ⟨"LEN279", .ll, 0x117, 0x1ff⟩, ⟨"LEN280", .ll, 0x118, 0x1ff⟩, ⟨"LEN281", .ll, 0x119, 0x1ff⟩,
   ⟨"LEN282", .ll, 0x11a, 0x1ff⟩, ⟨"LEN283", .ll, 0x11b, 0x1ff⟩, ⟨"LEN284", .ll, 0x11c, 0x1ff⟩,
   ⟨"LEN285", .ll, 0x11d, 0x1ff⟩, ⟨"RSVL", .ll, 0x11e, 0x1fe⟩]

/-- Rows of format `DS`. -/
def rowsDS : List OpcodeRow :=
  [⟨"DIST0", .ds, 0x0, 0x1f⟩, ⟨"DIST1", .ds, 0x1, 0x1f⟩, ⟨"DIST2", .ds, 0x2, 0x1f⟩,
   ⟨"DIST3", .ds, 0x3, 0x1f⟩, ⟨"DIST4", .ds, 0x4, 0x1f⟩, ⟨"DIST5", .ds, 0x5, 0x1f⟩,
   ⟨"DIST6", .ds, 0x6, 0x1f⟩, ⟨"DIST7", .ds, 0x7, 0x1f⟩, ⟨"DIST8", .ds, 0x8, 0x1f⟩,
   ⟨"DIST9", .ds, 0x9, 0x1f⟩, ⟨"DIST10", .ds, 0xa, 0x1f⟩, ⟨"DIST11", .ds, 0xb, 0x1f⟩,
   ⟨"DIST12", .ds, 0xc, 0x1f⟩, ⟨"DIST13", .ds, 0xd, 0x1f⟩, ⟨"DIST14", .ds, 0xe, 0x1f⟩,
   ⟨"DIST15", .ds, 0xf, 0x1f⟩, ⟨"DIST16", .ds, 0x10, 0x1f⟩, ⟨"DIST17", .ds, 0x11, 0x1f⟩,
   ⟨"DIST18", .ds, 0x12, 0x1f⟩, ⟨"DIST19", .ds, 0x13, 0x1f⟩, ⟨"DIST20", .ds, 0x14, 0x1f⟩,
   ⟨"DIST21", .ds, 0x15, 0x1f⟩, ⟨"DIST22", .ds, 0x16, 0x1f⟩, ⟨"DIST23", .ds, 0x17, 0x1f⟩,
   ⟨"DIST24", .ds, 0x18, 0x1f⟩, ⟨"DIST25", .ds, 0x19, 0x1f⟩, ⟨"DIST26", .ds, 0x1a, 0x1f⟩,
   ⟨"DIST27", .ds, 0x1b, 0x1f⟩, ⟨"DIST28", .ds, 0x1c, 0x1f⟩, ⟨"DIST29", .ds, 0x1d, 0x1f⟩,
   ⟨"RSVD", .ds, 0x1e, 0x1e⟩]

/-- Rows of format `FS`. -/
def rowsFS : List OpcodeRow :=
  [⟨"NONE", .fs, 0x0, 0xff⟩, ⟨"SUB", .fs, 0x1, 0xff⟩, ⟨"UP", .fs, 0x2, 0xff⟩,
   ⟨"AVG", .fs, 0x3, 0xff⟩, ⟨"PAETH", .fs, 0x4, 0xff⟩, ⟨"RSVF", .fs, 0x5, 0xff⟩,
   ⟨"RSVF", .fs, 0x6, 0xfe⟩, ⟨"RSVF", .fs, 0x8, 0xf8⟩, ⟨"RSVF", .fs, 0x10, 0xf0⟩,
   ⟨"RSVF", .fs, 0x20, 0xe0⟩, ⟨"RSVF", .fs, 0x40, 0xc0⟩, ⟨"RSVF", .fs, 0x80, 0x80⟩]

/-- spec/opcode_table.json, whole. -/
def opcodeTable : List OpcodeRow := rowsBH ++ rowsCL ++ rowsLL ++ rowsDS ++ rowsFS

/-- The mnemonic of an element in spec/opcode_table.json. -/
def Instr.mnemonic : Instr → String
  | .stored _ => "STORED"
  | .fixed _ => "FIXED"
  | .dynamic _ => "DYNAMIC"
  | .btype3 _ => "BTYPE3"
  | .cllit _ => "CLLIT"
  | .cl16 => "CL16"
  | .cl17 => "CL17"
  | .cl18 => "CL18"
  | .lit _ => "LIT"
  | .eob => "EOB"
  | .len257 => "LEN257"
  | .len258 => "LEN258"
  | .len259 => "LEN259"
  | .len260 => "LEN260"
  | .len261 => "LEN261"
  | .len262 => "LEN262"
  | .len263 => "LEN263"
  | .len264 => "LEN264"
  | .len265 => "LEN265"
  | .len266 => "LEN266"
  | .len267 => "LEN267"
  | .len268 => "LEN268"
  | .len269 => "LEN269"
  | .len270 => "LEN270"
  | .len271 => "LEN271"
  | .len272 => "LEN272"
  | .len273 => "LEN273"
  | .len274 => "LEN274"
  | .len275 => "LEN275"
  | .len276 => "LEN276"
  | .len277 => "LEN277"
  | .len278 => "LEN278"
  | .len279 => "LEN279"
  | .len280 => "LEN280"
  | .len281 => "LEN281"
  | .len282 => "LEN282"
  | .len283 => "LEN283"
  | .len284 => "LEN284"
  | .len285 => "LEN285"
  | .rsvl _ => "RSVL"
  | .dist0 => "DIST0"
  | .dist1 => "DIST1"
  | .dist2 => "DIST2"
  | .dist3 => "DIST3"
  | .dist4 => "DIST4"
  | .dist5 => "DIST5"
  | .dist6 => "DIST6"
  | .dist7 => "DIST7"
  | .dist8 => "DIST8"
  | .dist9 => "DIST9"
  | .dist10 => "DIST10"
  | .dist11 => "DIST11"
  | .dist12 => "DIST12"
  | .dist13 => "DIST13"
  | .dist14 => "DIST14"
  | .dist15 => "DIST15"
  | .dist16 => "DIST16"
  | .dist17 => "DIST17"
  | .dist18 => "DIST18"
  | .dist19 => "DIST19"
  | .dist20 => "DIST20"
  | .dist21 => "DIST21"
  | .dist22 => "DIST22"
  | .dist23 => "DIST23"
  | .dist24 => "DIST24"
  | .dist25 => "DIST25"
  | .dist26 => "DIST26"
  | .dist27 => "DIST27"
  | .dist28 => "DIST28"
  | .dist29 => "DIST29"
  | .rsvd _ => "RSVD"
  | .filterNone => "NONE"
  | .filterSub => "SUB"
  | .filterUp => "UP"
  | .filterAvg => "AVG"
  | .filterPaeth => "PAETH"
  | .rsvf _ => "RSVF"

/-- Which format a word of the table is read in when nothing but the word is known (assumption 10). The
table's rows are values of FIVE different fields (R112) that overlap, and the hardware knows the field from
its phase: a word of two bytes is an `LL` symbol (the one field wider than a byte); a shorter word is read in
the narrowest field that holds it: 0-7 a block header, 8-31 a distance symbol, but for the three values that
are run-length symbols of their own (16, 17, 18), the rest a selector. -/
def tableWordFormat (nbits w : Nat) : Format :=
  if nbits = 16 then .ll
  else if w ≤ 7 then .bh
  else if 16 ≤ w ∧ w ≤ 18 then .cl
  else if w ≤ 31 then .ds
  else .fs

/-- The host's question: the element of a table word (assumption 10). -/
def decodeTableWord (nbits w : Nat) : Option Instr :=
  match decode (tableWordFormat nbits w) w with
  | .ok i => some i
  | .error _ => none

end Sys2Proof
end

