-- ==== Sys2Proof/Machine/State.lean ====
section
/-! DEFINITION. The state of the block, as plain data: the I-unit's registers, arrays, tables and spaces
(spec/10_state.md R20-R35), the U-unit's (R30, R35, R36), and the value after hardware reset (R38). Registers
that the rules give as numbers with a range are `Nat` (R9, R22: no register wraps; Safety.lean states the
ranges); the host's 32-bit and 3-bit registers of the U-unit are bit vectors. `I_STATUS` and `U_STATUS` have
no field: R29 makes them views of `PHASE`, which Machine/Flags.lean computes. -/
namespace Sys2Proof.Machine

/-- One address space (R35): the bytes that differ from what an unlisted address reads as, by rising address.
The operations are in Machine/Ops.lean. -/
abbrev Memory := List Host.Cell

/-- `PHASE` (R28): which stream element the I-unit fetches next. -/
inductive Phase where
  /-- No run in progress. -/
  | idle
  /-- A block header is next. -/
  | hdr
  /-- A code-length symbol is next. -/
  | clen
  /-- A literal/length symbol is next. -/
  | body
  | done
  | error
  deriving DecidableEq, Repr

/-- `U_PHASE` (R36); `rowHdr`: a selector byte is next. -/
inductive UPhase where
  | idle | rowHdr | done | error
  deriving DecidableEq, Repr

/-- The four error kinds (R340); their numbers are in Machine/Flags.lean (R341). -/
inductive ErrKind where
  | format | unsupported | truncated | huffman
  deriving DecidableEq, Repr

/-- An entry `(sym, len)` of a decode table (R32). -/
structure Entry where
  sym : Nat
  len : Nat
  deriving DecidableEq, Repr

/-- A decode table (R32): `maxbits` and `entry[0 .. 2^maxbits - 1]`, `none` for `empty`. -/
structure Table where
  maxbits : Nat
  entry : List (Option Entry)
  deriving DecidableEq, Repr

/-- The I-unit. -/
structure IUnit where
  /-- `I_CMD.START` (R29): set by the host, cleared when the unit takes the command (assumption 4). -/
  start : Bool
  /-- `I_CFG.NLEN_CHECK` (R29). -/
  nlenCheck : Bool
  /-- `I_CFG.STRICT_PEEK` (R29). -/
  strictPeek : Bool
  /-- `I_IN_LEN` (R29). -/
  inLen : Nat
  /-- `I_ERRKIND` (R29, R341), `none` for 0. -/
  errKind : Option ErrKind
  /-- `I_OUT_LEN` (R29). -/
  outLen : Nat
  /-- `PHASE` (R28). -/
  phase : Phase
  /-- `BITPOS`, the program counter (R24). -/
  bitpos : Nat
  /-- `OUTLEN` (R21). -/
  outlen : Nat
  /-- `BFINAL`, the one flag (R27). -/
  bfinal : Bool
  /-- `BTYPE` (R21). -/
  btype : Nat
  /-- `SLEN` (R21). -/
  slen : Nat
  /-- `SNLEN` (R21). -/
  snlen : Nat
  /-- `HLIT` (R21), the biased count. -/
  hlit : Nat
  /-- `HDIST` (R21), the biased count. -/
  hdist : Nat
  /-- `HCLEN` (R21), the biased count. -/
  hclen : Nat
  /-- `LIDX` (R21). -/
  lidx : Nat
  /-- `SYM` (R21). -/
  sym : Nat
  /-- `MLEN` (R21). -/
  mlen : Nat
  /-- `DSYM` (R21). -/
  dsym : Nat
  /-- `MDIST` (R21). -/
  mdist : Nat
  /-- `CLLEN[0..18]` (R31). -/
  cllen : List Nat
  /-- `LLEN[0..319]` (R31). -/
  llen : List Nat
  /-- `CLTAB` (R32). -/
  cltab : Table
  /-- `LTAB` (R32). -/
  ltab : Table
  /-- `DTAB` (R32). -/
  dtab : Table
  /-- `IN` (R35). -/
  inp : Memory
  /-- `OUT` (R35). -/
  out : Memory
  deriving DecidableEq, Repr

/-- The U-unit. -/
structure UUnit where
  /-- `U_CMD.START` (R30): set by the host, cleared when the unit takes the command (assumption 4). -/
  start : Bool
  /-- `U_CMD.CHAIN` (R30), written with `START`. -/
  chainCmd : Bool
  /-- The run in progress, or the last one, was started with `CHAIN = 1`, so that `RAW` is `OUT` (R30, R77). -/
  chained : Bool
  /-- `U_WIDTH` (R30). -/
  width : BitVec 32
  /-- `U_HEIGHT` (R30). -/
  height : BitVec 32
  /-- `U_BPP` (R30). -/
  bpp : BitVec 3
  /-- `U_RAW_LEN` (R30). -/
  rawLen : Nat
  /-- `U_ERRKIND` (R30, R341), `none` for 0. -/
  errKind : Option ErrKind
  /-- `U_ROWS_LEN` (R30). -/
  rowsLen : Nat
  /-- `U_PHASE` (R36). -/
  phase : UPhase
  /-- `STRIDE` (R36). -/
  stride : Nat
  /-- `ROW` (R36). -/
  row : Nat
  /-- `FT` (R36). -/
  ft : Nat
  /-- `COL` (R36). -/
  col : Nat
  /-- `RAW` as the host wrote it (R35). -/
  raw : Memory
  /-- `ROWS` (R35). -/
  rows : Memory
  deriving DecidableEq, Repr

/-- The whole block: its two units (R2), and the model's own draw counter for `Config.iUnitFirst`
(assumption 8). -/
structure State where
  i : IUnit
  u : UUnit
  tick : Nat
  deriving DecidableEq, Repr

/-- Why the machine stops. The block itself never stops (R12: every operation completes or raises, and a raise
is a next state): each of these is an operation called outside the contract its rule states with `require`,
which the rules say is never issued. All are safe: where one occurs nothing is claimed. -/
inductive Fault where
  /-- `READ(n)` with `n = 0` or `n > 32` (R130: "n > 32 is never issued"). Raised by `readBits`. Safe. -/
  | readWidth
  /-- `SKIP(n)` past `8·IN_LEN` (R132: "the caller has checked"). Raised by `skip`, which only a table entry
  longer than its table's `maxbits` can make happen: no `BUILD` gives one. Safe. -/
  | skipPastEnd
  /-- `UNREAD(n)` of more than 14 bits or of bits never read (R133). Raised by `unread`. Safe. -/
  | unreadTooFar
  deriving DecidableEq, Repr

/-- Why the model gives an action no step. -/
inductive Refusal where
  /-- An instruction of the table without a meaning: raised by no arm of this model. Safe. -/
  | notModelled (mnemonic : String)
  /-- A table of the state gave a symbol outside its alphabet. R112: such symbols "cannot occur", no `BUILD`
  gives one. Raised by the step's decoding and by a match's distance decoding. Safe. -/
  | noElement (e : DecodeError)
  /-- The host wrote to a unit that is `BUSY` or about to start, or to the I-unit while a chained run reads its
  `OUT` (R362, U1, U2: "no step"). Raised by `hostAct`, and by the step for a `START` found beside a run. Safe. -/
  | hostWhileBusy
  /-- `U_CMD.START` with `CHAIN = 1` while `I_STATUS.STATE ≠ DONE` (R77, R362, U3: "no step"). Raised by `hostAct`,
  and by the step for a command found so. Safe. -/
  | chainWithoutResult
  /-- The input or the output would exceed the buffers of a bounded implementation (R8, U4: "a bounded model should
  refuse"). Raised by `stepWithin` and `hostActWithin`, never with the default bounds (assumption 5). Safe. -/
  | overCapacity
  deriving DecidableEq, Repr

/-- What an operation of a unit answers: a value and the unit's next state; the unit's state after a `raise`
(R350: nothing after it runs); or a stop. -/
inductive Res (σ α : Type) where
  | ok (a : α) (u : σ)
  | raised (u : σ)
  | fault (f : Fault)
  | refused (r : Refusal)
  deriving DecidableEq, Repr

/-- A decode table of the empty set of lengths (R156), what the three tables hold at reset (assumption 1). -/
def Table.empty : Table := ⟨0, [none]⟩

/-- The I-unit after hardware reset (R38): `PHASE`, `I_ERRKIND`, `I_OUT_LEN` and `STRICT_PEEK` as the rule says,
`NLEN_CHECK` the open parameter (assumption 2), the unspecified rest zero (assumption 1). -/
def IUnit.reset : IUnit where
  start := false
  nlenCheck := Config.nlenCheckAtReset
  strictPeek := false
  inLen := 0
  errKind := none
  outLen := 0
  phase := .idle
  bitpos := 0
  outlen := 0
  bfinal := false
  btype := 0
  slen := 0
  snlen := 0
  hlit := 0
  hdist := 0
  hclen := 0
  lidx := 0
  sym := 0
  mlen := 0
  dsym := 0
  mdist := 0
  cllen := List.replicate 19 0
  llen := List.replicate 320 0
  cltab := Table.empty
  ltab := Table.empty
  dtab := Table.empty
  inp := []
  out := []

/-- The U-unit after hardware reset (R38): `U_PHASE`, `U_ERRKIND` and `U_ROWS_LEN` as the rule says, the
unspecified rest zero (assumption 1). -/
def UUnit.reset : UUnit where
  start := false
  chainCmd := false
  chained := false
  width := 0
  height := 0
  bpp := 0
  rawLen := 0
  errKind := none
  rowsLen := 0
  phase := .idle
  stride := 0
  row := 0
  ft := 0
  col := 0
  raw := []
  rows := []

/-- The machine right after hardware reset (R38, R380). -/
def State.reset : State := ⟨IUnit.reset, UUnit.reset, 0⟩

end Sys2Proof.Machine
end

