-- ==== Sys2Proof/Machine/Ops.lean ====
section
/-! DEFINITION. The named operations: byte access to the four spaces (spec/20_memory.md), raising an error
(spec/60_exceptions.md R350) and starting a run (spec/10_state.md R38), the Bit Reader
(spec/40_bit_reader.md R130-R134) and `OutAppend` (spec/00_scope.md R11). -/
namespace Sys2Proof.Machine

/-! ## Results -/

/-- Sequencing: what follows a `raise` or a stop does not run (R11). -/
def Res.bind {σ α β : Type} (r : Res σ α) (f : α → σ → Res σ β) : Res σ β :=
  match r with
  | .ok a u => f a u
  | .raised u => .raised u
  | .fault e => .fault e
  | .refused e => .refused e

/-- An element of the I-unit as a step of the block: only the I-unit's part of the state changes. A raised error
is a next state (R350, R351). -/
def onI (s : State) (r : Res IUnit Unit) : Host.Outcome State Fault Refusal :=
  match r with
  | .ok _ i => .next { s with i := i }
  | .raised i => .next { s with i := i }
  | .fault e => .fault e
  | .refused e => .refused e

/-- An element of the U-unit as a step of the block. -/
def onU (s : State) (r : Res UUnit Unit) : Host.Outcome State Fault Refusal :=
  match r with
  | .ok _ u => .next { s with u := u }
  | .raised u => .next { s with u := u }
  | .fault e => .fault e
  | .refused e => .refused e

/-! ## The bounds of an implementation (R8, R22) -/

/-- `IN_LEN` and `OUTLEN` are inside the bounds. -/
def State.fits (b : Bounds) (s : State) : Bool := b.inMax.all (s.i.inLen ≤ ·) && b.outMax.all (s.i.outlen ≤ ·)

/-- An outcome in a bounded implementation: a state that exceeds the bounds is not reached (U4). It is enough to look at
the state after a step: within a run `OUTLEN` only grows, and only the host writes `IN_LEN`. -/
def bounded (b : Bounds) (o : Host.Outcome State Fault Refusal) : Host.Outcome State Fault Refusal :=
  match o with
  | .next t => if t.fits b then .next t else .refused .overCapacity
  | .fault e => .fault e
  | .refused e => .refused e

/-! ## Memory (R35, R69) -/

/-- What an address that no entry lists reads as (assumption 3). -/
def Memory.unlisted : Byte := 0

/-- The byte at an address (R69: reading has no side effect). -/
def Memory.read : Memory → Nat → Byte
  | [], _ => Memory.unlisted
  | (k, b) :: m, a => if k = a then b else Memory.read m a

/-- The entry of a byte in canonical form: none when it is what an unlisted address reads as. -/
def Memory.cell (a : Nat) (b : Byte) : Memory := if b = Memory.unlisted then [] else [(a, b)]

/-- Writing one byte, keeping the canonical form. -/
def Memory.write : Memory → Nat → Byte → Memory
  | [], a, b => Memory.cell a b
  | (k, c) :: m, a, b =>
    if a < k then Memory.cell a b ++ (k, c) :: m
    else if a = k then Memory.cell a b ++ m
    else (k, c) :: Memory.write m a b

/-- The canonical form: addresses strictly rising, and no entry equal to what an unlisted address reads as. -/
abbrev Memory.wf (m : Memory) : Prop :=
  m.Pairwise (fun x y => x.1 < y.1) ∧ ∀ c ∈ m, c.2 ≠ Memory.unlisted

/-! ## Raising an error, and the way out of it (R350, R352, R38) -/

/-- `raise K` in the I-unit (R350): the run is over in `ERROR` with the kind recorded and no output length.
Nothing else is saved, and every other register keeps what it held. `I_STATUS.STATE` is a view of `PHASE`. -/
def IUnit.raise (k : ErrKind) (u : IUnit) : IUnit :=
  { u with phase := .error, errKind := some k, outLen := 0 }

/-- `raise K` in the U-unit (R350: "the same with U_PHASE, U_ERRKIND, U_ROWS_LEN, U_STATUS"). -/
def UUnit.raise (k : ErrKind) (u : UUnit) : UUnit :=
  { u with phase := .error, errKind := some k, rowsLen := 0 }

/-- There is no return from an error (R352): the only way out of `ERROR` or `DONE` is a new run. The effect of
`I_CMD.START` (R38), the command bit clearing itself (R29). -/
def IUnit.begin (u : IUnit) : IUnit :=
  { u with start := false, bitpos := 0, outlen := 0, phase := .hdr, errKind := none, outLen := 0 }

/-- `OutAppend(b)` (R11, R65): the only way the output space is written. -/
def IUnit.append (b : Byte) (u : IUnit) : IUnit :=
  { u with out := u.out.write u.outlen b, outlen := u.outlen + 1 }

/-! ## The Bit Reader (R130-R134) -/

/-- `InBit(k)`, stream bit `k` (R10): least significant bit of each byte first, bytes in rising index. -/
def IUnit.inBit (u : IUnit) (k : Nat) : Nat := (u.inp.read (k / 8)).toNat / 2 ^ (k % 8) % 2

/-- The number whose bit `i` is `bit (pos + i)`, for `i < n` (R61). -/
def bitField (bit : Nat → Nat) : Nat → Nat → Nat
  | 0, _ => 0
  | n + 1, pos => bit pos + 2 * bitField bit n (pos + 1)

/-- `BITPOS <- p`. -/
def IUnit.seek (p : Nat) (u : IUnit) : IUnit := { u with bitpos := p }

/-- `AVAIL`, the number of unread bits (R136 (e)). -/
def IUnit.avail (u : IUnit) : Nat := 8 * u.inLen - u.bitpos

/-- `READ(n)` (R130). -/
def readBits (n : Nat) (u : IUnit) : Res IUnit Nat :=
  if n = 0 ∨ 32 < n then .fault .readWidth
  else if 8 * u.inLen < u.bitpos + n then .raised (u.raise .truncated)
  else .ok (bitField u.inBit n u.bitpos) (u.seek (u.bitpos + n))

/-- A stream bit, or 0 beyond the end of the buffer (R131). -/
def IUnit.paddedBit (u : IUnit) (k : Nat) : Nat := if k < 8 * u.inLen then u.inBit k else 0

/-- `PEEK(n)` (R131): the next `n` bits, zero-padded; changes nothing and never fails. -/
def peekBits (n : Nat) (u : IUnit) : Nat := bitField u.paddedBit n u.bitpos

/-- `SKIP(n)` (R132). -/
def skipBits (n : Nat) (u : IUnit) : Res IUnit Unit :=
  if u.bitpos + n ≤ 8 * u.inLen then .ok () (u.seek (u.bitpos + n)) else .fault .skipPastEnd

/-- `UNREAD(n)` (R133), at most 14 bits; of "bits consumed by the immediately preceding READ" the state keeps only
that `BITPOS` bits have been read (assumption 11). The engine uses its fused form, `PEEK` then `SKIP`. -/
def unreadBits (n : Nat) (u : IUnit) : Res IUnit Unit :=
  if n ≤ 14 ∧ n ≤ u.bitpos then .ok () (u.seek (u.bitpos - n)) else .fault .unreadTooFar

/-- `ALIGN()` (R134). -/
def alignCursor (u : IUnit) : IUnit := u.seek (8 * ((u.bitpos + 7) / 8))

end Sys2Proof.Machine
end

