-- ==== Sys2Proof/Machine/Flags.lean ====
section
/-! DEFINITION. The one flag of the block, `BFINAL` (spec/10_state.md R27), what the end of a block does with it
(spec/42_blocks.md R183), and the status views of the two units (R29, R30, R341). There are no arithmetic
condition codes. -/
namespace Sys2Proof.Machine

/-- The block header's registers (R181: `BFINAL <- READ(1)`, `BTYPE <- READ(2)`). -/
def IUnit.setHeader (bfin : Bool) (btype : Nat) (u : IUnit) : IUnit := { u with bfinal := bfin, btype := btype }

/-- `END_BLOCK` (R183): the run is done when `BFINAL` is set, else another header is next. -/
def endBlock (u : IUnit) : IUnit :=
  if u.bfinal then { u with phase := .done, outLen := u.outlen } else { u with phase := .hdr }

/-- `I_STATUS.STATE = BUSY` (R29: "while PHASE is HDR, CLEN or BODY"). -/
def IUnit.busy (u : IUnit) : Bool := u.phase == .hdr || u.phase == .clen || u.phase == .body

/-- `U_STATUS.STATE = BUSY` (R36: a run is in progress while `U_PHASE` is `ROWHDR`). -/
def UUnit.busy (u : UUnit) : Bool := u.phase == .rowHdr

/-- `I_STATUS.STATE` (R29): 0 `IDLE`, 1 `BUSY`, 2 `DONE`, 3 `ERROR`. A `START` written and not yet taken reads as taken
(R38: `I_STATUS.STATE <- BUSY`; assumption 4). -/
def IUnit.status (u : IUnit) : BitVec 2 :=
  if u.start then 1
  else match u.phase with
    | .idle => 0
    | .hdr | .clen | .body => 1
    | .done => 2
    | .error => 3

/-- `U_STATUS.STATE` (R30). A `START` written and not yet taken reads as taken (R300: `U_STATUS.STATE <- BUSY`). -/
def UUnit.status (u : UUnit) : BitVec 2 :=
  if u.start then 1
  else match u.phase with
    | .idle => 0
    | .rowHdr => 1
    | .done => 2
    | .error => 3

/-- The number of an error kind, 0 for none (R341). -/
def errCode : Option ErrKind → BitVec 3
  | none => 0
  | some .format => 1
  | some .unsupported => 2
  | some .truncated => 3
  | some .huffman => 4

/-- `I_ERRKIND` (R29, R341), 0 once `START` is written (R38). -/
def IUnit.errRead (u : IUnit) : BitVec 3 := if u.start then 0 else errCode u.errKind

/-- `I_OUT_LEN` (R29), 0 once `START` is written (R38). -/
def IUnit.lenRead (u : IUnit) : Nat := if u.start then 0 else u.outLen

/-- `U_ERRKIND` (R30, R341), 0 once `START` is written (R300). -/
def UUnit.errRead (u : UUnit) : BitVec 3 := if u.start then 0 else errCode u.errKind

/-- `U_ROWS_LEN` (R30), 0 once `START` is written (R300). -/
def UUnit.lenRead (u : UUnit) : Nat := if u.start then 0 else u.rowsLen

end Sys2Proof.Machine
end

