-- ==== Sys2Proof/Machine/Operands.lean ====
section
/-! DEFINITION. The operand forms of spec/30_encoding.md section 4: the constant tables (R34, R96, R104, R105) and
"base plus extra bits" (R103), the one way a length, a distance or a repeat count is assembled. -/
namespace Sys2Proof.Machine

/-- `ORDER[0..18]` (R34, R96). -/
def order : List Nat := [16, 17, 18, 0, 8, 7, 9, 6, 10, 5, 11, 4, 12, 3, 13, 2, 14, 1, 15]

/-- `LBASE[0..28]` (R104). -/
def lbase : List Nat :=
  [3, 4, 5, 6, 7, 8, 9, 10, 11, 13, 15, 17, 19, 23, 27, 31, 35, 43, 51, 59, 67, 83, 99, 115, 131, 163, 195,
   227, 258]

/-- `LEXTRA[0..28]` (R104). -/
def lextra : List Nat :=
  [0, 0, 0, 0, 0, 0, 0, 0, 1, 1, 1, 1, 2, 2, 2, 2, 3, 3, 3, 3, 4, 4, 4, 4, 5, 5, 5, 5, 0]

/-- `DBASE[0..29]` (R105). -/
def dbase : List Nat :=
  [1, 2, 3, 4, 5, 7, 9, 13, 17, 25, 33, 49, 65, 97, 129, 193, 257, 385, 513, 769, 1025, 1537, 2049, 3073,
   4097, 6145, 8193, 12289, 16385, 24577]

/-- `DEXTRA[0..29]` (R105). -/
def dextra : List Nat :=
  [0, 0, 0, 0, 1, 1, 2, 2, 3, 3, 4, 4, 5, 5, 6, 6, 7, 7, 8, 8, 9, 9, 10, 10, 11, 11, 12, 12, 13, 13]

/-- `FIXL[0..287]` (R34). -/
def fixl : List Nat :=
  List.replicate 144 8 ++ List.replicate 112 9 ++ List.replicate 24 7 ++ List.replicate 8 8

/-- `FIXD[0..31]` (R34). -/
def fixd : List Nat := List.replicate 32 5

/-- `READ_EXTRA(n)` (R135): 0 without touching the Bit Reader when `n = 0`. -/
def readExtra (n : Nat) (u : IUnit) : Res IUnit Nat := if n = 0 then .ok 0 u else readBits n u

/-- `base + READ_EXTRA(extra)` (R103). -/
def basePlusExtra (base extra : Nat) (u : IUnit) : Res IUnit Nat :=
  (readExtra extra u).bind fun x u => .ok (base + x) u

/-- The length operand of length symbol `257 + k` (R223: `LBASE[k] + READ_EXTRA(LEXTRA[k])`). -/
def lengthOperand (k : Nat) (u : IUnit) : Res IUnit Nat :=
  basePlusExtra (lbase.getD k 0) (lextra.getD k 0) u

/-- The distance operand of distance symbol `d` (R260: `DBASE[d] + READ_EXTRA(DEXTRA[d])`). -/
def distanceOperand (d : Nat) (u : IUnit) : Res IUnit Nat :=
  basePlusExtra (dbase.getD d 0) (dextra.getD d 0) u

end Sys2Proof.Machine
end

