-- ==== Sys2Proof/Machine/Huffman.lean ====
section
/-! DEFINITION. Huffman table construction and decode (spec/41_huffman.md): `BUILD` and its parts (R150-R154), the
fixed tables in the closed form of R165, and `DECODE` (R160-R162). -/
namespace Sys2Proof.Machine

/-- `maxbits` (R151): the largest length present, 0 if there is none. -/
def maxBits (lens : List Nat) : Nat := lens.foldl max 0

/-- `count[b]` (R152), where unused symbols take no code: `count[0] = 0`. -/
def lenCount (lens : List Nat) (b : Nat) : Nat := if b = 0 then 0 else lens.count b

/-- `next[b]` before any symbol is assigned (R152): `next[b] = (next[b-1] + count[b-1]) << 1`. -/
def firstCode (lens : List Nat) : Nat → Nat
  | 0 => 0
  | b + 1 => (firstCode lens b + lenCount lens b) * 2

/-- A symbol with its length and its canonical code. -/
structure CodeWord where
  sym : Nat
  len : Nat
  code : Nat
  deriving DecidableEq, Repr

/-- The symbol loop of `ASSIGN` (R152): symbols from `s` on in increasing order, each used one taking `next` of its
length. -/
def assignFrom (next : List Nat) (s : Nat) : List Nat → List CodeWord
  | [] => []
  | l :: ls =>
    if l = 0 then assignFrom next (s + 1) ls
    else ⟨s, l, next.getD l 0⟩ :: assignFrom (next.set l (next.getD l 0 + 1)) (s + 1) ls

/-- `ASSIGN` (R152): the canonical code of every used symbol. -/
def assign (lens : List Nat) : List CodeWord :=
  assignFrom ((List.range (maxBits lens + 1)).map (firstCode lens)) 0 lens

/-- `K` of `CHECK_SUBSCRIPTION` (R153). -/
def kraft (lens : List Nat) : Nat :=
  ((List.range (maxBits lens + 1)).map fun b => lenCount lens b * 2 ^ (maxBits lens - b)).sum

/-- The entry at index `j` (R154: "(s, L) exactly for those j whose low L bits equal rev(code[s], L)"). -/
def entryAt (codes : List CodeWord) (j : Nat) : Option Entry :=
  (codes.find? fun c => j % 2 ^ c.len == rev c.code c.len).map fun c => ⟨c.sym, c.len⟩

/-- `FILL` (R154). -/
def fillTable (codes : List CodeWord) (maxbits : Nat) : List (Option Entry) :=
  (List.range (2 ^ maxbits)).map (entryAt codes)

/-- `BUILD(lens, n)` with `n` the number of lengths (R150); `none` where `CHECK_SUBSCRIPTION` raises (R153). -/
def build (lens : List Nat) : Option Table :=
  if 2 ^ maxBits lens < kraft lens then none
  else some ⟨maxBits lens, fillTable (assign lens) (maxBits lens)⟩

/-- An entry of `FIXED_LTAB` (R165), with `r = rev(idx, 9)`. -/
def fixedLEntry (idx : Nat) : Entry :=
  let r := rev idx 9
  if r / 4 ≤ 23 then ⟨256 + r / 4, 7⟩
  else if r / 2 ≤ 191 then ⟨r / 2 - 48, 8⟩
  else if r / 2 ≤ 199 then ⟨280 + (r / 2 - 192), 8⟩
  else ⟨144 + (r - 400), 9⟩

/-- `FIXED_LTAB` (R33, R165). -/
def fixedLTab : Table := ⟨9, (List.range 512).map fun idx => some (fixedLEntry idx)⟩

/-- `FIXED_DTAB` (R33, R165). -/
def fixedDTab : Table := ⟨5, (List.range 32).map fun idx => some ⟨rev idx 5, 5⟩⟩

/-- `T.entry[idx]`. -/
def Table.lookup (t : Table) (idx : Nat) : Option Entry := t.entry.getD idx none

/-- `DECODE(T)` (R160), with the tail rule (R161) and `STRICT_PEEK` (R162). -/
def decodeSym (t : Table) (u : IUnit) : Res IUnit Nat :=
  if u.strictPeek ∧ u.avail < t.maxbits then .raised (u.raise .truncated)
  else match t.lookup (peekBits t.maxbits u) with
    | none => if u.avail < t.maxbits then .raised (u.raise .truncated) else .raised (u.raise .huffman)
    | some e =>
      if u.avail < t.maxbits ∧ u.avail < e.len then .raised (u.raise .truncated)
      else (skipBits e.len u).bind fun _ u => .ok e.sym u

/-- `BUILD` as an element runs it: over-subscribed lengths raise `FormatError` (R153). -/
def buildTable (lens : List Nat) (u : IUnit) : Res IUnit Table :=
  match build lens with
  | some t => .ok t u
  | none => .raised (u.raise .format)

end Sys2Proof.Machine
end

