-- ==== Sys2Proof/Machine/Blocks.lean ====
section
/-! DEFINITION. The block headers and bodies and the code-length symbols (spec/42_blocks.md): formats `BH`, `ST`,
`DH` and `CL`. -/
namespace Sys2Proof.Machine

/-! ## Stored blocks (R190) -/

/-- The copy loop of `STORED`: `n` times `OutAppend(READ(8))`. -/
def copyStored : Nat → IUnit → Res IUnit Unit
  | 0, u => .ok () u
  | n + 1, u => (readBits 8 u).bind fun b u => copyStored n (u.append (BitVec.ofNat 8 b))

/-- `SLEN <- READ(16); SNLEN <- READ(16)` after `ALIGN()`. -/
def storedLengths (u : IUnit) : Res IUnit Unit :=
  (readBits 16 (alignCursor u)).bind fun len u =>
    (readBits 16 { u with slen := len }).bind fun nlen u => .ok () { u with snlen := nlen }

/-- The complement check: `NLEN_CHECK and SNLEN ≠ (SLEN ^ 0xFFFF)`. -/
def storedCheckFails (u : IUnit) : Bool := u.nlenCheck && u.snlen != (u.slen ^^^ 0xFFFF)

/-- `STORED` (R190). -/
def storedBody (u : IUnit) : Res IUnit Unit :=
  (storedLengths u).bind fun _ u =>
    if storedCheckFails u then .raised (u.raise .format)
    else (copyStored u.slen u).bind fun _ u => .ok () (endBlock u)

/-- `STORED`: the header with `BTYPE = 0` (R181) and the stored body in the same step (R190). -/
def execStored (bfin : Bool) (s : State) : Host.Outcome State Fault Refusal :=
  onI s (storedBody (s.i.setHeader bfin 0))

/-! ## Fixed blocks (R192) -/

/-- `FIXED` (R192): the fixed tables are in force. -/
def IUnit.useFixedTables (u : IUnit) : IUnit :=
  { u with ltab := fixedLTab, dtab := fixedDTab, phase := .body }

/-- `FIXED`: the header with `BTYPE = 1` (R181) and R192. -/
def execFixed (bfin : Bool) (s : State) : Host.Outcome State Fault Refusal :=
  onI s (.ok () (s.i.setHeader bfin 1).useFixedTables)

/-! ## Dynamic blocks (R193) -/

/-- The three counts: `HLIT <- READ(5) + 257`, `HDIST <- READ(5) + 1`, `HCLEN <- READ(4) + 4`. -/
def dynCounts (u : IUnit) : Res IUnit Unit :=
  (readBits 5 u).bind fun a u =>
    (readBits 5 { u with hlit := a + 257 }).bind fun b u =>
      (readBits 4 { u with hdist := b + 1 }).bind fun c u => .ok () { u with hclen := c + 4 }

/-- `for i: CLLEN[ORDER[i]] <- READ(3)`, over the symbols of `ORDER` still to be read. -/
def readClLens : List Nat → IUnit → Res IUnit Unit
  | [], u => .ok () u
  | s :: rest, u => (readBits 3 u).bind fun l u => readClLens rest { u with cllen := u.cllen.set s l }

/-- `DYNHDR` (R193). -/
def dynHeader (u : IUnit) : Res IUnit Unit :=
  (dynCounts u).bind fun _ u =>
    (readClLens (order.take u.hclen) { u with cllen := List.replicate 19 0 }).bind fun _ u =>
      (buildTable u.cllen u).bind fun t u => .ok () { u with cltab := t, lidx := 0, phase := .clen }

/-- `DYNAMIC`: the header with `BTYPE = 2` (R181) and `DYNHDR` in the same step (R193). -/
def execDynamic (bfin : Bool) (s : State) : Host.Outcome State Fault Refusal :=
  onI s (dynHeader (s.i.setHeader bfin 2))

/-! ## The invalid block type (R199) -/

/-- `BTYPE = 3`: `FormatError` (R199); `BFINAL` is latched all the same (R181). -/
def execBtype3 (bfin : Bool) (s : State) : Host.Outcome State Fault Refusal :=
  onI s (.raised ((s.i.setHeader bfin 3).raise .format))

/-! ## Code-length symbols (R194-R198) -/

/-- `n` times `LLEN[LIDX] <- v; LIDX <- LIDX + 1`. -/
def pushLens : Nat → Nat → IUnit → IUnit
  | 0, _, u => u
  | n + 1, v, u => pushLens n v { u with llen := u.llen.set u.lidx v, lidx := u.lidx + 1 }

/-- The literal/length lengths of a dynamic block (R194). -/
def IUnit.litLens (u : IUnit) : List Nat := u.llen.take u.hlit

/-- The distance lengths of a dynamic block (R194: "element j of this array is LLEN[HLIT + j]"). -/
def IUnit.distLens (u : IUnit) : List Nat := (u.llen.drop u.hlit).take u.hdist

/-- The end of `STEP_CL` (R194): when `LIDX` reaches `HLIT + HDIST` both tables are built, `LTAB` first. -/
def endCodeLength (u : IUnit) : Res IUnit Unit :=
  if u.lidx = u.hlit + u.hdist then
    (buildTable u.litLens u).bind fun lt u =>
      (buildTable u.distLens { u with ltab := lt }).bind fun dt u => .ok () { u with dtab := dt, phase := .body }
  else .ok () u

/-- The end of a repeat symbol (R196-R198): `rep` copies of `v`, or `FormatError` past `HLIT + HDIST`. -/
def repeatLen (rep v : Nat) (u : IUnit) : Res IUnit Unit :=
  if u.hlit + u.hdist < u.lidx + rep then .raised (u.raise .format)
  else endCodeLength (pushLens rep v u)

/-- `CLLIT` (R195): one explicit code length. -/
def execCllit (len : Nat) (s : State) : Host.Outcome State Fault Refusal :=
  onI s (endCodeLength (pushLens 1 len s.i))

/-- The code length most recently written (R196's "previous"). -/
def IUnit.prevLen (u : IUnit) : Nat := u.llen.getD (u.lidx - 1) 0

/-- `CL16` (R196): repeat the previous length 3-6 times; the check of `LIDX` comes before the extra bits. -/
def execCl16 (s : State) : Host.Outcome State Fault Refusal :=
  onI s (if s.i.lidx = 0 then .raised (s.i.raise .format)
    else (basePlusExtra 3 2 s.i).bind fun rep u => repeatLen rep u.prevLen u)

/-- `CL17` (R197): repeat zero 3-10 times. -/
def execCl17 (s : State) : Host.Outcome State Fault Refusal :=
  onI s ((basePlusExtra 3 3 s.i).bind fun rep u => repeatLen rep 0 u)

/-- `CL18` (R198): repeat zero 11-138 times. -/
def execCl18 (s : State) : Host.Outcome State Fault Refusal :=
  onI s ((basePlusExtra 11 7 s.i).bind fun rep u => repeatLen rep 0 u)

end Sys2Proof.Machine
end

