-- ==== Sys2Proof/Machine/Distance.lean ====
section
/-! DEFINITION. Distance symbols and the back-reference copy (spec/44_distance_copy.md): format `DS`. A distance
element runs inside a match, after the length symbol and its extra bits (R260); the cursor stands past its
Huffman code. -/
namespace Sys2Proof.Machine

/-- `COPY` (R292): `n` times read one byte `MDIST` behind the current end and append it, byte by byte (R73). -/
def copyMatch : Nat → IUnit → IUnit
  | 0, u => u
  | n + 1, u => copyMatch n (u.append (u.out.read (u.outlen - u.mdist)))

/-- The part of `DIST` after `DECODE(DTAB)` for a symbol with a row (R260): the distance from its base and extra
bits, the check against `OUTLEN`, then `COPY`. -/
def distElement (d : Nat) (u : IUnit) : Res IUnit Unit :=
  (distanceOperand d { u with dsym := d }).bind fun m u =>
    if u.outlen < m then .raised ({ u with mdist := m }.raise .format)
    else .ok () (copyMatch u.mlen { u with mdist := m })

/-- `DIST0` (R261) in a match. -/
def dist0 (u : IUnit) : Res IUnit Unit := distElement 0 u

/-- `DIST0` (R261). -/
def execDist0 (s : State) : Host.Outcome State Fault Refusal := onI s (dist0 s.i)

/-- `DIST1` (R262) in a match. -/
def dist1 (u : IUnit) : Res IUnit Unit := distElement 1 u

/-- `DIST1` (R262). -/
def execDist1 (s : State) : Host.Outcome State Fault Refusal := onI s (dist1 s.i)

/-- `DIST2` (R263) in a match. -/
def dist2 (u : IUnit) : Res IUnit Unit := distElement 2 u

/-- `DIST2` (R263). -/
def execDist2 (s : State) : Host.Outcome State Fault Refusal := onI s (dist2 s.i)

/-- `DIST3` (R264) in a match. -/
def dist3 (u : IUnit) : Res IUnit Unit := distElement 3 u

/-- `DIST3` (R264). -/
def execDist3 (s : State) : Host.Outcome State Fault Refusal := onI s (dist3 s.i)

/-- `DIST4` (R265) in a match. -/
def dist4 (u : IUnit) : Res IUnit Unit := distElement 4 u

/-- `DIST4` (R265). -/
def execDist4 (s : State) : Host.Outcome State Fault Refusal := onI s (dist4 s.i)

/-- `DIST5` (R266) in a match. -/
def dist5 (u : IUnit) : Res IUnit Unit := distElement 5 u

/-- `DIST5` (R266). -/
def execDist5 (s : State) : Host.Outcome State Fault Refusal := onI s (dist5 s.i)

/-- `DIST6` (R267) in a match. -/
def dist6 (u : IUnit) : Res IUnit Unit := distElement 6 u

/-- `DIST6` (R267). -/
def execDist6 (s : State) : Host.Outcome State Fault Refusal := onI s (dist6 s.i)

/-- `DIST7` (R268) in a match. -/
def dist7 (u : IUnit) : Res IUnit Unit := distElement 7 u

/-- `DIST7` (R268). -/
def execDist7 (s : State) : Host.Outcome State Fault Refusal := onI s (dist7 s.i)

/-- `DIST8` (R269) in a match. -/
def dist8 (u : IUnit) : Res IUnit Unit := distElement 8 u

/-- `DIST8` (R269). -/
def execDist8 (s : State) : Host.Outcome State Fault Refusal := onI s (dist8 s.i)

/-- `DIST9` (R270) in a match. -/
def dist9 (u : IUnit) : Res IUnit Unit := distElement 9 u

/-- `DIST9` (R270). -/
def execDist9 (s : State) : Host.Outcome State Fault Refusal := onI s (dist9 s.i)

/-- `DIST10` (R271) in a match. -/
def dist10 (u : IUnit) : Res IUnit Unit := distElement 10 u

/-- `DIST10` (R271). -/
def execDist10 (s : State) : Host.Outcome State Fault Refusal := onI s (dist10 s.i)

/-- `DIST11` (R272) in a match. -/
def dist11 (u : IUnit) : Res IUnit Unit := distElement 11 u

/-- `DIST11` (R272). -/
def execDist11 (s : State) : Host.Outcome State Fault Refusal := onI s (dist11 s.i)

/-- `DIST12` (R273) in a match. -/
def dist12 (u : IUnit) : Res IUnit Unit := distElement 12 u

/-- `DIST12` (R273). -/
def execDist12 (s : State) : Host.Outcome State Fault Refusal := onI s (dist12 s.i)

/-- `DIST13` (R274) in a match. -/
def dist13 (u : IUnit) : Res IUnit Unit := distElement 13 u

/-- `DIST13` (R274). -/
def execDist13 (s : State) : Host.Outcome State Fault Refusal := onI s (dist13 s.i)

/-- `DIST14` (R275) in a match. -/
def dist14 (u : IUnit) : Res IUnit Unit := distElement 14 u

/-- `DIST14` (R275). -/
def execDist14 (s : State) : Host.Outcome State Fault Refusal := onI s (dist14 s.i)

/-- `DIST15` (R276) in a match. -/
def dist15 (u : IUnit) : Res IUnit Unit := distElement 15 u

/-- `DIST15` (R276). -/
def execDist15 (s : State) : Host.Outcome State Fault Refusal := onI s (dist15 s.i)

/-- `DIST16` (R277) in a match. -/
def dist16 (u : IUnit) : Res IUnit Unit := distElement 16 u

/-- `DIST16` (R277). -/
def execDist16 (s : State) : Host.Outcome State Fault Refusal := onI s (dist16 s.i)

/-- `DIST17` (R278) in a match. -/
def dist17 (u : IUnit) : Res IUnit Unit := distElement 17 u

/-- `DIST17` (R278). -/
def execDist17 (s : State) : Host.Outcome State Fault Refusal := onI s (dist17 s.i)

/-- `DIST18` (R279) in a match. -/
def dist18 (u : IUnit) : Res IUnit Unit := distElement 18 u

/-- `DIST18` (R279). -/
def execDist18 (s : State) : Host.Outcome State Fault Refusal := onI s (dist18 s.i)

/-- `DIST19` (R280) in a match. -/
def dist19 (u : IUnit) : Res IUnit Unit := distElement 19 u

/-- `DIST19` (R280). -/
def execDist19 (s : State) : Host.Outcome State Fault Refusal := onI s (dist19 s.i)

/-- `DIST20` (R281) in a match. -/
def dist20 (u : IUnit) : Res IUnit Unit := distElement 20 u

/-- `DIST20` (R281). -/
def execDist20 (s : State) : Host.Outcome State Fault Refusal := onI s (dist20 s.i)

/-- `DIST21` (R282) in a match. -/
def dist21 (u : IUnit) : Res IUnit Unit := distElement 21 u

/-- `DIST21` (R282). -/
def execDist21 (s : State) : Host.Outcome State Fault Refusal := onI s (dist21 s.i)

/-- `DIST22` (R283) in a match. -/
def dist22 (u : IUnit) : Res IUnit Unit := distElement 22 u

/-- `DIST22` (R283). -/
def execDist22 (s : State) : Host.Outcome State Fault Refusal := onI s (dist22 s.i)

/-- `DIST23` (R284) in a match. -/
def dist23 (u : IUnit) : Res IUnit Unit := distElement 23 u

/-- `DIST23` (R284). -/
def execDist23 (s : State) : Host.Outcome State Fault Refusal := onI s (dist23 s.i)

/-- `DIST24` (R285) in a match. -/
def dist24 (u : IUnit) : Res IUnit Unit := distElement 24 u

/-- `DIST24` (R285). -/
def execDist24 (s : State) : Host.Outcome State Fault Refusal := onI s (dist24 s.i)

/-- `DIST25` (R286) in a match. -/
def dist25 (u : IUnit) : Res IUnit Unit := distElement 25 u

/-- `DIST25` (R286). -/
def execDist25 (s : State) : Host.Outcome State Fault Refusal := onI s (dist25 s.i)

/-- `DIST26` (R287) in a match. -/
def dist26 (u : IUnit) : Res IUnit Unit := distElement 26 u

/-- `DIST26` (R287). -/
def execDist26 (s : State) : Host.Outcome State Fault Refusal := onI s (dist26 s.i)

/-- `DIST27` (R288) in a match. -/
def dist27 (u : IUnit) : Res IUnit Unit := distElement 27 u

/-- `DIST27` (R288). -/
def execDist27 (s : State) : Host.Outcome State Fault Refusal := onI s (dist27 s.i)

/-- `DIST28` (R289) in a match. -/
def dist28 (u : IUnit) : Res IUnit Unit := distElement 28 u

/-- `DIST28` (R289). -/
def execDist28 (s : State) : Host.Outcome State Fault Refusal := onI s (dist28 s.i)

/-- `DIST29` (R290) in a match. -/
def dist29 (u : IUnit) : Res IUnit Unit := distElement 29 u

/-- `DIST29` (R290). -/
def execDist29 (s : State) : Host.Outcome State Fault Refusal := onI s (dist29 s.i)

/-- `RSVD` (R291) in a match: reserved distance symbols 30 and 31 raise before any further bit is read. -/
def rsvd (sym : Nat) (u : IUnit) : Res IUnit Unit := .raised ({ u with dsym := sym }.raise .huffman)

/-- `RSVD` (R291). -/
def execRsvd (sym : Nat) (s : State) : Host.Outcome State Fault Refusal := onI s (rsvd sym s.i)

/-- The elements of the distance symbols in order, from 0. -/
def distElements : List (IUnit → Res IUnit Unit) :=
  [dist0, dist1, dist2, dist3, dist4, dist5, dist6, dist7, dist8, dist9,
   dist10, dist11, dist12, dist13, dist14, dist15, dist16, dist17, dist18, dist19,
   dist20, dist21, dist22, dist23, dist24, dist25, dist26, dist27, dist28, dist29,
   rsvd 30, rsvd 31]

/-- `case DSYM of` (R260). -/
def distSymbol (d : Nat) (u : IUnit) : Res IUnit Unit :=
  match distElements[d]? with
  | some f => f u
  | none => .refused (.noElement (.noDistanceSymbol d))

/-- `DIST` (R260): `DSYM <- DECODE(DTAB)` and the case of the symbol. -/
def distance (u : IUnit) : Res IUnit Unit := (decodeSym u.dtab u).bind distSymbol

end Sys2Proof.Machine
end

