-- ==== Sys2Proof/Machine/LitLen.lean ====
section
/-! DEFINITION. Literal, end-of-block and length symbols (spec/43_litlen.md): format `LL`. The cursor stands past
the symbol's Huffman code; the meaning writes `SYM` (R200) and does the rest of the element. -/
namespace Sys2Proof.Machine

/-- `SYM <- sym` (R200). -/
def IUnit.setSym (sym : Nat) (u : IUnit) : IUnit := { u with sym := sym }

/-- `LIT` (R221): append the byte. -/
def execLit (b : Byte) (s : State) : Host.Outcome State Fault Refusal :=
  onI s (.ok () ((s.i.setSym b.toNat).append b))

/-- `EOB` (R222): the block ends. -/
def execEob (s : State) : Host.Outcome State Fault Refusal := onI s (.ok () (endBlock (s.i.setSym 256)))

/-- `MATCH` (R223): the length from its base and extra bits, then the distance element. -/
def matchElement (sym : Nat) (u : IUnit) : Res IUnit Unit :=
  (lengthOperand (sym - 257) (u.setSym sym)).bind fun m u => distance { u with mlen := m }

/-- `LEN257` (R224). -/
def execLen257 (s : State) : Host.Outcome State Fault Refusal := onI s (matchElement 257 s.i)

/-- `LEN258` (R225). -/
def execLen258 (s : State) : Host.Outcome State Fault Refusal := onI s (matchElement 258 s.i)

/-- `LEN259` (R226). -/
def execLen259 (s : State) : Host.Outcome State Fault Refusal := onI s (matchElement 259 s.i)

/-- `LEN260` (R227). -/
def execLen260 (s : State) : Host.Outcome State Fault Refusal := onI s (matchElement 260 s.i)

/-- `LEN261` (R228). -/
def execLen261 (s : State) : Host.Outcome State Fault Refusal := onI s (matchElement 261 s.i)

/-- `LEN262` (R229). -/
def execLen262 (s : State) : Host.Outcome State Fault Refusal := onI s (matchElement 262 s.i)

/-- `LEN263` (R230). -/
def execLen263 (s : State) : Host.Outcome State Fault Refusal := onI s (matchElement 263 s.i)

/-- `LEN264` (R231). -/
def execLen264 (s : State) : Host.Outcome State Fault Refusal := onI s (matchElement 264 s.i)

/-- `LEN265` (R232). -/
def execLen265 (s : State) : Host.Outcome State Fault Refusal := onI s (matchElement 265 s.i)

/-- `LEN266` (R233). -/
def execLen266 (s : State) : Host.Outcome State Fault Refusal := onI s (matchElement 266 s.i)

/-- `LEN267` (R234). -/
def execLen267 (s : State) : Host.Outcome State Fault Refusal := onI s (matchElement 267 s.i)

/-- `LEN268` (R235). -/
def execLen268 (s : State) : Host.Outcome State Fault Refusal := onI s (matchElement 268 s.i)

/-- `LEN269` (R236). -/
def execLen269 (s : State) : Host.Outcome State Fault Refusal := onI s (matchElement 269 s.i)

/-- `LEN270` (R237). -/
def execLen270 (s : State) : Host.Outcome State Fault Refusal := onI s (matchElement 270 s.i)

/-- `LEN271` (R238). -/
def execLen271 (s : State) : Host.Outcome State Fault Refusal := onI s (matchElement 271 s.i)

/-- `LEN272` (R239). -/
def execLen272 (s : State) : Host.Outcome State Fault Refusal := onI s (matchElement 272 s.i)

/-- `LEN273` (R240). -/
def execLen273 (s : State) : Host.Outcome State Fault Refusal := onI s (matchElement 273 s.i)

/-- `LEN274` (R241). -/
def execLen274 (s : State) : Host.Outcome State Fault Refusal := onI s (matchElement 274 s.i)

/-- `LEN275` (R242). -/
def execLen275 (s : State) : Host.Outcome State Fault Refusal := onI s (matchElement 275 s.i)

/-- `LEN276` (R243). -/
def execLen276 (s : State) : Host.Outcome State Fault Refusal := onI s (matchElement 276 s.i)

/-- `LEN277` (R244). -/
def execLen277 (s : State) : Host.Outcome State Fault Refusal := onI s (matchElement 277 s.i)

/-- `LEN278` (R245). -/
def execLen278 (s : State) : Host.Outcome State Fault Refusal := onI s (matchElement 278 s.i)

/-- `LEN279` (R246). -/
def execLen279 (s : State) : Host.Outcome State Fault Refusal := onI s (matchElement 279 s.i)

/-- `LEN280` (R247). -/
def execLen280 (s : State) : Host.Outcome State Fault Refusal := onI s (matchElement 280 s.i)

/-- `LEN281` (R248). -/
def execLen281 (s : State) : Host.Outcome State Fault Refusal := onI s (matchElement 281 s.i)

/-- `LEN282` (R249). -/
def execLen282 (s : State) : Host.Outcome State Fault Refusal := onI s (matchElement 282 s.i)

/-- `LEN283` (R250). -/
def execLen283 (s : State) : Host.Outcome State Fault Refusal := onI s (matchElement 283 s.i)

/-- `LEN284` (R251). -/
def execLen284 (s : State) : Host.Outcome State Fault Refusal := onI s (matchElement 284 s.i)

/-- `LEN285` (R252). -/
def execLen285 (s : State) : Host.Outcome State Fault Refusal := onI s (matchElement 285 s.i)

/-- `RSVL` (R253): reserved literal/length symbols 286 and 287 raise before any further bit is read. -/
def execRsvl (sym : Nat) (s : State) : Host.Outcome State Fault Refusal :=
  onI s (.raised ((s.i.setSym sym).raise .huffman))

end Sys2Proof.Machine
end

