-- ==== Sys2Proof/Machine/Unfilter.lean ====
section
/-! DEFINITION. The PNG scanline unfilter (spec/45_unfilter.md): format `FS`, the start and the end of a U-unit
run (R300, R301), the predictors (R306-R310, R312) and the reconstruction (R303-R305). -/
namespace Sys2Proof.Machine

/-! ## The run (R300-R302) -/

/-- `RAW` of the run (R30, R77): the host's `RAW`, or with `CHAIN` the I-unit's `OUT`. -/
def State.rawSpace (s : State) : Memory := if s.u.chained then s.i.out else s.u.raw

/-- `RAW_LEN` of the run (R30, R77): `U_RAW_LEN`, or with `CHAIN` the I-unit's `I_OUT_LEN`. -/
def State.rawLen (s : State) : Nat := if s.u.chained then s.i.outLen else s.u.rawLen

/-- `BPP` is one of 1, 2, 3, 4 (R301). -/
def UUnit.bppLegal (u : UUnit) : Bool := u.bpp == 1 || u.bpp == 2 || u.bpp == 3 || u.bpp == 4

/-- The loop test of `RUN_UNFILTER` and its exit (R300): while `ROW < HEIGHT` another scanline is next, else the run
is done with `HEIGHT × STRIDE` bytes. -/
def UUnit.nextRow (u : UUnit) : UUnit :=
  if u.row < u.height.toNat then u
  else { u with rowsLen := u.height.toNat * u.stride, phase := .done }

/-- `U_CMD.START` (R300, R301): status and lengths cleared, the geometry checked, then the loop from row 0. The
command clears itself (R30). -/
def UUnit.begin (u : UUnit) : Res UUnit Unit :=
  let u := { u with start := false, chainCmd := false, chained := u.chainCmd, errKind := none, rowsLen := 0 }
  if u.bppLegal then
    .ok () { u with stride := u.width.toNat * u.bpp.toNat, row := 0, phase := .rowHdr }.nextRow
  else .raised (u.raise .unsupported)

/-- Where scanline `ROW` starts in `RAW` (R303). -/
def UUnit.rowBase (u : UUnit) : Nat := u.row * (1 + u.stride)

/-! ## Predictors (R306-R312) -/

/-- `paeth(a, b, c)` (R312), in exact signed integers (R313). -/
def paeth (a b c : Nat) : Nat :=
  let p : Int := (a : Int) + b - c
  let pa := (p - a).natAbs
  let pb := (p - b).natAbs
  let pc := (p - c).natAbs
  if pa ≤ pb ∧ pa ≤ pc then a else if pb ≤ pc then b else c

/-- `PRED(FT, a, b, c)` (R306-R310). -/
def predictor (ft a b c : Nat) : Nat :=
  match ft with
  | 1 => a
  | 2 => b
  | 3 => (a + b) / 2
  | 4 => paeth a b c
  | _ => 0

/-! ## One scanline (R303-R305) -/

/-- `LEFT(ROW, i)` (R304). -/
def UUnit.left (u : UUnit) (i : Nat) : Nat :=
  if u.bpp.toNat ≤ i then (u.rows.read (u.row * u.stride + i - u.bpp.toNat)).toNat else 0

/-- `ABOVE(ROW, i)` (R304). -/
def UUnit.above (u : UUnit) (i : Nat) : Nat :=
  if 1 ≤ u.row then (u.rows.read ((u.row - 1) * u.stride + i)).toNat else 0

/-- `UPLEFT(ROW, i)` (R304). -/
def UUnit.upLeft (u : UUnit) (i : Nat) : Nat :=
  if 1 ≤ u.row ∧ u.bpp.toNat ≤ i then (u.rows.read ((u.row - 1) * u.stride + i - u.bpp.toNat)).toNat else 0

/-- One reconstructed byte, `(x + p) mod 256` (R305), of the byte at `COL`. -/
def UUnit.rebuilt (raw : Memory) (u : UUnit) : Byte :=
  BitVec.ofNat 8 ((raw.read (u.rowBase + 1 + u.col)).toNat
    + predictor u.ft (u.left u.col) (u.above u.col) (u.upLeft u.col))

/-- The `COL` loop of `STEP_ROW` (R303): `n` bytes from `COL` on. -/
def unfilterBytes (raw : Memory) : Nat → UUnit → UUnit
  | 0, u => u
  | n + 1, u =>
    unfilterBytes raw n
      { u with rows := u.rows.write (u.row * u.stride + u.col) (u.rebuilt raw), col := u.col + 1 }

/-- A scanline with a legal selector (R303), then the loop's `ROW <- ROW + 1` and test (R300). Its length was checked
before the selector was fetched (R302, `fetchRow`). -/
def rowElement (ft : Nat) (raw : Memory) (u : UUnit) : Res UUnit Unit :=
  let u := unfilterBytes raw u.stride { u with ft := ft, col := 0 }
  .ok () { u with row := u.row + 1 }.nextRow

/-- `NONE` (R306). -/
def execFilterNone (s : State) : Host.Outcome State Fault Refusal := onU s (rowElement 0 s.rawSpace s.u)

/-- `SUB` (R307). -/
def execFilterSub (s : State) : Host.Outcome State Fault Refusal := onU s (rowElement 1 s.rawSpace s.u)

/-- `UP` (R308). -/
def execFilterUp (s : State) : Host.Outcome State Fault Refusal := onU s (rowElement 2 s.rawSpace s.u)

/-- `AVG` (R309). -/
def execFilterAvg (s : State) : Host.Outcome State Fault Refusal := onU s (rowElement 3 s.rawSpace s.u)

/-- `PAETH` (R310). -/
def execFilterPaeth (s : State) : Host.Outcome State Fault Refusal := onU s (rowElement 4 s.rawSpace s.u)

/-- `RSVF` (R311): reserved selectors raise before any byte of the scanline is reconstructed. -/
def execRsvf (ft : Nat) (s : State) : Host.Outcome State Fault Refusal :=
  onU s (.raised ({ s.u with ft := ft }.raise .format))

end Sys2Proof.Machine
end

