-- ==== Sys2Proof/Machine/HostPort.lean ====
section
/-! DEFINITION. The host interface (spec/10_state.md R29, R30; spec/60_exceptions.md R362;
spec/70_reset_and_hazards.md R380, R384, R385): what the host may write and when, what it reads, and what the
units do with a `START` command. An action the host must not take has no step (R362): it is refused. -/
namespace Sys2Proof.Machine

/-- What the host can do to the block (R29, R30, R35, R362, R380). -/
inductive HostAct where
  /-- Hardware reset (R380). -/
  | hardReset
  /-- `IN[a] <- b`. -/
  | writeIn (a : Nat) (b : Byte)
  /-- `I_IN_LEN <- n`. -/
  | writeInLen (n : Nat)
  /-- `I_CFG`. -/
  | writeICfg (nlenCheck strictPeek : Bool)
  /-- `I_CMD`. -/
  | writeICmd (start : Bool)
  /-- `RAW[a] <- b`. -/
  | writeRaw (a : Nat) (b : Byte)
  /-- `U_RAW_LEN <- n`. -/
  | writeRawLen (n : Nat)
  /-- `U_WIDTH`. -/
  | writeWidth (w : BitVec 32)
  /-- `U_HEIGHT`. -/
  | writeHeight (h : BitVec 32)
  /-- `U_BPP`: every value may be written, R301 checks it at `START`. -/
  | writeBpp (b : BitVec 3)
  /-- `U_CMD`. -/
  | writeUCmd (start chain : Bool)
  deriving DecidableEq, Repr

/-- The registers the host can read (R29, R30: `I_CMD` and `U_CMD` are write-only). -/
inductive HostReg where
  | iCfg | iInLen | iStatus | iErrKind | iOutLen
  | uWidth | uHeight | uBpp | uRawLen | uStatus | uErrKind | uRowsLen
  deriving DecidableEq, Repr

/-- A chained U-unit run reads `OUT`, or is about to (R77, R385). -/
def UUnit.usesOut (u : UUnit) : Bool := (u.chained && u.busy) || (u.start && u.chainCmd)

/-- The host must leave the I-unit, `IN` and its registers alone (R362, R385, R394): a run is in progress or about to
start, or a chained run needs the result. -/
def State.iLocked (s : State) : Bool := s.i.busy || s.i.start || s.u.usesOut

/-- The host must leave the U-unit, `RAW` and its registers alone (R362, R385). -/
def State.uLocked (s : State) : Bool := s.u.busy || s.u.start

/-- A host write to the I-unit's side, or no step. -/
def hostToI (s : State) (i : IUnit) : Host.Outcome State Fault Refusal :=
  if s.iLocked then .refused .hostWhileBusy else .next { s with i := i }

/-- A host write to the U-unit's side, or no step. -/
def hostToU (s : State) (u : UUnit) : Host.Outcome State Fault Refusal :=
  if s.uLocked then .refused .hostWhileBusy else .next { s with u := u }

/-- One host action, whatever the buffers hold (R362). Reset may be applied in any state (R380); a command register
written without its `START` bit does nothing (R29, R30). -/
def hostActUnits (a : HostAct) (s : State) : Host.Outcome State Fault Refusal :=
  match a with
  | .hardReset => .next { State.reset with tick := s.tick }
  | .writeIn a b => hostToI s { s.i with inp := s.i.inp.write a b }
  | .writeInLen n => hostToI s { s.i with inLen := n }
  | .writeICfg nlen strict => hostToI s { s.i with nlenCheck := nlen, strictPeek := strict }
  | .writeICmd start => hostToI s { s.i with start := start }
  | .writeRaw a b => hostToU s { s.u with raw := s.u.raw.write a b }
  | .writeRawLen n => hostToU s { s.u with rawLen := n }
  | .writeWidth w => hostToU s { s.u with width := w }
  | .writeHeight h => hostToU s { s.u with height := h }
  | .writeBpp b => hostToU s { s.u with bpp := b }
  | .writeUCmd start chain =>
    if start && chain && (s.i.phase != .done || s.i.start) then .refused .chainWithoutResult
    else hostToU s (if start then { s.u with start := true, chainCmd := chain } else s.u)

/-- One host action on an implementation with the bounds `b` (R8): an `I_IN_LEN` beyond `IN_MAX`, no legal value (R29),
has no step (U4). -/
def hostActWithin (b : Bounds) (a : HostAct) (s : State) : Host.Outcome State Fault Refusal :=
  bounded b (hostActUnits a s)

/-- One host action, with the bounds at their default (R8, assumption 5). -/
def hostAct (a : HostAct) (s : State) : Host.Outcome State Fault Refusal := hostActWithin Bounds.unbounded a s

/-- What the host reads from a register (R29, R30, R341). The configuration registers `I_CFG`, `I_IN_LEN`, `U_WIDTH`,
`U_HEIGHT`, `U_BPP` and `U_RAW_LEN` read as the value they hold in every state. R29 and R30 give that access "when not
`BUSY`", and neither they nor R362 say what a read of one of the six in `BUSY` gives: that it gives the held value too is
the model's choice (assumption 19). -/
def hostRead (r : HostReg) (s : State) : Nat :=
  match r with
  | .iCfg => s.i.nlenCheck.toNat + 2 * s.i.strictPeek.toNat
  | .iInLen => s.i.inLen
  | .iStatus => s.i.status.toNat
  | .iErrKind => s.i.errRead.toNat
  | .iOutLen => s.i.lenRead
  | .uWidth => s.u.width.toNat
  | .uHeight => s.u.height.toNat
  | .uBpp => s.u.bpp.toNat
  | .uRawLen => s.u.rawLen
  | .uStatus => s.u.status.toNat
  | .uErrKind => s.u.errRead.toNat
  | .uRowsLen => s.u.lenRead

/-- The host reads `OUT[a]`: a result byte in `DONE` below `I_OUT_LEN`, else any value (U3). -/
def hostReadOut (a : Nat) (s : State) : Byte :=
  if s.i.phase = .done ∧ a < s.i.lenRead then s.i.out.read a else Config.unreportedByte true a

/-- The host reads `ROWS[a]`: a result byte in `DONE` below `U_ROWS_LEN`, else any value (U3). -/
def hostReadRows (a : Nat) (s : State) : Byte :=
  if s.u.phase = .done ∧ a < s.u.lenRead then s.u.rows.read a else Config.unreportedByte false a

/-- The I-unit takes `I_CMD.START` (R38, R352): legal when it is not `BUSY` and no chained run reads its `OUT` (R394). -/
def startI (s : State) : Host.Outcome State Fault Refusal :=
  if s.i.busy || s.u.usesOut then .refused .hostWhileBusy else onI s (.ok () s.i.begin)

/-- The U-unit takes `U_CMD.START` (R300, R77): not while it is `BUSY`, and chained only to a result. -/
def startU (s : State) : Host.Outcome State Fault Refusal :=
  if s.u.busy then .refused .hostWhileBusy
  else if s.u.chainCmd && s.i.phase != .done then .refused .chainWithoutResult
  else onU s s.u.begin

end Sys2Proof.Machine
end

