-- ==== Sys2Proof/Machine/Fetch.lean ====
section
/-! DEFINITION. Fetching a stream element (spec/42_blocks.md R180, R181, R194, R200; spec/45_unfilter.md R303): the
bits that hold the selecting field are read at the cursor, and its value is what Decode.lean decodes. Then how an
element's word is laid into the machine for the host's question. -/
namespace Sys2Proof.Machine

/-- `BFINAL <- READ(1); BTYPE <- READ(2)` (R181), as the 3-bit field `h` (R93). `BFINAL` is latched before the second
read; the element's meaning writes both. -/
def fetchHeader (u : IUnit) : Res IUnit (Format × Nat) :=
  (readBits 1 u).bind fun f u =>
    (readBits 2 { u with bfinal := f == 1 }).bind fun t u => .ok (.bh, f + 2 * t) u

/-- `s <- DECODE(T)` (R194, R200). -/
def fetchSymbol (fmt : Format) (t : Table) (u : IUnit) : Res IUnit (Format × Nat) :=
  (decodeSym t u).bind fun v u => .ok (fmt, v) u

/-- The next element's selecting field, by `PHASE` (R28, R180); nothing when no run is in progress. -/
def fetchI (u : IUnit) : Option (Res IUnit (Format × Nat)) :=
  match u.phase with
  | .hdr => some (fetchHeader u)
  | .clen => some (fetchSymbol .cl u.cltab u)
  | .body => some (fetchSymbol .ll u.ltab u)
  | .idle | .done | .error => none

/-- The length check and the selector of scanline `ROW` (R302, R303). -/
def fetchRow (raw : Memory) (rawLen : Nat) (u : UUnit) : Res UUnit (Format × Nat) :=
  if rawLen < u.rowBase + 1 + u.stride then .raised (u.raise .truncated)
  else .ok (.fs, (raw.read u.rowBase).toNat) u

/-- The I-unit has something to do: a command to take or an element to fetch. -/
def State.iReady (s : State) : Bool := s.i.start || s.i.busy

/-- The U-unit has something to do. -/
def State.uReady (s : State) : Bool := s.u.start || s.u.busy

/-! ## An element's word as the next thing fetched (assumption 10) -/

/-- `n` bytes of the number `v`, least significant first, at `a`. -/
def storeBytes (m : Memory) (a v : Nat) : Nat → Memory
  | 0 => m
  | n + 1 => storeBytes (m.write a (BitVec.ofNat 8 v)) (a + 1) (v / 256) n

/-- The I-unit mid-run with the stream bits of `v` (eight bytes, longer than any element) at bit 0 of `IN`. -/
def IUnit.place (ph : Phase) (v : Nat) (u : IUnit) : IUnit :=
  { u with start := false, phase := ph, bitpos := 0, inLen := 8, inp := storeBytes u.inp 0 v 8 }

/-- The fixed block's stream bits of a code, as a number whose bit 0 is the first stream bit (R63). -/
def codeBits (c : Nat × Nat) : Nat := rev c.2 c.1

/-- The code-length table in which the code of every symbol is its 5-bit number (19 lengths of 5, R152). -/
def flatClTab : Table := (build (List.replicate 19 5)).getD Table.empty

/-- The I-unit with the word `w` of a format next. Block header: the word itself, with the complement check off, since
its reset value is open. Code-length symbol: within a dynamic header of 257 + 1 lengths, one already filled.
Literal/length symbol: within a fixed block. Distance symbol: in a fixed block behind the code of `LEN257`, the element
it belongs to (R90). Matches have 32768 output bytes behind them. -/
def IUnit.placeWord (fmt : Format) (w : Nat) (u : IUnit) : IUnit :=
  match fmt with
  | .bh => { u with nlenCheck := false }.place .hdr w
  | .cl => { u with cltab := flatClTab, hlit := 257, hdist := 1, lidx := 1 }.place .clen (codeBits (5, w))
  | .ll =>
    let u := u.useFixedTables.place .body (codeBits (fixedCodeLL w))
    if 257 ≤ w ∧ w ≤ 285 then { u with outlen := 32768 } else u
  | .ds =>
    { u with outlen := 32768 }.useFixedTables.place .body
      (codeBits (fixedCodeLL 257) + 2 ^ 7 * codeBits (fixedCodeDS w))
  | .fs => u

/-- The U-unit with the selector `w` next: one scanline of one byte. -/
def UUnit.placeRow (w : Nat) (u : UUnit) : UUnit :=
  { u with start := false, chained := false, phase := .rowHdr, width := 1, height := 1, bpp := 1, stride := 1,
           row := 0, rawLen := 2, raw := storeBytes u.raw 0 w 2 }

/-- The state whose next step fetches the word `w` of a format: that unit is mid-run and the other at rest. -/
def State.placeWord (fmt : Format) (w : Nat) (s : State) : State :=
  match fmt with
  | .fs => { s with i := { s.i with start := false, phase := .idle }, u := s.u.placeRow w }
  | _ => { s with i := s.i.placeWord fmt w, u := { s.u with start := false, phase := .idle } }

end Sys2Proof.Machine
end

