-- ==== Sys2Proof/Machine/Step.lean ====
section
/-! DEFINITION. The step: one stream element of one unit, or a `START` command taken (spec/10_state.md R28,
spec/42_blocks.md R180, spec/45_unfilter.md R300). -/
namespace Sys2Proof.Machine

/-- Run the element that the I-unit's fetch found. -/
def runI (s : State) (r : Res IUnit (Format × Nat)) : Host.Outcome State Fault Refusal :=
  match r with
  | .ok w i =>
    match decode w.1 w.2 with
    | .ok e => exec e { s with i := i }
    | .error e => .refused (.noElement e)
  | .raised i => .next { s with i := i }
  | .fault e => .fault e
  | .refused e => .refused e

/-- Run the element that the U-unit's fetch found. -/
def runU (s : State) (r : Res UUnit (Format × Nat)) : Host.Outcome State Fault Refusal :=
  match r with
  | .ok w u =>
    match decode w.1 w.2 with
    | .ok e => exec e { s with u := u }
    | .error e => .refused (.noElement e)
  | .raised u => .next { s with u := u }
  | .fault e => .fault e
  | .refused e => .refused e

/-- A step of the I-unit: the command, or the next element (R180); at rest nothing changes (R28: `DONE` and `ERROR`
have no successor but a new `START`). -/
def stepI (s : State) : Host.Outcome State Fault Refusal :=
  if s.i.start then startI s
  else match fetchI s.i with
    | some r => runI s r
    | none => .next s

/-- A step of the U-unit: the command, or the next scanline, or the loop's exit (R300). -/
def stepU (s : State) : Host.Outcome State Fault Refusal :=
  if s.u.start then startU s
  else if s.u.busy then
    if s.u.row < s.u.height.toNat then runU s (fetchRow s.rawSpace s.rawLen s.u)
    else .next { s with u := s.u.nextRow }
  else .next s

/-- The step of the block, whatever its buffers hold. Where both units have something to do, which one goes is a free draw
(assumption 8). Where none has, the block waits for the host: nothing changes (R346, R362). -/
def stepUnits (s : State) : Host.Outcome State Fault Refusal :=
  if s.iReady && s.uReady then
    if Config.iUnitFirst s.tick then stepI { s with tick := s.tick + 1 }
    else stepU { s with tick := s.tick + 1 }
  else if s.iReady then stepI s
  else if s.uReady then stepU s
  else .next s

/-- The step of an implementation with the bounds `b` (R8): where the output would exceed `OUT_MAX` there is none (U4). -/
def stepWithin (b : Bounds) (s : State) : Host.Outcome State Fault Refusal := bounded b (stepUnits s)

/-- The step of the block, with the bounds at their default (R8, assumption 5). -/
def step (s : State) : Host.Outcome State Fault Refusal := stepWithin Bounds.unbounded s

/-- The host's question: `s` with the table word `w` where the next step fetches (assumption 10). A word of no element
leaves `s` as it is. -/
def State.withFetchWord (s : State) (nbits w : Nat) : State :=
  match decodeTableWord nbits w with
  | some _ => s.placeWord (tableWordFormat nbits w) w
  | none => s

end Sys2Proof.Machine
end

