-- ==== Sys2Proof/Safety.lean ====
section
/-! DEFINITION. What claims about the block assume and promise: the invariant of each unit (the ranges of
spec/10_state.md R21, R31, R32, R36, the cursor's limit R26, what a result register holds R29, R30, R340), their
joint invariant (R77, R370), and the bounds of a finite implementation (R8, R22). -/
namespace Sys2Proof.Machine

/-- A decode table of an alphabet (R32): at most `width` bits, an entry for every look-ahead, and in every entry a
symbol up to `top` with `1 ≤ len ≤ maxbits`. -/
def Table.wf (width top : Nat) (t : Table) : Prop :=
  t.maxbits ≤ width ∧ t.entry.length = 2 ^ t.maxbits ∧
    ∀ e ∈ t.entry, ∀ x ∈ e, 1 ≤ x.len ∧ x.len ≤ t.maxbits ∧ x.sym ≤ top

/-- The registers, arrays and tables are in the ranges of R21, R31 and R32 (the upper ends: zero, the reset value of
assumption 1, lies below some lower ends). -/
structure IUnit.InRange (u : IUnit) : Prop where
  btype : u.btype ≤ 3
  slen : u.slen ≤ 65535
  snlen : u.snlen ≤ 65535
  hlit : u.hlit ≤ 288
  hdist : u.hdist ≤ 32
  hclen : u.hclen ≤ 19
  lidx : u.lidx ≤ 320
  sym : u.sym ≤ 287
  mlen : u.mlen ≤ 258
  dsym : u.dsym ≤ 31
  mdist : u.mdist ≤ 32768
  cllen : u.cllen.length = 19 ∧ ∀ l ∈ u.cllen, l ≤ 7
  llen : u.llen.length = 320 ∧ ∀ l ∈ u.llen, l ≤ 15
  cltab : u.cltab.wf 7 18
  ltab : u.ltab.wf 15 287
  dtab : u.dtab.wf 15 31

/-- The I-unit's invariant. -/
structure IUnit.Inv (u : IUnit) : Prop where
  inRange : u.InRange
  /-- R29: `START` is not written while `BUSY`. -/
  notRestarted : u.start = true → u.busy = false
  /-- R26: the cursor never exceeds `8·IN_LEN` in a run. -/
  cursor : u.busy = true → u.bitpos ≤ 8 * u.inLen
  /-- R28: a code-length symbol is next only "with LIDX < HLIT + HDIST". -/
  lengths : u.phase = .clen → 257 ≤ u.hlit ∧ 1 ≤ u.hdist ∧ u.lidx < u.hlit + u.hdist
  /-- R29: `I_ERRKIND` is 0 unless `STATE = ERROR`. -/
  errKind : u.errKind.isSome = true ↔ u.phase = .error
  /-- R340: the I-unit never raises `UnsupportedFeatureError`. -/
  errCause : u.errKind ≠ some .unsupported
  /-- R29: `I_OUT_LEN` is `OUTLEN` in `DONE`, else 0. -/
  outLen : u.outLen = if u.phase = .done then u.outlen else 0

/-- The U-unit's invariant. -/
structure UUnit.Inv (u : UUnit) : Prop where
  notRestarted : u.start = true → u.busy = false
  /-- R301, R36: a run has a legal geometry, and a scanline is next only for `ROW < HEIGHT`. -/
  geometry : u.busy = true →
    u.bppLegal = true ∧ u.stride = u.width.toNat * u.bpp.toNat ∧ u.row < u.height.toNat
  /-- R36: `FT` is a byte. -/
  ft : u.ft ≤ 255
  /-- R36: `COL` is at most `STRIDE`. -/
  col : u.busy = true → 0 < u.row → u.col ≤ u.stride
  errKind : u.errKind.isSome = true ↔ u.phase = .error
  /-- R340: the U-unit never raises `HuffmanDecodeError`. -/
  errCause : u.errKind ≠ some .huffman
  /-- R30: `U_ROWS_LEN` is 0 unless `DONE`. -/
  rowsLen : u.phase ≠ .done → u.rowsLen = 0

/-- The four spaces are in canonical form. -/
structure State.MemoryCanonical (s : State) : Prop where
  inp : s.i.inp.wf
  out : s.i.out.wf
  raw : s.u.raw.wf
  rows : s.u.rows.wf

/-- R77, R370, R394: while a chained run reads `OUT`, or is about to, the I-unit rests in `DONE`. -/
def State.ChainSound (s : State) : Prop :=
  s.u.usesOut = true → s.i.phase = .done ∧ s.i.start = false

/-- The block's invariant. -/
structure State.Inv (s : State) : Prop where
  i : s.i.Inv
  u : s.u.Inv
  chain : s.ChainSound

/-- The state is inside the buffers of an implementation with the bounds `b` (R8): R22 covers such an implementation
"only for runs that stay inside those bounds". -/
def State.within (b : Bounds) (s : State) : Prop :=
  (∀ m ∈ b.inMax, s.i.inLen ≤ m) ∧ (∀ m ∈ b.outMax, s.i.outlen ≤ m)

/-- Only the I-unit has something to do. -/
def State.iAlone (s : State) : Prop := s.iReady = true ∧ s.uReady = false

/-- Only the U-unit has something to do. -/
def State.uAlone (s : State) : Prop := s.iReady = false ∧ s.uReady = true

/-- Two I-units are about to run on the same inputs (R14, R382): `IN` up to `IN_LEN`, `IN_LEN` and the two parameters. -/
def IUnit.sameInputs (x y : IUnit) : Prop :=
  x.inLen = y.inLen ∧ x.nlenCheck = y.nlenCheck ∧ x.strictPeek = y.strictPeek ∧
    ∀ a < x.inLen, x.inp.read a = y.inp.read a

/-- The host reads the same from two I-units (R29, R362): the status, the error kind, the length, and in `DONE` every
byte below it. -/
def IUnit.sameResult (x y : IUnit) : Prop :=
  x.status = y.status ∧ x.errKind = y.errKind ∧ x.outLen = y.outLen ∧
    (x.phase = .done → ∀ a < x.outLen, x.out.read a = y.out.read a)

/-! ## The words of the claims -/

/-- The next `len` stream bits are in the buffer and spell `code`, its most significant bit first (R63). -/
def IUnit.spells (len code : Nat) (u : IUnit) : Prop :=
  u.bitpos + len ≤ 8 * u.inLen ∧ ∀ j < len, u.inBit (u.bitpos + j) = code / 2 ^ (len - 1 - j) % 2

/-- The bytes appended at `OUTLEN`: `t` is `u` with `n` bytes more, byte `k` of them being `b k`, and every other
address of `OUT` as it was (R65). -/
def IUnit.Appended (n : Nat) (b : Nat → Byte) (u t : IUnit) : Prop :=
  t = { u with out := t.out, outlen := u.outlen + n } ∧
    ∀ a, t.out.read a = if u.outlen ≤ a ∧ a < u.outlen + n then b (a - u.outlen) else u.out.read a

/-- The copy of a match (R293): `n` bytes appended, the `d` bytes before the match repeated cyclically. -/
def IUnit.Copied (n d : Nat) (u t : IUnit) : Prop :=
  IUnit.Appended n (fun k => u.out.read (u.outlen - d + k % d)) u t

/-- The end of a block (R183), written out. -/
def IUnit.blockEnded (u : IUnit) : IUnit :=
  { u with phase := if u.bfinal then .done else .hdr, outLen := if u.bfinal then u.outlen else u.outLen }

/-- A header element (R190, R193) that fails: the run is over in `ERROR` with the kind and no output length (R350); the
cursor has not moved back, output bytes have only been appended, and outside the header's own registers nothing changed. -/
def IUnit.HeaderFailed (k : ErrKind) (u t : IUnit) : Prop :=
  t = { u with
    phase := .error, errKind := some k, outLen := 0, bitpos := t.bitpos, outlen := t.outlen, slen := t.slen,
    snlen := t.snlen, hlit := t.hlit, hdist := t.hdist, hclen := t.hclen, cllen := t.cllen, out := t.out } ∧
    u.bitpos ≤ t.bitpos ∧ u.outlen ≤ t.outlen ∧
    ∀ a, t.out.read a ≠ u.out.read a → u.outlen ≤ a ∧ a < t.outlen

/-- The end of a code-length element (R194), written out: when all `HLIT + HDIST` lengths are there, the
literal/length table and then the distance table are built from them, or the first that cannot be raises. -/
def IUnit.lengthsClosed (u : IUnit) : IUnit :=
  if u.lidx = u.hlit + u.hdist then
    match build (u.llen.take u.hlit) with
    | none => u.raise .format
    | some lt =>
      match build ((u.llen.drop u.hlit).take u.hdist) with
      | none => { u with ltab := lt }.raise .format
      | some dt => { u with ltab := lt, dtab := dt, phase := .body }
  else u

/-- `rep` lengths of value `v` in `LLEN` from `LIDX` on (R195-R198). -/
def IUnit.lengthsAdded (rep v : Nat) (u : IUnit) : IUnit :=
  { u with llen := u.llen.take u.lidx ++ List.replicate rep v ++ u.llen.drop (u.lidx + rep), lidx := u.lidx + rep }

/-- A repeat symbol (R196-R198) written out: `n` extra bits over `base` copies of `v`, truncated where the bits are
missing, and a format error past `HLIT + HDIST`. -/
def IUnit.repeated (base n v : Nat) (u : IUnit) : IUnit :=
  if 8 * u.inLen < u.bitpos + n then u.raise .truncated
  else
    let rep := base + bitField u.inBit n u.bitpos
    let u := u.seek (u.bitpos + n)
    if u.hlit + u.hdist < u.lidx + rep then u.raise .format else (u.lengthsAdded rep v).lengthsClosed

/-- A length symbol of base `base` and `extra` extra bits, up to its distance code (R223, first line). -/
def IUnit.lengthRead (sym base extra : Nat) (u : IUnit) : IUnit :=
  { u with sym := sym, mlen := base + bitField u.inBit extra u.bitpos, bitpos := u.bitpos + extra }

/-- A distance symbol of base `base` and `extra` extra bits, up to its check (R260). -/
def IUnit.distanceRead (dsym base extra : Nat) (u : IUnit) : IUnit :=
  { u with dsym := dsym, mdist := base + bitField u.inBit extra u.bitpos, bitpos := u.bitpos + extra }

/-- The length element `i` of symbol `sym`, base `base` and `extra` extra bits (R223): truncated where its extra bits are
missing; and where they are there, a distance code of a symbol below 30 follows with its extra bits, and the distance
reaches no further than `OUT[0]`, the match is appended and nothing else changes. -/
def LengthRuns (i : Instr) (sym base extra : Nat) : Prop :=
  (∀ s : State, 0 < extra → 8 * s.i.inLen < s.i.bitpos + extra →
    exec i s = .next { s with i := { s.i with sym := sym }.raise .truncated }) ∧
  ∀ (s : State) (d : Nat) (w : IUnit), s.i.out.wf →
    s.i.bitpos + extra ≤ 8 * s.i.inLen →
    decodeSym s.i.dtab (s.i.lengthRead sym base extra) = .ok d w → d < 30 →
    w.bitpos + dextra.getD d 0 ≤ 8 * s.i.inLen →
    dbase.getD d 0 + bitField s.i.inBit (dextra.getD d 0) w.bitpos ≤ s.i.outlen →
    ∃ t, exec i s = .next { s with i := t } ∧
      IUnit.Copied (base + bitField s.i.inBit extra s.i.bitpos)
        (dbase.getD d 0 + bitField s.i.inBit (dextra.getD d 0) w.bitpos)
        (((s.i.lengthRead sym base extra).seek w.bitpos).distanceRead d (dbase.getD d 0) (dextra.getD d 0)) t

/-- The distance element `i` of symbol `d`, base `base` and `extra` extra bits, inside a match (R260): it is truncated
where its extra bits are missing, a format error where the distance reaches before `OUT[0]`, and else copies. -/
def DistanceRuns (i : Instr) (d base extra : Nat) : Prop :=
  ∀ s : State, s.i.out.wf →
    let m := base + bitField s.i.inBit extra s.i.bitpos
    if 0 < extra ∧ 8 * s.i.inLen < s.i.bitpos + extra then
      exec i s = .next { s with i := { s.i with dsym := d }.raise .truncated }
    else if s.i.outlen < m then
      exec i s = .next { s with i := (s.i.distanceRead d base extra).raise .format }
    else ∃ t, exec i s = .next { s with i := t } ∧
      IUnit.Copied s.i.mlen m (s.i.distanceRead d base extra) t

/-- The filter element `i` with selector `ft` and predictor `pred` runs (R303-R305): every byte of row `ROW` is the
filtered byte plus the prediction from the row's own reconstructed bytes and those above it, modulo 256; no other byte of
`ROWS` changes; the next scanline follows, or after the last the run is done (R300). What `COL` holds after the row is left
open, as R303 leaves it. -/
def FilterRuns (i : Instr) (ft : Nat) (pred : UUnit → Nat → Nat) : Prop :=
  ∀ s : State, s.u.rows.wf → s.u.bppLegal = true →
    ∃ t : UUnit, exec i s = .next { s with u := t } ∧
      t = { s.u with
        ft := ft, col := t.col, row := s.u.row + 1, rows := t.rows,
        phase := if s.u.row + 1 < s.u.height.toNat then s.u.phase else .done,
        rowsLen := if s.u.row + 1 < s.u.height.toNat then s.u.rowsLen else s.u.height.toNat * s.u.stride } ∧
      ∀ a, t.rows.read a =
        if s.u.row * s.u.stride ≤ a ∧ a < (s.u.row + 1) * s.u.stride then
          BitVec.ofNat 8 ((s.rawSpace.read (s.u.row * (1 + s.u.stride) + 1 + (a - s.u.row * s.u.stride))).toNat
            + pred { s.u with rows := t.rows } (a - s.u.row * s.u.stride))
        else s.u.rows.read a

/-- The prediction for byte `k` of row `r` of an image with the given bytes (R304, R306-R310). -/
def imagePrediction (o : Nat → Byte) (bpp stride ft r k : Nat) : Nat :=
  predictor ft (if bpp ≤ k then (o (r * stride + k - bpp)).toNat else 0)
    (if 1 ≤ r then (o ((r - 1) * stride + k)).toNat else 0)
    (if 1 ≤ r ∧ bpp ≤ k then (o ((r - 1) * stride + k - bpp)).toNat else 0)

/-- `RAW` holds the scanlines of the image `o`, each filtered by a selector of its own up to 4 (R66, R315). -/
def Memory.Filtered (raw : Memory) (o : Nat → Byte) (bpp stride height : Nat) : Prop :=
  ∀ r < height, (raw.read (r * (1 + stride))).toNat ≤ 4 ∧ ∀ k < stride,
    raw.read (r * (1 + stride) + 1 + k) =
      o (r * stride + k) - BitVec.ofNat 8 (imagePrediction o bpp stride (raw.read (r * (1 + stride))).toNat r k)

/-- `n` steps of the block. -/
def State.afterSteps : Nat → State → Host.Outcome State Fault Refusal
  | 0, s => .next s
  | n + 1, s =>
    match step s with
    | .next t => State.afterSteps n t
    | .fault f => .fault f
    | .refused r => .refused r

end Sys2Proof.Machine
end

