-- ==== Sys2Proof/Certificates/Slice0/Obligations.lean ====
section
/-! DEFINITION. The statements about the block: its encoding, the Bit Reader, Huffman decoding, every stream element with
its frame, the scanline filters, the host's side, and the whole machine. -/

open Sys2Proof Sys2Proof.Machine

/-! ## Encoding (spec/30_encoding.md) -/

/-- A field value decodes to an element exactly when it is the word of that element and the element is well formed: the
decoder and the encoder are inverse to each other on every format, every value and every operand (R101, R102, R105,
R106, R108, R112). -/
def Obligations.DecodeInvertsEncode : Prop :=
  ∀ (f : Format) (v : Nat) (i : Instr), decode f v = .ok i ↔ i.wf = true ∧ encode i = (f, v)

/-- R112: every value the selecting field can take decodes, the decoded element's row of the opcode table selects that
value, and no other row of the format does. -/
def Obligations.ExactlyOneOpcodeRowSelectsEachValue : Prop :=
  ∀ (f : Format) (v : Nat),
    v < (match f with | .bh => 8 | .cl => 19 | .ll => 288 | .ds => 32 | .fs => 256) →
    ∃ i r, decode f v = .ok i ∧ r ∈ opcodeTable ∧ r.format = f ∧ r.mnemonic = i.mnemonic ∧ r.selects v = true ∧
      ∀ q ∈ opcodeTable, q.format = f → q.selects v = true → q = r

/-- Words written out from the encoding tables of spec/30_encoding.md decode to the elements they stand for. -/
def Obligations.WordsOfEachFormatDecode : Prop :=
  decode .bh 0b011 = .ok (.fixed true) ∧ decode .bh 0b100 = .ok (.dynamic false) ∧ decode .cl 15 = .ok (.cllit 15) ∧
    decode .cl 16 = .ok .cl16 ∧ decode .ll 97 = .ok (.lit 97) ∧ decode .ll 256 = .ok .eob ∧
    decode .ll 285 = .ok .len285 ∧ decode .ll 286 = .ok (.rsvl 286) ∧ decode .ds 29 = .ok .dist29 ∧
    decode .ds 30 = .ok (.rsvd 30) ∧ decode .fs 4 = .ok .filterPaeth ∧ decode .fs 5 = .ok (.rsvf 5) ∧
    decode .ll 288 = .error (.noLitLenSymbol 288)

/-- R107: where the next stream bits spell the fixed code of a symbol, most significant bit first, the fixed tables decode
that symbol and the cursor moves past the code. The tail of the buffer is covered (R161): fewer than `maxbits` bits may
be left when `STRICT_PEEK` is 0. -/
def Obligations.FixedCodesDecodeToTheirSymbols : Prop :=
  (∀ (u : IUnit) (sym len code : Nat),
    (sym ≤ 143 ∧ len = 8 ∧ code = 48 + sym ∨
      144 ≤ sym ∧ sym ≤ 255 ∧ len = 9 ∧ code = 400 + (sym - 144) ∨
      256 ≤ sym ∧ sym ≤ 279 ∧ len = 7 ∧ code = sym - 256 ∨
      280 ≤ sym ∧ sym ≤ 287 ∧ len = 8 ∧ code = 192 + (sym - 280)) →
    u.spells len code → (u.strictPeek = false ∨ 9 ≤ u.avail) →
    decodeSym fixedLTab u = .ok sym (u.seek (u.bitpos + len))) ∧
  ∀ (u : IUnit) (d : Nat), d ≤ 31 → u.spells 5 d → decodeSym fixedDTab u = .ok d (u.seek (u.bitpos + 5))

/-! ## The Bit Reader (spec/40_bit_reader.md) -/

/-- R130: `READ(n)` returns the number whose bit `i` is the `i`-th stream bit from the cursor and moves the cursor past
them, or raises `TruncatedStreamError`, the cursor unmoved, exactly when fewer than `n` bits remain. -/
def Obligations.ReadReturnsTheNextBits : Prop :=
  ∀ (u : IUnit) (n : Nat), 1 ≤ n → n ≤ 32 →
    if 8 * u.inLen < u.bitpos + n then readBits n u = .raised (u.raise .truncated)
    else readBits n u =
      .ok (∑ i ∈ Finset.range n, u.inBit (u.bitpos + i) * 2 ^ i) { u with bitpos := u.bitpos + n }

/-- R131: `PEEK(n)` is the number of the next `n` stream bits, those beyond the end of the buffer being 0. -/
def Obligations.PeekPadsWithZeros : Prop :=
  ∀ (u : IUnit) (n : Nat), peekBits n u =
    ∑ i ∈ Finset.range n, (if u.bitpos + i < 8 * u.inLen then u.inBit (u.bitpos + i) else 0) * 2 ^ i

/-- R132 to R135: `SKIP`, `UNREAD` after a `READ`, `ALIGN` and `READ_EXTRA`. -/
def Obligations.SkipUnreadAlignAndReadExtra : Prop :=
  (∀ (u : IUnit) (n : Nat), u.bitpos + n ≤ 8 * u.inLen →
    skipBits n u = .ok () { u with bitpos := u.bitpos + n }) ∧
  (∀ (u w : IUnit) (m n v : Nat), readBits m u = .ok v w → n ≤ m → n ≤ 14 →
    unreadBits n w = .ok () { u with bitpos := u.bitpos + m - n }) ∧
  (∀ u : IUnit, alignCursor u = { u with bitpos := 8 * ((u.bitpos + 7) / 8) } ∧
    (u.bitpos ≤ 8 * u.inLen → (alignCursor u).bitpos ≤ 8 * u.inLen) ∧
    (u.bitpos % 8 = 0 → (alignCursor u).bitpos = u.bitpos)) ∧
  ∀ u : IUnit, readExtra 0 u = .ok 0 u ∧ ∀ n, 1 ≤ n → readExtra n u = readBits n u

/-- R136 (a), (b), (c), (e): a field splits into two, a look-ahead followed by a skip is a read, a shorter look-ahead is
the low bits of a longer one, and a read raises exactly when it asks for more than `AVAIL` bits. -/
def Obligations.BitReaderLaws : Prop :=
  (∀ (u : IUnit) (a b : Nat), 1 ≤ a → 1 ≤ b → a + b ≤ 32 → u.bitpos + a + b ≤ 8 * u.inLen →
    ∃ x y, readBits a u = .ok x (u.seek (u.bitpos + a)) ∧
      readBits b (u.seek (u.bitpos + a)) = .ok y (u.seek (u.bitpos + a + b)) ∧
      readBits (a + b) u = .ok (x + 2 ^ a * y) (u.seek (u.bitpos + a + b))) ∧
  (∀ (u : IUnit) (n len : Nat), 1 ≤ n → n ≤ 32 → u.bitpos + n ≤ 8 * u.inLen → len ≤ n → n - len ≤ 14 →
    readBits n u = .ok (peekBits n u) (u.seek (u.bitpos + n)) ∧
      unreadBits (n - len) (u.seek (u.bitpos + n)) = skipBits len u) ∧
  (∀ (u : IUnit) (m n : Nat), m ≤ n → peekBits m u = peekBits n u % 2 ^ m) ∧
  ∀ (u : IUnit) (n : Nat), 1 ≤ n → n ≤ 32 → u.bitpos ≤ 8 * u.inLen →
    ((∃ w, readBits n u = .raised w) ↔ u.avail < n)

/-! ## Huffman tables (spec/41_huffman.md) -/

/-- R152: the canonical codes. `next` of a length follows the recurrence from the counts of the shorter lengths, and a
symbol's code is `next` of its length plus the number of earlier symbols of that length; unused symbols have none. -/
def Obligations.CanonicalCodeAssignment : Prop :=
  ∀ lens : List Nat,
    (firstCode lens 0 = 0 ∧
      ∀ b, firstCode lens (b + 1) = (firstCode lens b + if b = 0 then 0 else lens.count b) * 2) ∧
    ∀ c : CodeWord, c ∈ assign lens ↔
      lens[c.sym]? = some c.len ∧ c.len ≠ 0 ∧ c.code = firstCode lens c.len + (lens.take c.sym).count c.len

/-- R153: `BUILD` raises `FormatError` exactly when the used lengths ask for more codes than there are, the sum of
`2^(maxbits - length)` over the used symbols exceeding `2^maxbits`. -/
def Obligations.BuildRefusesOversubscribedLengths : Prop :=
  ∀ (lens : List Nat) (u : IUnit),
    let m := lens.foldr max 0
    if 2 ^ m < ((lens.filter (· ≠ 0)).map fun l => 2 ^ (m - l)).sum then
      buildTable lens u = .raised (u.raise .format)
    else ∃ t, buildTable lens u = .ok t u ∧ t.maxbits = m ∧ t.entry.length = 2 ^ m

/-- R163 with R161 and R162: what `DECODE` computes, without the table. With the table built from `lens`, the next stream
bits that spell the canonical code of a symbol decode to it, the cursor moving past the code; where they spell no code the
error is `TruncatedStreamError` if fewer than `maxbits` bits are left and else `HuffmanDecodeError`; and under
`STRICT_PEEK` fewer than `maxbits` bits are `TruncatedStreamError` at once. -/
def Obligations.DecodeReadsTheCanonicalCode : Prop :=
  ∀ (lens : List Nat) (t : Table) (u : IUnit), build lens = some t → u.bitpos ≤ 8 * u.inLen →
    if u.strictPeek = true ∧ u.avail < t.maxbits then decodeSym t u = .raised (u.raise .truncated)
    else
      (∀ c ∈ assign lens, u.spells c.len c.code → decodeSym t u = .ok c.sym (u.seek (u.bitpos + c.len))) ∧
      ((∀ c ∈ assign lens, ¬ u.spells c.len c.code) →
        decodeSym t u = .raised (u.raise (if u.avail < t.maxbits then .truncated else .huffman)))

/-- R165: what `BUILD` makes of the fixed lengths, entry by entry. -/
def Obligations.FixedTablesInClosedForm : Prop :=
  (∃ t, build fixl = some t ∧ t.maxbits = 9 ∧ t.entry.length = 512 ∧ ∀ idx < 512,
    t.lookup idx = some (let r := rev idx 9
      if r / 4 ≤ 23 then ⟨256 + r / 4, 7⟩
      else if r / 2 ≤ 191 then ⟨r / 2 - 48, 8⟩
      else if r / 2 ≤ 199 then ⟨280 + (r / 2 - 192), 8⟩
      else ⟨144 + (r - 400), 9⟩)) ∧
  ∃ t, build fixd = some t ∧ t.maxbits = 5 ∧ t.entry.length = 32 ∧ ∀ idx < 32, t.lookup idx = some ⟨rev idx 5, 5⟩

/-- R166: the three worked examples of `BUILD`: the counts, the starting codes and the sum of the first, the codes and the
table of each. -/
def Obligations.BuildWorkedExamples : Prop :=
  [2, 3, 4].map (lenCount [3, 3, 3, 3, 3, 2, 4, 4]) = [1, 5, 2] ∧
  [1, 2, 3, 4].map (firstCode [3, 3, 3, 3, 3, 2, 4, 4]) = [0, 0, 2, 14] ∧ kraft [3, 3, 3, 3, 3, 2, 4, 4] = 16 ∧
  build [3, 3, 3, 3, 3, 2, 4, 4] = some ⟨4,
    [some ⟨5, 2⟩, some ⟨2, 3⟩, some ⟨0, 3⟩, some ⟨4, 3⟩, some ⟨5, 2⟩, some ⟨3, 3⟩, some ⟨1, 3⟩, some ⟨6, 4⟩,
     some ⟨5, 2⟩, some ⟨2, 3⟩, some ⟨0, 3⟩, some ⟨4, 3⟩, some ⟨5, 2⟩, some ⟨3, 3⟩, some ⟨1, 3⟩, some ⟨7, 4⟩]⟩ ∧
  build [2, 1, 3, 3] = some ⟨3,
    [some ⟨1, 1⟩, some ⟨0, 2⟩, some ⟨1, 1⟩, some ⟨2, 3⟩, some ⟨1, 1⟩, some ⟨0, 2⟩, some ⟨1, 1⟩, some ⟨3, 3⟩]⟩ ∧
  build [0, 2, 2] = some ⟨2, [some ⟨1, 2⟩, none, some ⟨2, 2⟩, none]⟩ ∧
  (assign [3, 3, 3, 3, 3, 2, 4, 4]).map (fun c => (c.sym, c.code)) =
    [(0, 0b010), (1, 0b011), (2, 0b100), (3, 0b101), (4, 0b110), (5, 0b00), (6, 0b1110), (7, 0b1111)] ∧
  (assign [2, 1, 3, 3]).map (fun c => (c.sym, c.code)) = [(0, 0b10), (1, 0b0), (2, 0b110), (3, 0b111)] ∧
  (assign [0, 2, 2]).map (fun c => (c.sym, c.code)) = [(1, 0b00), (2, 0b01)] ∧ rev 4 3 = 1

/-- R156 and R157: no used symbol gives a table of one empty entry whose every decode raises `HuffmanDecodeError`; one
used symbol gives it the code of zeros, the first entry, and leaves the others empty. -/
def Obligations.EmptyAndSingleCodes : Prop :=
  (∀ n, build (List.replicate n 0) = some ⟨0, [none]⟩) ∧
  (∀ u : IUnit, decodeSym ⟨0, [none]⟩ u = .raised (u.raise .huffman)) ∧
  ∀ m n l, 1 ≤ l → build (List.replicate m 0 ++ [l] ++ List.replicate n 0) =
    some ⟨l, some ⟨m, l⟩ :: List.replicate (2 ^ l - 1) none⟩

/-! ## Blocks and code-length symbols (spec/42_blocks.md) -/

/-- R190: a stored block. The length and its complement are the four bytes from the next byte boundary on; the block is
truncated where they or the data bytes are missing, a format error where `NLEN_CHECK` is on and the complement is wrong,
and else its bytes are appended as they stand, the cursor is past them and the block ends. -/
def Obligations.StoredBlockCopiesItsBytes : Prop :=
  ∀ (s : State) (bfin : Bool), s.i.out.wf →
    let u := { s.i with bfinal := bfin, btype := 0 }
    let a := (u.bitpos + 7) / 8
    let len := (u.inp.read a).toNat + 256 * (u.inp.read (a + 1)).toNat
    let nlen := (u.inp.read (a + 2)).toNat + 256 * (u.inp.read (a + 3)).toNat
    if u.inLen < a + 4 then
      ∃ t, exec (.stored bfin) s = .next { s with i := t } ∧ IUnit.HeaderFailed .truncated u t
    else if u.nlenCheck = true ∧ nlen ≠ len ^^^ 0xFFFF then
      ∃ t, exec (.stored bfin) s = .next { s with i := t } ∧ IUnit.HeaderFailed .format u t
    else if u.inLen < a + 4 + len then
      ∃ t, exec (.stored bfin) s = .next { s with i := t } ∧ IUnit.HeaderFailed .truncated u t
    else
      ∃ t, exec (.stored bfin) s = .next { s with i := t.blockEnded } ∧
        IUnit.Appended len (fun k => u.inp.read (a + 4 + k))
          { u with slen := len, snlen := nlen, bitpos := 8 * (a + 4 + len) } t

/-- R192: a fixed block puts the fixed tables in force and nothing else changes. -/
def Obligations.FixedBlockTakesTheFixedTables : Prop :=
  ∀ (s : State) (bfin : Bool), exec (.fixed bfin) s = .next { s with
    i := { s.i with bfinal := bfin, btype := 1, ltab := fixedLTab, dtab := fixedDTab, phase := .body } }

/-- R193: a dynamic header. Truncated where its 14 bits of counts or its 3-bit lengths are missing; else `CLLEN` holds the
lengths at the places `ORDER` names, zero where none was transmitted, and `CLTAB` is built from it, or a format error. -/
def Obligations.DynamicHeaderBuildsTheCodeLengthCode : Prop :=
  ∀ (s : State) (bfin : Bool), s.i.out.wf →
    let u := { s.i with bfinal := bfin, btype := 2 }
    let hc := bitField u.inBit 4 (u.bitpos + 10) + 4
    if 8 * u.inLen < u.bitpos + 14 + 3 * hc then
      ∃ t, exec (.dynamic bfin) s = .next { s with i := t } ∧ IUnit.HeaderFailed .truncated u t
    else
      ∃ cl : List Nat, cl.length = 19 ∧
        (∀ k < 19, cl.getD (order.getD k 0) 0 = if k < hc then bitField u.inBit 3 (u.bitpos + 14 + 3 * k) else 0) ∧
        match build cl with
        | none => ∃ t, exec (.dynamic bfin) s = .next { s with i := t } ∧ IUnit.HeaderFailed .format u t
        | some ct => exec (.dynamic bfin) s = .next { s with
            i := { u with
              hlit := bitField u.inBit 5 u.bitpos + 257, hdist := bitField u.inBit 5 (u.bitpos + 5) + 1, hclen := hc,
              cllen := cl, cltab := ct, lidx := 0, phase := .clen, bitpos := u.bitpos + 14 + 3 * hc } }

/-- R199: block type 3 raises `FormatError`, whatever `BFINAL` is. -/
def Obligations.InvalidBlockTypeRaises : Prop :=
  ∀ (s : State) (bfin : Bool), exec (.btype3 bfin) s = .next { s with
    i := { s.i with bfinal := bfin, btype := 3, phase := .error, errKind := some .format, outLen := 0 } }

/-- R195 with the end of R194: code-length symbols 0 to 15 write one length, and the last length closes the tables. -/
def Obligations.ExplicitCodeLength : Prop :=
  ∀ (s : State) (len : Nat), len ≤ 15 → s.i.lidx < s.i.llen.length →
    exec (.cllit len) s = .next { s with i := (s.i.lengthsAdded 1 len).lengthsClosed }

/-- R196 with the end of R194: symbol 16 repeats the length before it 3 to 6 times; with no length before it the error is
`FormatError` whatever bits are left (R348). -/
def Obligations.RepeatPreviousLength : Prop :=
  ∀ s : State, s.i.hlit + s.i.hdist ≤ s.i.llen.length →
    exec .cl16 s = .next { s with
      i := if s.i.lidx = 0 then s.i.raise .format else s.i.repeated 3 2 (s.i.llen.getD (s.i.lidx - 1) 0) }

/-- R197 and R198 with the end of R194: symbols 17 and 18 add 3 to 10 and 11 to 138 zero lengths. -/
def Obligations.RepeatZeroLength : Prop :=
  ∀ s : State, s.i.hlit + s.i.hdist ≤ s.i.llen.length →
    exec .cl17 s = .next { s with i := s.i.repeated 3 3 0 } ∧ exec .cl18 s = .next { s with i := s.i.repeated 11 7 0 }

/-! ## Literals, end of block and matches (spec/43_litlen.md, spec/44_distance_copy.md) -/

/-- R221: a literal appends its byte. -/
def Obligations.LiteralAppendsItsByte : Prop :=
  ∀ (s : State) (b : Byte), s.i.out.wf → ∃ t, exec (.lit b) s = .next { s with i := t } ∧
    IUnit.Appended 1 (fun _ => b) { s.i with sym := b.toNat } t

/-- R222 with R183: symbol 256 ends the block, and after the final block the run is done with its output length. -/
def Obligations.EndOfBlockEndsTheBlock : Prop :=
  ∀ s : State, exec .eob s = .next { s with i := { s.i with sym := 256 }.blockEnded }

/-- R224 to R231 and R252: the length symbols without extra bits. -/
def Obligations.LengthsWithoutExtraBits : Prop :=
  LengthRuns .len257 257 3 0 ∧ LengthRuns .len258 258 4 0 ∧ LengthRuns .len259 259 5 0 ∧ LengthRuns .len260 260 6 0 ∧
    LengthRuns .len261 261 7 0 ∧ LengthRuns .len262 262 8 0 ∧ LengthRuns .len263 263 9 0 ∧
    LengthRuns .len264 264 10 0 ∧ LengthRuns .len285 285 258 0

/-- R232 to R243: the length symbols of one, two and three extra bits. -/
def Obligations.LengthsOfOneToThreeExtraBits : Prop :=
  LengthRuns .len265 265 11 1 ∧ LengthRuns .len266 266 13 1 ∧ LengthRuns .len267 267 15 1 ∧
    LengthRuns .len268 268 17 1 ∧ LengthRuns .len269 269 19 2 ∧ LengthRuns .len270 270 23 2 ∧
    LengthRuns .len271 271 27 2 ∧ LengthRuns .len272 272 31 2 ∧ LengthRuns .len273 273 35 3 ∧
    LengthRuns .len274 274 43 3 ∧ LengthRuns .len275 275 51 3 ∧ LengthRuns .len276 276 59 3

/-- R244 to R251: the length symbols of four and five extra bits. -/
def Obligations.LengthsOfFourAndFiveExtraBits : Prop :=
  LengthRuns .len277 277 67 4 ∧ LengthRuns .len278 278 83 4 ∧ LengthRuns .len279 279 99 4 ∧
    LengthRuns .len280 280 115 4 ∧ LengthRuns .len281 281 131 5 ∧ LengthRuns .len282 282 163 5 ∧
    LengthRuns .len283 283 195 5 ∧ LengthRuns .len284 284 227 5

/-- R223, R260, R291, R348: which error a length element reports, in the order of the stream: its own extra bits, the
distance code, a reserved distance symbol, the distance's extra bits, and last a distance before `OUT[0]`. Nothing is
appended. `LBASE`, `LEXTRA`, `DBASE`, `DEXTRA` are the tables of R104 and R105. -/
def Obligations.MatchErrorsInStreamOrder : Prop :=
  ∀ (s : State) (k : Nat) (i : Instr), lenInstrs[k]? = some i →
    let base := lbase.getD k 0
    let extra := lextra.getD k 0
    let u := s.i.lengthRead (257 + k) base extra
    (0 < extra → 8 * s.i.inLen < s.i.bitpos + extra →
      exec i s = .next { s with i := { s.i with sym := 257 + k }.raise .truncated }) ∧
    (s.i.bitpos + extra ≤ 8 * s.i.inLen →
      (∀ w, decodeSym u.dtab u = .raised w → exec i s = .next { s with i := w }) ∧
      ∀ d w, decodeSym u.dtab u = .ok d w →
        (d = 30 ∨ d = 31 → exec i s = .next { s with i := { w with dsym := d }.raise .huffman }) ∧
        (d < 30 →
          (0 < dextra.getD d 0 → 8 * s.i.inLen < w.bitpos + dextra.getD d 0 →
            exec i s = .next { s with i := { w with dsym := d }.raise .truncated }) ∧
          (w.bitpos + dextra.getD d 0 ≤ 8 * s.i.inLen →
            s.i.outlen < dbase.getD d 0 + bitField s.i.inBit (dextra.getD d 0) w.bitpos →
            exec i s = .next { s with
              i := (w.distanceRead d (dbase.getD d 0) (dextra.getD d 0)).raise .format })))

/-- R261 to R272: the distance symbols 0 to 11. -/
def Obligations.DistancesUpTo64 : Prop :=
  DistanceRuns .dist0 0 1 0 ∧ DistanceRuns .dist1 1 2 0 ∧ DistanceRuns .dist2 2 3 0 ∧ DistanceRuns .dist3 3 4 0 ∧
    DistanceRuns .dist4 4 5 1 ∧ DistanceRuns .dist5 5 7 1 ∧ DistanceRuns .dist6 6 9 2 ∧ DistanceRuns .dist7 7 13 2 ∧
    DistanceRuns .dist8 8 17 3 ∧ DistanceRuns .dist9 9 25 3 ∧ DistanceRuns .dist10 10 33 4 ∧
    DistanceRuns .dist11 11 49 4

/-- R273 to R284: the distance symbols 12 to 23. -/
def Obligations.DistancesFrom65To4096 : Prop :=
  DistanceRuns .dist12 12 65 5 ∧ DistanceRuns .dist13 13 97 5 ∧ DistanceRuns .dist14 14 129 6 ∧
    DistanceRuns .dist15 15 193 6 ∧ DistanceRuns .dist16 16 257 7 ∧ DistanceRuns .dist17 17 385 7 ∧
    DistanceRuns .dist18 18 513 8 ∧ DistanceRuns .dist19 19 769 8 ∧ DistanceRuns .dist20 20 1025 9 ∧
    DistanceRuns .dist21 21 1537 9 ∧ DistanceRuns .dist22 22 2049 10 ∧ DistanceRuns .dist23 23 3073 10

/-- R285 to R290: the distance symbols 24 to 29. -/
def Obligations.DistancesFrom4097To32768 : Prop :=
  DistanceRuns .dist24 24 4097 11 ∧ DistanceRuns .dist25 25 6145 11 ∧ DistanceRuns .dist26 26 8193 12 ∧
    DistanceRuns .dist27 27 12289 12 ∧ DistanceRuns .dist28 28 16385 13 ∧ DistanceRuns .dist29 29 24577 13

/-- R223, R260: a length element, once its extra bits are read, runs the distance element that the next distance code
decodes to. `LBASE`, `LEXTRA` are the tables of R104. -/
def Obligations.MatchRunsItsDistanceElement : Prop :=
  ∀ (s : State) (k : Nat) (i : Instr), lenInstrs[k]? = some i →
    (0 < lextra.getD k 0 → s.i.bitpos + lextra.getD k 0 ≤ 8 * s.i.inLen) →
    let u := s.i.lengthRead (257 + k) (lbase.getD k 0) (lextra.getD k 0)
    ∀ (d : Nat) (w : IUnit) (e : Instr), decodeSym u.dtab u = .ok d w → decode .ds d = .ok e →
      exec i s = exec e { s with i := w }

/-- R292, R293, R73: the copy loop appends the `MDIST` bytes before the match, repeated cyclically where the match is
longer than its distance, and rewrites no byte. -/
def Obligations.CopyRepeatsTheBytesBeforeIt : Prop :=
  ∀ (n : Nat) (u : IUnit), u.out.wf → 1 ≤ u.mdist → u.mdist ≤ u.outlen → IUnit.Copied n u.mdist u (copyMatch n u)

/-- R253 and R291: the reserved symbols raise `HuffmanDecodeError` and read no further bit. -/
def Obligations.ReservedSymbolsRaise : Prop :=
  ∀ s : State,
    (∀ sym, sym = 286 ∨ sym = 287 → exec (.rsvl sym) s = .next { s with
      i := { s.i with sym := sym, phase := .error, errKind := some .huffman, outLen := 0 } }) ∧
    ∀ sym, sym = 30 ∨ sym = 31 → exec (.rsvd sym) s = .next { s with
      i := { s.i with dsym := sym, phase := .error, errKind := some .huffman, outLen := 0 } }

/-! ## The scanline unfilter (spec/45_unfilter.md) -/

/-- R306, R307, R308: `NONE` predicts 0; `SUB` the reconstructed byte `BPP` places to the left, 0 for the first `BPP`
bytes of the row; `UP` the byte above, 0 in row 0 (R304). -/
def Obligations.NoneSubAndUpReconstruct : Prop :=
  FilterRuns .filterNone 0 (fun _ _ => 0) ∧
  FilterRuns .filterSub 1 (fun u k =>
    if u.bpp.toNat ≤ k then (u.rows.read (u.row * u.stride + k - u.bpp.toNat)).toNat else 0) ∧
  FilterRuns .filterUp 2 (fun u k => if 1 ≤ u.row then (u.rows.read ((u.row - 1) * u.stride + k)).toNat else 0)

/-- R309: `AVG` predicts the floor of the mean of the left and the upper neighbour (R304), their sum exact. -/
def Obligations.AverageReconstructs : Prop :=
  FilterRuns .filterAvg 3 (fun u k =>
    ((if u.bpp.toNat ≤ k then (u.rows.read (u.row * u.stride + k - u.bpp.toNat)).toNat else 0) +
      (if 1 ≤ u.row then (u.rows.read ((u.row - 1) * u.stride + k)).toNat else 0)) / 2)

/-- R310: `PAETH` predicts the Paeth predictor of the left, the upper and the upper left neighbour (R304). -/
def Obligations.PaethReconstructs : Prop :=
  FilterRuns .filterPaeth 4 (fun u k => paeth
    (if u.bpp.toNat ≤ k then (u.rows.read (u.row * u.stride + k - u.bpp.toNat)).toNat else 0)
    (if 1 ≤ u.row then (u.rows.read ((u.row - 1) * u.stride + k)).toNat else 0)
    (if 1 ≤ u.row ∧ u.bpp.toNat ≤ k then
      (u.rows.read ((u.row - 1) * u.stride + k - u.bpp.toNat)).toNat else 0))

/-- R311: a reserved selector raises `FormatError` before any byte is reconstructed. -/
def Obligations.ReservedSelectorRaises : Prop :=
  ∀ (s : State) (ft : Nat), 5 ≤ ft → ft ≤ 255 → exec (.rsvf ft) s = .next { s with
    u := { s.u with ft := ft, phase := .error, errKind := some .format, rowsLen := 0 } }

/-- R312: the Paeth predictor is the one of `a`, `b`, `c` nearest to `a + b - c`; ties favour `a`, then `b`. -/
def Obligations.PaethPicksTheNearest : Prop :=
  ∀ a b c : Nat,
    let p : Int := (a : Int) + b - c
    let r := paeth a b c
    (r = a ∨ r = b ∨ r = c) ∧ |p - r| ≤ |p - a| ∧ |p - r| ≤ |p - b| ∧ |p - r| ≤ |p - c| ∧
      (|p - a| = |p - r| → r = a) ∧ (|p - a| ≠ |p - r| → |p - b| = |p - r| → r = b)

/-- R314 (a), (b) and R312: the Paeth predictor is symmetric in its first two arguments, is `a` where `b = c`, and is `b`
where `a = c`. -/
def Obligations.PaethIsSymmetricAndReduces : Prop :=
  ∀ a b c : Nat, paeth a b c = paeth b a c ∧ paeth a b b = a ∧ paeth a b a = b

/-- R315: unfiltering a whole image. Whatever the image and whatever selector each scanline was filtered with, a run over
the filtered scanlines ends in `DONE` with the image in `ROWS`. -/
def Obligations.UnfilterRestoresTheImage : Prop :=
  ∀ (s : State) (o : Nat → Byte), s.uAlone → s.u.start = false → s.u.busy = true → s.u.row = 0 → s.u.rows.wf →
    s.u.bppLegal = true → s.u.stride = s.u.width.toNat * s.u.bpp.toNat → 0 < s.u.height.toNat →
    s.u.height.toNat * (1 + s.u.stride) ≤ s.rawLen →
    s.rawSpace.Filtered o s.u.bpp.toNat s.u.stride s.u.height.toNat →
    ∃ t, s.afterSteps s.u.height.toNat = .next t ∧ t.u.phase = .done ∧
      t.u.rowsLen = s.u.height.toNat * s.u.width.toNat * s.u.bpp.toNat ∧
      ∀ k < t.u.rowsLen, t.u.rows.read k = o k

/-- R300, R301: `U_CMD.START` clears the status, checks `BPP` and starts at row 0; an image of no rows is done at once,
and an illegal `BPP` raises `UnsupportedFeatureError`. The rest is the model's: that the pending command is a bit which the
step takes and clears (assumption 4), and that `chained` holds its `CHAIN` for the run (assumption 13). -/
def Obligations.UnfilterStartChecksTheGeometry : Prop :=
  ∀ s : State, s.uAlone → s.u.start = true → s.u.busy = false → (s.u.chainCmd = true → s.i.phase = .done) →
    let v := { s.u with
      start := false, chainCmd := false, chained := s.u.chainCmd, errKind := none, rowsLen := 0 }
    step s = .next { s with
      u := if 1 ≤ s.u.bpp.toNat ∧ s.u.bpp.toNat ≤ 4 then
          { v with
            stride := s.u.width.toNat * s.u.bpp.toNat, row := 0,
            phase := if 0 < s.u.height.toNat then .rowHdr else .done }
        else { v with phase := .error, errKind := some .unsupported } }

/-! ## Reset, errors and the host (spec/10_state.md, spec/60_exceptions.md, spec/70_reset_and_hazards.md) -/

/-- R38: the values the spec gives the machine after hardware reset, and the effect of `I_CMD.START`. That the pending
command is a bit which the step takes and clears is the model's (assumption 4). -/
def Obligations.ResetValuesAndStart : Prop :=
  (State.reset.i.phase = .idle ∧ State.reset.u.phase = .idle ∧ State.reset.i.status = 0 ∧
    State.reset.i.errKind = none ∧ State.reset.i.outLen = 0 ∧ State.reset.i.strictPeek = false ∧
    State.reset.u.status = 0 ∧ State.reset.u.errKind = none ∧ State.reset.u.rowsLen = 0) ∧
  ∀ s : State, s.iAlone → s.i.start = true → s.i.busy = false → s.u.usesOut = false →
    step s = .next { s with
      i := { s.i with start := false, bitpos := 0, outlen := 0, phase := .hdr, errKind := none, outLen := 0 } }

/-- R380: hardware reset in any state, a run included, leaves both units idle with no error and zero result lengths and
`STRICT_PEEK` 0. -/
def Obligations.HardwareResetInAnyState : Prop :=
  ∀ s : State, ∃ t, hostAct .hardReset s = .next t ∧ t.i.phase = .idle ∧ t.u.phase = .idle ∧ t.i.errKind = none ∧
    t.u.errKind = none ∧ t.i.outLen = 0 ∧ t.u.rowsLen = 0 ∧ t.i.strictPeek = false ∧
    t.iReady = false ∧ t.uReady = false

/-- R341, R29, R30, R362: what the host reads of an outcome. The status of a unit is 0 idle, 1 busy, 2 done, 3 error; the
error kinds are numbered 1 to 4 and 0 is none; in `DONE` the result is read up to its length. From the write of `START` on
(R38, R300) the status is busy, the error kind none and the length 0. -/
def Obligations.HostReadsStatusAndErrorKind : Prop :=
  let code (k : Option ErrKind) : Nat := match k with
    | none => 0 | some .format => 1 | some .unsupported => 2 | some .truncated => 3 | some .huffman => 4
  ∀ s : State,
    (s.i.start = false →
      hostRead .iStatus s =
        (match s.i.phase with | .idle => 0 | .hdr => 1 | .clen => 1 | .body => 1 | .done => 2 | .error => 3) ∧
      hostRead .iErrKind s = code s.i.errKind ∧ hostRead .iOutLen s = s.i.outLen ∧
      (s.i.phase = .done → ∀ a < s.i.outLen, hostReadOut a s = s.i.out.read a)) ∧
    (s.u.start = false →
      hostRead .uStatus s = (match s.u.phase with | .idle => 0 | .rowHdr => 1 | .done => 2 | .error => 3) ∧
      hostRead .uErrKind s = code s.u.errKind ∧ hostRead .uRowsLen s = s.u.rowsLen ∧
      (s.u.phase = .done → ∀ a < s.u.rowsLen, hostReadRows a s = s.u.rows.read a)) ∧
    (s.i.start = true → hostRead .iStatus s = 1 ∧ hostRead .iErrKind s = 0 ∧ hostRead .iOutLen s = 0) ∧
    (s.u.start = true → hostRead .uStatus s = 1 ∧ hostRead .uErrKind s = 0 ∧ hostRead .uRowsLen s = 0)

/-- R29, R30, R35, R362: what each host write does to an unlocked unit. A configuration register is read back as written,
`I_CFG` with `NLEN_CHECK` in bit 0 and `STRICT_PEEK` in bit 1; a byte of `IN` or `RAW` holds the value written; and nothing
else changes. A write of `START` gives the command (R38, R300): it is then pending until the unit takes it, and a command
register written without `START` does nothing, which two are the model's choices (assumptions 4 and 16). With the buffer
bounds `b` (R8) a length beyond `IN_MAX` is refused (U4, assumption 5). -/
def Obligations.HostWritesAreReadBack : Prop :=
  ∀ s : State, s.MemoryCanonical →
    (s.iLocked = false →
      (∀ a b, ∃ m, hostAct (.writeIn a b) s = .next { s with i := { s.i with inp := m } } ∧
        ∀ x, m.read x = if x = a then b else s.i.inp.read x) ∧
      (∀ n, let t := { s with i := { s.i with inLen := n } }
        hostAct (.writeInLen n) s = .next t ∧ hostRead .iInLen t = n) ∧
      (∀ b n, s.within b →
        ((∀ m ∈ b.inMax, n ≤ m) → hostActWithin b (.writeInLen n) s = .next { s with i := { s.i with inLen := n } }) ∧
        ∀ m ∈ b.inMax, m < n → hostActWithin b (.writeInLen n) s = .refused .overCapacity) ∧
      (∀ nlen strict, let t := { s with i := { s.i with nlenCheck := nlen, strictPeek := strict } }
        hostAct (.writeICfg nlen strict) s = .next t ∧ hostRead .iCfg t = nlen.toNat + 2 * strict.toNat) ∧
      hostAct (.writeICmd true) s = .next { s with i := { s.i with start := true } } ∧
      hostAct (.writeICmd false) s = .next s) ∧
    (s.uLocked = false →
      (∀ a b, ∃ m, hostAct (.writeRaw a b) s = .next { s with u := { s.u with raw := m } } ∧
        ∀ x, m.read x = if x = a then b else s.u.raw.read x) ∧
      (∀ n, let t := { s with u := { s.u with rawLen := n } }
        hostAct (.writeRawLen n) s = .next t ∧ hostRead .uRawLen t = n) ∧
      (∀ w, let t := { s with u := { s.u with width := w } }
        hostAct (.writeWidth w) s = .next t ∧ hostRead .uWidth t = w.toNat) ∧
      (∀ h, let t := { s with u := { s.u with height := h } }
        hostAct (.writeHeight h) s = .next t ∧ hostRead .uHeight t = h.toNat) ∧
      (∀ b, let t := { s with u := { s.u with bpp := b } }
        hostAct (.writeBpp b) s = .next t ∧ hostRead .uBpp t = b.toNat) ∧
      hostAct (.writeUCmd true false) s = .next { s with u := { s.u with start := true, chainCmd := false } } ∧
      ∀ c, hostAct (.writeUCmd false c) s = .next s)

/-- R362, R385, R394 (U1, U2): while a unit is busy, and for the I-unit while a chained run reads its output, no host write
to it has a step. That a command given and not yet taken counts as a run in progress is the model's choice
(assumptions 4 and 16). -/
def Obligations.NoHostWriteWhileBusy : Prop :=
  ∀ s : State,
    (s.i.busy = true ∨ s.i.start = true ∨ s.u.chained = true ∧ s.u.busy = true ∨
        s.u.start = true ∧ s.u.chainCmd = true →
      ∀ a b n nlen strict st, hostAct (.writeIn a b) s = .refused .hostWhileBusy ∧
        hostAct (.writeInLen n) s = .refused .hostWhileBusy ∧
        hostAct (.writeICfg nlen strict) s = .refused .hostWhileBusy ∧
        hostAct (.writeICmd st) s = .refused .hostWhileBusy) ∧
    (s.u.busy = true ∨ s.u.start = true →
      ∀ a b n w h c st, hostAct (.writeRaw a b) s = .refused .hostWhileBusy ∧
        hostAct (.writeRawLen n) s = .refused .hostWhileBusy ∧ hostAct (.writeWidth w) s = .refused .hostWhileBusy ∧
        hostAct (.writeHeight h) s = .refused .hostWhileBusy ∧ hostAct (.writeBpp c) s = .refused .hostWhileBusy ∧
        hostAct (.writeUCmd st false) s = .refused .hostWhileBusy ∧
        hostAct (.writeUCmd false true) s = .refused .hostWhileBusy ∧
        ∃ r, hostAct (.writeUCmd true true) s = .refused r)

/-- R77, R394: a chained start has no step unless the I-unit is `DONE` (and not about to start again); where it is, the run
reads `OUT` up to `I_OUT_LEN`. That the host's write and the unit taking the command are two steps is the model's
(assumption 4), and so is the field `chained` that holds `CHAIN` for the run (assumption 13). -/
def Obligations.ChainedRunReadsTheOutput : Prop :=
  ∀ s : State,
    (s.i.phase ≠ .done ∨ s.i.start = true → hostAct (.writeUCmd true true) s = .refused .chainWithoutResult) ∧
    (s.uLocked = false → s.i.start = false → s.i.phase = .done →
      let t := { s with u := { s.u with start := true, chainCmd := true } }
      hostAct (.writeUCmd true true) s = .next t ∧ ∃ v, step t = .next v ∧
        v.u.chained = true ∧ v.rawSpace = s.i.out ∧ v.rawLen = s.i.outLen ∧ v.i = s.i)

/-! ## The step -/

/-- R180, R181, R200, R300, R303: a step of the unit that is alone ready fetches the selecting field and runs the element
it decodes to. The block header is three bits; a symbol is decoded with the phase's table; a selector is the first byte of
its scanline. -/
def Obligations.StepRunsTheDecodedElement : Prop :=
  (∀ (s : State) (i : Instr), s.iAlone → s.i.start = false → s.i.phase = .hdr → s.i.bitpos + 3 ≤ 8 * s.i.inLen →
    decode .bh (bitField s.i.inBit 3 s.i.bitpos) = .ok i →
    step s = exec i { s with
      i := { s.i with bfinal := s.i.inBit s.i.bitpos == 1, bitpos := s.i.bitpos + 3 } }) ∧
  (∀ (s : State) (v : Nat) (w : IUnit) (i : Instr), s.iAlone → s.i.start = false → s.i.phase = .clen →
    decodeSym s.i.cltab s.i = .ok v w → decode .cl v = .ok i → step s = exec i { s with i := w }) ∧
  (∀ (s : State) (v : Nat) (w : IUnit) (i : Instr), s.iAlone → s.i.start = false → s.i.phase = .body →
    decodeSym s.i.ltab s.i = .ok v w → decode .ll v = .ok i → step s = exec i { s with i := w }) ∧
  ∀ (s : State) (i : Instr), s.uAlone → s.u.start = false → s.u.busy = true → s.u.row < s.u.height.toNat →
    (s.u.row + 1) * (1 + s.u.stride) ≤ s.rawLen →
    decode .fs (s.rawSpace.read (s.u.row * (1 + s.u.stride))).toNat = .ok i → step s = exec i s

/-- R181, R160, R302, R347: a fetch that fails ends the run with its error and no element runs. -/
def Obligations.FailedFetchEndsTheRun : Prop :=
  (∀ s : State, s.iAlone → s.i.start = false → s.i.phase = .hdr → 8 * s.i.inLen < s.i.bitpos + 3 →
    ∃ t : IUnit, step s = .next { s with i := t.raise .truncated } ∧
      t = { s.i with bfinal := t.bfinal, bitpos := t.bitpos }) ∧
  (∀ (s : State) (w : IUnit), s.iAlone → s.i.start = false → s.i.phase = .clen →
    decodeSym s.i.cltab s.i = .raised w → step s = .next { s with i := w }) ∧
  (∀ (s : State) (w : IUnit), s.iAlone → s.i.start = false → s.i.phase = .body →
    decodeSym s.i.ltab s.i = .raised w → step s = .next { s with i := w }) ∧
  ∀ s : State, s.uAlone → s.u.start = false → s.u.busy = true → s.u.row < s.u.height.toNat →
    s.rawLen < (s.u.row + 1) * (1 + s.u.stride) → step s = .next { s with u := s.u.raise .truncated }

/-- With no run in progress and no command given a step changes nothing, whatever phase the units rest in: that the block
has such a step is the model's choice (assumption 6), for a phase which R28, R346 and R352 let only a `START` or a reset
leave. Where both units have something to do the step is a step of one of them and the draw counter advances: that
interleaving too is the model's choice (assumption 8), since no rule orders the units (R370). -/
def Obligations.RestingBlockStaysAndOneUnitStepsAtATime : Prop :=
  (∀ s : State, s.i.start = false → s.u.start = false → s.i.busy = false → s.u.busy = false → step s = .next s) ∧
  ∀ s : State, s.iReady = true → s.uReady = true →
    step s = stepI { s with tick := s.tick + 1 } ∨ step s = stepU { s with tick := s.tick + 1 }

/-- R28: the transitions of `PHASE`, for every step of the I-unit that has something to do. -/
def Obligations.PhaseTransitionsAreThoseOfR28 : Prop :=
  ∀ s t : State, s.iReady = true → stepI s = .next t →
    (s.i.start = true ∧ s.i.phase ∈ [.idle, .done, .error] ∧ t.i.phase = .hdr) ∨
    (s.i.start = false ∧ (s.i.phase, t.i.phase) ∈
      [(Phase.hdr, Phase.hdr), (.hdr, .done), (.hdr, .body), (.hdr, .clen), (.hdr, .error), (.clen, .clen),
       (.clen, .body), (.clen, .error), (.body, .body), (.body, .hdr), (.body, .done), (.body, .error)])

/-- R25, R26: within a run the cursor only moves forward and never passes the end of the buffer; a `START` puts it at
bit 0. -/
def Obligations.CursorMovesForwardInTheBuffer : Prop :=
  ∀ s t : State, stepI s = .next t → s.i.bitpos ≤ 8 * s.i.inLen →
    if s.i.start = true then t.i.bitpos = 0 else s.i.bitpos ≤ t.i.bitpos ∧ t.i.bitpos ≤ 8 * s.i.inLen

/-- R65, R75, R35: a step changes no byte of `OUT` but those it appends; outside a `START` the output never shrinks; and
it changes neither `IN` nor `RAW` nor any register the host writes. R397, R8, R22, U4: it appends at most 65535 bytes; and
in an implementation with the buffer bounds `b` the step is the same where its result is within them, is refused where it
is not, and has a result wherever `IN_LEN` is within `IN_MAX` and 65535 bytes of `OUT_MAX` are left. That it is the
step that would exceed `OUT_MAX` which is refused is the model's choice (assumption 5). -/
def Obligations.StepOnlyAppendsAndNeverWritesInputs : Prop :=
  ∀ s t : State, s.i.out.wf → step s = .next t →
    (∀ a, t.i.out.read a ≠ s.i.out.read a → s.i.outlen ≤ a ∧ a < t.i.outlen) ∧
    (s.i.start = false → s.i.outlen ≤ t.i.outlen) ∧ t.i.outlen ≤ s.i.outlen + 65535 ∧
    (t.i.inp = s.i.inp ∧ t.i.inLen = s.i.inLen ∧ t.i.nlenCheck = s.i.nlenCheck ∧ t.i.strictPeek = s.i.strictPeek) ∧
    (t.u.raw = s.u.raw ∧ t.u.rawLen = s.u.rawLen ∧ t.u.width = s.u.width ∧ t.u.height = s.u.height ∧
      t.u.bpp = s.u.bpp) ∧
    ∀ b : Bounds,
      (t.within b → stepWithin b s = .next t) ∧ (¬ t.within b → stepWithin b s = .refused .overCapacity) ∧
      ((∀ m ∈ b.inMax, s.i.inLen ≤ m) → (∀ m ∈ b.outMax, s.i.outlen + 65535 ≤ m) → stepWithin b s = .next t)

/-- R370: the two units share nothing outside a chained run, so steps of both can be taken in either order with the same
result. -/
def Obligations.UnitsDoNotInterfere : Prop :=
  ∀ s a b : State, s.u.usesOut = false → stepI s = .next a → stepU s = .next b →
    ∃ c, stepU a = .next c ∧ stepI b = .next c

/-! ## The whole machine -/

/-- The four spaces keep their canonical form through every step and every host action, so that equal spaces (R35) are equal
data. The form, and what an unlisted address reads as, are the model's (assumption 3). -/
def Obligations.EveryStepKeepsMemoryCanonical : Prop :=
  (∀ s t : State, s.MemoryCanonical → step s = .next t → t.MemoryCanonical) ∧
  ∀ (a : HostAct) (s t : State), s.MemoryCanonical → hostAct a s = .next t → t.MemoryCanonical

/-- The machine after reset has the block's invariant and canonical spaces. This rests on the values the model gives the
registers the spec leaves unspecified (assumption 1). -/
def Obligations.ResetHasTheInvariant : Prop :=
  State.reset.Inv ∧ State.reset.MemoryCanonical

/-- R12, R21, R26, R28, R29, R30, R31, R32, R36, R340: from every state with the block's invariant (the registers in their
ranges, the cursor in the buffer, the tables of their alphabets, the error kinds of each unit, the lengths reported only in
`DONE`) the step has a next state, and that state has the invariant: no fault, no refusal, no third outcome. -/
def Obligations.StepCompletesAndKeepsTheInvariant : Prop :=
  ∀ s : State, s.Inv → ∃ t, step s = .next t ∧ t.Inv

/-- R29, R30, R362, R380: every host action that has a step keeps the block's invariant. For a reset this rests on the
values the model gives the registers the spec leaves unspecified (assumption 1). -/
def Obligations.HostActionsKeepTheInvariant : Prop :=
  ∀ (a : HostAct) (s t : State), s.Inv → hostAct a s = .next t → t.Inv

/-- R14, R397: every run ends. An I-unit run with `n` stream bits left is in `DONE` or `ERROR` after at most `n + 1` steps,
a U-unit run after at most as many steps as it has rows left. -/
def Obligations.EveryRunEnds : Prop :=
  (∀ s : State, s.Inv → s.i.busy = true → s.uReady = false →
    ∃ t, s.afterSteps (8 * s.i.inLen - s.i.bitpos + 1) = .next t ∧ (t.i.phase = .done ∨ t.i.phase = .error)) ∧
  ∀ s : State, s.Inv → s.u.busy = true → s.iReady = false →
    ∃ t, s.afterSteps (s.u.height.toNat - s.u.row) = .next t ∧ (t.u.phase = .done ∨ t.u.phase = .error)

/-- R14, R382: a run's result is a function of `IN`, `IN_LEN`, `NLEN_CHECK` and `STRICT_PEEK` only. Two machines about to
start on the same of these, whatever else their registers, arrays, tables and output hold, show the host the same status,
error kind, length and result bytes after the same number of steps. -/
def Obligations.RunIsIndependentOfHistory : Prop :=
  ∀ (n : Nat) (x y x' y' : State), x.Inv → y.Inv → x.MemoryCanonical → y.MemoryCanonical →
    x.iAlone → y.iAlone → x.i.start = true → y.i.start = true → x.i.sameInputs y.i → 1 ≤ n →
    x.afterSteps n = .next x' → y.afterSteps n = .next y' → x'.i.sameResult y'.i
end

