-- ==== Sys2Proof/Laws/State.lean ====
section
/-! SUPPORT. One lemma per field per named update of the two units, true by rfl, so that no later proof unfolds a
record update. -/
namespace Sys2Proof.Machine

@[simp] theorem IUnit.seek_start (u : IUnit) (p : Nat) : (u.seek p).start = u.start := rfl
@[simp] theorem IUnit.seek_nlenCheck (u : IUnit) (p : Nat) : (u.seek p).nlenCheck = u.nlenCheck := rfl
@[simp] theorem IUnit.seek_strictPeek (u : IUnit) (p : Nat) : (u.seek p).strictPeek = u.strictPeek := rfl
@[simp] theorem IUnit.seek_inLen (u : IUnit) (p : Nat) : (u.seek p).inLen = u.inLen := rfl
@[simp] theorem IUnit.seek_errKind (u : IUnit) (p : Nat) : (u.seek p).errKind = u.errKind := rfl
@[simp] theorem IUnit.seek_outLen (u : IUnit) (p : Nat) : (u.seek p).outLen = u.outLen := rfl
@[simp] theorem IUnit.seek_phase (u : IUnit) (p : Nat) : (u.seek p).phase = u.phase := rfl
@[simp] theorem IUnit.seek_bitpos (u : IUnit) (p : Nat) : (u.seek p).bitpos = p := rfl
@[simp] theorem IUnit.seek_outlen (u : IUnit) (p : Nat) : (u.seek p).outlen = u.outlen := rfl
@[simp] theorem IUnit.seek_bfinal (u : IUnit) (p : Nat) : (u.seek p).bfinal = u.bfinal := rfl
@[simp] theorem IUnit.seek_btype (u : IUnit) (p : Nat) : (u.seek p).btype = u.btype := rfl
@[simp] theorem IUnit.seek_slen (u : IUnit) (p : Nat) : (u.seek p).slen = u.slen := rfl
@[simp] theorem IUnit.seek_snlen (u : IUnit) (p : Nat) : (u.seek p).snlen = u.snlen := rfl
@[simp] theorem IUnit.seek_hlit (u : IUnit) (p : Nat) : (u.seek p).hlit = u.hlit := rfl
@[simp] theorem IUnit.seek_hdist (u : IUnit) (p : Nat) : (u.seek p).hdist = u.hdist := rfl
@[simp] theorem IUnit.seek_hclen (u : IUnit) (p : Nat) : (u.seek p).hclen = u.hclen := rfl
@[simp] theorem IUnit.seek_lidx (u : IUnit) (p : Nat) : (u.seek p).lidx = u.lidx := rfl
@[simp] theorem IUnit.seek_sym (u : IUnit) (p : Nat) : (u.seek p).sym = u.sym := rfl
@[simp] theorem IUnit.seek_mlen (u : IUnit) (p : Nat) : (u.seek p).mlen = u.mlen := rfl
@[simp] theorem IUnit.seek_dsym (u : IUnit) (p : Nat) : (u.seek p).dsym = u.dsym := rfl
@[simp] theorem IUnit.seek_mdist (u : IUnit) (p : Nat) : (u.seek p).mdist = u.mdist := rfl
@[simp] theorem IUnit.seek_cllen (u : IUnit) (p : Nat) : (u.seek p).cllen = u.cllen := rfl
@[simp] theorem IUnit.seek_llen (u : IUnit) (p : Nat) : (u.seek p).llen = u.llen := rfl
@[simp] theorem IUnit.seek_cltab (u : IUnit) (p : Nat) : (u.seek p).cltab = u.cltab := rfl
@[simp] theorem IUnit.seek_ltab (u : IUnit) (p : Nat) : (u.seek p).ltab = u.ltab := rfl
@[simp] theorem IUnit.seek_dtab (u : IUnit) (p : Nat) : (u.seek p).dtab = u.dtab := rfl
@[simp] theorem IUnit.seek_inp (u : IUnit) (p : Nat) : (u.seek p).inp = u.inp := rfl
@[simp] theorem IUnit.seek_out (u : IUnit) (p : Nat) : (u.seek p).out = u.out := rfl

@[simp] theorem IUnit.raise_start (u : IUnit) (k : ErrKind) : (u.raise k).start = u.start := rfl
@[simp] theorem IUnit.raise_nlenCheck (u : IUnit) (k : ErrKind) : (u.raise k).nlenCheck = u.nlenCheck := rfl
@[simp] theorem IUnit.raise_strictPeek (u : IUnit) (k : ErrKind) : (u.raise k).strictPeek = u.strictPeek := rfl
@[simp] theorem IUnit.raise_inLen (u : IUnit) (k : ErrKind) : (u.raise k).inLen = u.inLen := rfl
@[simp] theorem IUnit.raise_errKind (u : IUnit) (k : ErrKind) : (u.raise k).errKind = some k := rfl
@[simp] theorem IUnit.raise_outLen (u : IUnit) (k : ErrKind) : (u.raise k).outLen = 0 := rfl
@[simp] theorem IUnit.raise_phase (u : IUnit) (k : ErrKind) : (u.raise k).phase = .error := rfl
@[simp] theorem IUnit.raise_bitpos (u : IUnit) (k : ErrKind) : (u.raise k).bitpos = u.bitpos := rfl
@[simp] theorem IUnit.raise_outlen (u : IUnit) (k : ErrKind) : (u.raise k).outlen = u.outlen := rfl
@[simp] theorem IUnit.raise_bfinal (u : IUnit) (k : ErrKind) : (u.raise k).bfinal = u.bfinal := rfl
@[simp] theorem IUnit.raise_btype (u : IUnit) (k : ErrKind) : (u.raise k).btype = u.btype := rfl
@[simp] theorem IUnit.raise_slen (u : IUnit) (k : ErrKind) : (u.raise k).slen = u.slen := rfl
@[simp] theorem IUnit.raise_snlen (u : IUnit) (k : ErrKind) : (u.raise k).snlen = u.snlen := rfl
@[simp] theorem IUnit.raise_hlit (u : IUnit) (k : ErrKind) : (u.raise k).hlit = u.hlit := rfl
@[simp] theorem IUnit.raise_hdist (u : IUnit) (k : ErrKind) : (u.raise k).hdist = u.hdist := rfl
@[simp] theorem IUnit.raise_hclen (u : IUnit) (k : ErrKind) : (u.raise k).hclen = u.hclen := rfl
@[simp] theorem IUnit.raise_lidx (u : IUnit) (k : ErrKind) : (u.raise k).lidx = u.lidx := rfl
@[simp] theorem IUnit.raise_sym (u : IUnit) (k : ErrKind) : (u.raise k).sym = u.sym := rfl
@[simp] theorem IUnit.raise_mlen (u : IUnit) (k : ErrKind) : (u.raise k).mlen = u.mlen := rfl
@[simp] theorem IUnit.raise_dsym (u : IUnit) (k : ErrKind) : (u.raise k).dsym = u.dsym := rfl
@[simp] theorem IUnit.raise_mdist (u : IUnit) (k : ErrKind) : (u.raise k).mdist = u.mdist := rfl
@[simp] theorem IUnit.raise_cllen (u : IUnit) (k : ErrKind) : (u.raise k).cllen = u.cllen := rfl
@[simp] theorem IUnit.raise_llen (u : IUnit) (k : ErrKind) : (u.raise k).llen = u.llen := rfl
@[simp] theorem IUnit.raise_cltab (u : IUnit) (k : ErrKind) : (u.raise k).cltab = u.cltab := rfl
@[simp] theorem IUnit.raise_ltab (u : IUnit) (k : ErrKind) : (u.raise k).ltab = u.ltab := rfl
@[simp] theorem IUnit.raise_dtab (u : IUnit) (k : ErrKind) : (u.raise k).dtab = u.dtab := rfl
@[simp] theorem IUnit.raise_inp (u : IUnit) (k : ErrKind) : (u.raise k).inp = u.inp := rfl
@[simp] theorem IUnit.raise_out (u : IUnit) (k : ErrKind) : (u.raise k).out = u.out := rfl

@[simp] theorem IUnit.append_start (u : IUnit) (b : Byte) : (u.append b).start = u.start := rfl
@[simp] theorem IUnit.append_nlenCheck (u : IUnit) (b : Byte) : (u.append b).nlenCheck = u.nlenCheck := rfl
@[simp] theorem IUnit.append_strictPeek (u : IUnit) (b : Byte) : (u.append b).strictPeek = u.strictPeek := rfl
@[simp] theorem IUnit.append_inLen (u : IUnit) (b : Byte) : (u.append b).inLen = u.inLen := rfl
@[simp] theorem IUnit.append_errKind (u : IUnit) (b : Byte) : (u.append b).errKind = u.errKind := rfl
@[simp] theorem IUnit.append_outLen (u : IUnit) (b : Byte) : (u.append b).outLen = u.outLen := rfl
@[simp] theorem IUnit.append_phase (u : IUnit) (b : Byte) : (u.append b).phase = u.phase := rfl
@[simp] theorem IUnit.append_bitpos (u : IUnit) (b : Byte) : (u.append b).bitpos = u.bitpos := rfl
@[simp] theorem IUnit.append_outlen (u : IUnit) (b : Byte) : (u.append b).outlen = u.outlen + 1 := rfl
@[simp] theorem IUnit.append_bfinal (u : IUnit) (b : Byte) : (u.append b).bfinal = u.bfinal := rfl
@[simp] theorem IUnit.append_btype (u : IUnit) (b : Byte) : (u.append b).btype = u.btype := rfl
@[simp] theorem IUnit.append_slen (u : IUnit) (b : Byte) : (u.append b).slen = u.slen := rfl
@[simp] theorem IUnit.append_snlen (u : IUnit) (b : Byte) : (u.append b).snlen = u.snlen := rfl
@[simp] theorem IUnit.append_hlit (u : IUnit) (b : Byte) : (u.append b).hlit = u.hlit := rfl
@[simp] theorem IUnit.append_hdist (u : IUnit) (b : Byte) : (u.append b).hdist = u.hdist := rfl
@[simp] theorem IUnit.append_hclen (u : IUnit) (b : Byte) : (u.append b).hclen = u.hclen := rfl
@[simp] theorem IUnit.append_lidx (u : IUnit) (b : Byte) : (u.append b).lidx = u.lidx := rfl
@[simp] theorem IUnit.append_sym (u : IUnit) (b : Byte) : (u.append b).sym = u.sym := rfl
@[simp] theorem IUnit.append_mlen (u : IUnit) (b : Byte) : (u.append b).mlen = u.mlen := rfl
@[simp] theorem IUnit.append_dsym (u : IUnit) (b : Byte) : (u.append b).dsym = u.dsym := rfl
@[simp] theorem IUnit.append_mdist (u : IUnit) (b : Byte) : (u.append b).mdist = u.mdist := rfl
@[simp] theorem IUnit.append_cllen (u : IUnit) (b : Byte) : (u.append b).cllen = u.cllen := rfl
@[simp] theorem IUnit.append_llen (u : IUnit) (b : Byte) : (u.append b).llen = u.llen := rfl
@[simp] theorem IUnit.append_cltab (u : IUnit) (b : Byte) : (u.append b).cltab = u.cltab := rfl
@[simp] theorem IUnit.append_ltab (u : IUnit) (b : Byte) : (u.append b).ltab = u.ltab := rfl
@[simp] theorem IUnit.append_dtab (u : IUnit) (b : Byte) : (u.append b).dtab = u.dtab := rfl
@[simp] theorem IUnit.append_inp (u : IUnit) (b : Byte) : (u.append b).inp = u.inp := rfl
@[simp] theorem IUnit.append_out (u : IUnit) (b : Byte) : (u.append b).out = u.out.write u.outlen b := rfl

@[simp] theorem IUnit.setHeader_start (u : IUnit) (f : Bool) (t : Nat) : (u.setHeader f t).start = u.start := rfl
@[simp] theorem IUnit.setHeader_nlenCheck (u : IUnit) (f : Bool) (t : Nat) : (u.setHeader f t).nlenCheck = u.nlenCheck := rfl
@[simp] theorem IUnit.setHeader_strictPeek (u : IUnit) (f : Bool) (t : Nat) : (u.setHeader f t).strictPeek = u.strictPeek := rfl
@[simp] theorem IUnit.setHeader_inLen (u : IUnit) (f : Bool) (t : Nat) : (u.setHeader f t).inLen = u.inLen := rfl
@[simp] theorem IUnit.setHeader_errKind (u : IUnit) (f : Bool) (t : Nat) : (u.setHeader f t).errKind = u.errKind := rfl
@[simp] theorem IUnit.setHeader_outLen (u : IUnit) (f : Bool) (t : Nat) : (u.setHeader f t).outLen = u.outLen := rfl
@[simp] theorem IUnit.setHeader_phase (u : IUnit) (f : Bool) (t : Nat) : (u.setHeader f t).phase = u.phase := rfl
@[simp] theorem IUnit.setHeader_bitpos (u : IUnit) (f : Bool) (t : Nat) : (u.setHeader f t).bitpos = u.bitpos := rfl
@[simp] theorem IUnit.setHeader_outlen (u : IUnit) (f : Bool) (t : Nat) : (u.setHeader f t).outlen = u.outlen := rfl
@[simp] theorem IUnit.setHeader_bfinal (u : IUnit) (f : Bool) (t : Nat) : (u.setHeader f t).bfinal = f := rfl
@[simp] theorem IUnit.setHeader_btype (u : IUnit) (f : Bool) (t : Nat) : (u.setHeader f t).btype = t := rfl
@[simp] theorem IUnit.setHeader_slen (u : IUnit) (f : Bool) (t : Nat) : (u.setHeader f t).slen = u.slen := rfl
@[simp] theorem IUnit.setHeader_snlen (u : IUnit) (f : Bool) (t : Nat) : (u.setHeader f t).snlen = u.snlen := rfl
@[simp] theorem IUnit.setHeader_hlit (u : IUnit) (f : Bool) (t : Nat) : (u.setHeader f t).hlit = u.hlit := rfl
@[simp] theorem IUnit.setHeader_hdist (u : IUnit) (f : Bool) (t : Nat) : (u.setHeader f t).hdist = u.hdist := rfl
@[simp] theorem IUnit.setHeader_hclen (u : IUnit) (f : Bool) (t : Nat) : (u.setHeader f t).hclen = u.hclen := rfl
@[simp] theorem IUnit.setHeader_lidx (u : IUnit) (f : Bool) (t : Nat) : (u.setHeader f t).lidx = u.lidx := rfl
@[simp] theorem IUnit.setHeader_sym (u : IUnit) (f : Bool) (t : Nat) : (u.setHeader f t).sym = u.sym := rfl
@[simp] theorem IUnit.setHeader_mlen (u : IUnit) (f : Bool) (t : Nat) : (u.setHeader f t).mlen = u.mlen := rfl
@[simp] theorem IUnit.setHeader_dsym (u : IUnit) (f : Bool) (t : Nat) : (u.setHeader f t).dsym = u.dsym := rfl
@[simp] theorem IUnit.setHeader_mdist (u : IUnit) (f : Bool) (t : Nat) : (u.setHeader f t).mdist = u.mdist := rfl
@[simp] theorem IUnit.setHeader_cllen (u : IUnit) (f : Bool) (t : Nat) : (u.setHeader f t).cllen = u.cllen := rfl
@[simp] theorem IUnit.setHeader_llen (u : IUnit) (f : Bool) (t : Nat) : (u.setHeader f t).llen = u.llen := rfl
@[simp] theorem IUnit.setHeader_cltab (u : IUnit) (f : Bool) (t : Nat) : (u.setHeader f t).cltab = u.cltab := rfl
@[simp] theorem IUnit.setHeader_ltab (u : IUnit) (f : Bool) (t : Nat) : (u.setHeader f t).ltab = u.ltab := rfl
@[simp] theorem IUnit.setHeader_dtab (u : IUnit) (f : Bool) (t : Nat) : (u.setHeader f t).dtab = u.dtab := rfl
@[simp] theorem IUnit.setHeader_inp (u : IUnit) (f : Bool) (t : Nat) : (u.setHeader f t).inp = u.inp := rfl
@[simp] theorem IUnit.setHeader_out (u : IUnit) (f : Bool) (t : Nat) : (u.setHeader f t).out = u.out := rfl

@[simp] theorem IUnit.setSym_start (u : IUnit) (v : Nat) : (u.setSym v).start = u.start := rfl
@[simp] theorem IUnit.setSym_nlenCheck (u : IUnit) (v : Nat) : (u.setSym v).nlenCheck = u.nlenCheck := rfl
@[simp] theorem IUnit.setSym_strictPeek (u : IUnit) (v : Nat) : (u.setSym v).strictPeek = u.strictPeek := rfl
@[simp] theorem IUnit.setSym_inLen (u : IUnit) (v : Nat) : (u.setSym v).inLen = u.inLen := rfl
@[simp] theorem IUnit.setSym_errKind (u : IUnit) (v : Nat) : (u.setSym v).errKind = u.errKind := rfl
@[simp] theorem IUnit.setSym_outLen (u : IUnit) (v : Nat) : (u.setSym v).outLen = u.outLen := rfl
@[simp] theorem IUnit.setSym_phase (u : IUnit) (v : Nat) : (u.setSym v).phase = u.phase := rfl
@[simp] theorem IUnit.setSym_bitpos (u : IUnit) (v : Nat) : (u.setSym v).bitpos = u.bitpos := rfl
@[simp] theorem IUnit.setSym_outlen (u : IUnit) (v : Nat) : (u.setSym v).outlen = u.outlen := rfl
@[simp] theorem IUnit.setSym_bfinal (u : IUnit) (v : Nat) : (u.setSym v).bfinal = u.bfinal := rfl
@[simp] theorem IUnit.setSym_btype (u : IUnit) (v : Nat) : (u.setSym v).btype = u.btype := rfl
@[simp] theorem IUnit.setSym_slen (u : IUnit) (v : Nat) : (u.setSym v).slen = u.slen := rfl
@[simp] theorem IUnit.setSym_snlen (u : IUnit) (v : Nat) : (u.setSym v).snlen = u.snlen := rfl
@[simp] theorem IUnit.setSym_hlit (u : IUnit) (v : Nat) : (u.setSym v).hlit = u.hlit := rfl
@[simp] theorem IUnit.setSym_hdist (u : IUnit) (v : Nat) : (u.setSym v).hdist = u.hdist := rfl
@[simp] theorem IUnit.setSym_hclen (u : IUnit) (v : Nat) : (u.setSym v).hclen = u.hclen := rfl
@[simp] theorem IUnit.setSym_lidx (u : IUnit) (v : Nat) : (u.setSym v).lidx = u.lidx := rfl
@[simp] theorem IUnit.setSym_sym (u : IUnit) (v : Nat) : (u.setSym v).sym = v := rfl
@[simp] theorem IUnit.setSym_mlen (u : IUnit) (v : Nat) : (u.setSym v).mlen = u.mlen := rfl
@[simp] theorem IUnit.setSym_dsym (u : IUnit) (v : Nat) : (u.setSym v).dsym = u.dsym := rfl
@[simp] theorem IUnit.setSym_mdist (u : IUnit) (v : Nat) : (u.setSym v).mdist = u.mdist := rfl
@[simp] theorem IUnit.setSym_cllen (u : IUnit) (v : Nat) : (u.setSym v).cllen = u.cllen := rfl
@[simp] theorem IUnit.setSym_llen (u : IUnit) (v : Nat) : (u.setSym v).llen = u.llen := rfl
@[simp] theorem IUnit.setSym_cltab (u : IUnit) (v : Nat) : (u.setSym v).cltab = u.cltab := rfl
@[simp] theorem IUnit.setSym_ltab (u : IUnit) (v : Nat) : (u.setSym v).ltab = u.ltab := rfl
@[simp] theorem IUnit.setSym_dtab (u : IUnit) (v : Nat) : (u.setSym v).dtab = u.dtab := rfl
@[simp] theorem IUnit.setSym_inp (u : IUnit) (v : Nat) : (u.setSym v).inp = u.inp := rfl
@[simp] theorem IUnit.setSym_out (u : IUnit) (v : Nat) : (u.setSym v).out = u.out := rfl

@[simp] theorem IUnit.useFixedTables_start (u : IUnit) : u.useFixedTables.start = u.start := rfl
@[simp] theorem IUnit.useFixedTables_nlenCheck (u : IUnit) : u.useFixedTables.nlenCheck = u.nlenCheck := rfl
@[simp] theorem IUnit.useFixedTables_strictPeek (u : IUnit) : u.useFixedTables.strictPeek = u.strictPeek := rfl
@[simp] theorem IUnit.useFixedTables_inLen (u : IUnit) : u.useFixedTables.inLen = u.inLen := rfl
@[simp] theorem IUnit.useFixedTables_errKind (u : IUnit) : u.useFixedTables.errKind = u.errKind := rfl
@[simp] theorem IUnit.useFixedTables_outLen (u : IUnit) : u.useFixedTables.outLen = u.outLen := rfl
@[simp] theorem IUnit.useFixedTables_phase (u : IUnit) : u.useFixedTables.phase = .body := rfl
@[simp] theorem IUnit.useFixedTables_bitpos (u : IUnit) : u.useFixedTables.bitpos = u.bitpos := rfl
@[simp] theorem IUnit.useFixedTables_outlen (u : IUnit) : u.useFixedTables.outlen = u.outlen := rfl
@[simp] theorem IUnit.useFixedTables_bfinal (u : IUnit) : u.useFixedTables.bfinal = u.bfinal := rfl
@[simp] theorem IUnit.useFixedTables_btype (u : IUnit) : u.useFixedTables.btype = u.btype := rfl
@[simp] theorem IUnit.useFixedTables_slen (u : IUnit) : u.useFixedTables.slen = u.slen := rfl
@[simp] theorem IUnit.useFixedTables_snlen (u : IUnit) : u.useFixedTables.snlen = u.snlen := rfl
@[simp] theorem IUnit.useFixedTables_hlit (u : IUnit) : u.useFixedTables.hlit = u.hlit := rfl
@[simp] theorem IUnit.useFixedTables_hdist (u : IUnit) : u.useFixedTables.hdist = u.hdist := rfl
@[simp] theorem IUnit.useFixedTables_hclen (u : IUnit) : u.useFixedTables.hclen = u.hclen := rfl
@[simp] theorem IUnit.useFixedTables_lidx (u : IUnit) : u.useFixedTables.lidx = u.lidx := rfl
@[simp] theorem IUnit.useFixedTables_sym (u : IUnit) : u.useFixedTables.sym = u.sym := rfl
@[simp] theorem IUnit.useFixedTables_mlen (u : IUnit) : u.useFixedTables.mlen = u.mlen := rfl
@[simp] theorem IUnit.useFixedTables_dsym (u : IUnit) : u.useFixedTables.dsym = u.dsym := rfl
@[simp] theorem IUnit.useFixedTables_mdist (u : IUnit) : u.useFixedTables.mdist = u.mdist := rfl
@[simp] theorem IUnit.useFixedTables_cllen (u : IUnit) : u.useFixedTables.cllen = u.cllen := rfl
@[simp] theorem IUnit.useFixedTables_llen (u : IUnit) : u.useFixedTables.llen = u.llen := rfl
@[simp] theorem IUnit.useFixedTables_cltab (u : IUnit) : u.useFixedTables.cltab = u.cltab := rfl
@[simp] theorem IUnit.useFixedTables_ltab (u : IUnit) : u.useFixedTables.ltab = fixedLTab := rfl
@[simp] theorem IUnit.useFixedTables_dtab (u : IUnit) : u.useFixedTables.dtab = fixedDTab := rfl
@[simp] theorem IUnit.useFixedTables_inp (u : IUnit) : u.useFixedTables.inp = u.inp := rfl
@[simp] theorem IUnit.useFixedTables_out (u : IUnit) : u.useFixedTables.out = u.out := rfl

@[simp] theorem IUnit.begin_start (u : IUnit) : u.begin.start = false := rfl
@[simp] theorem IUnit.begin_nlenCheck (u : IUnit) : u.begin.nlenCheck = u.nlenCheck := rfl
@[simp] theorem IUnit.begin_strictPeek (u : IUnit) : u.begin.strictPeek = u.strictPeek := rfl
@[simp] theorem IUnit.begin_inLen (u : IUnit) : u.begin.inLen = u.inLen := rfl
@[simp] theorem IUnit.begin_errKind (u : IUnit) : u.begin.errKind = none := rfl
@[simp] theorem IUnit.begin_outLen (u : IUnit) : u.begin.outLen = 0 := rfl
@[simp] theorem IUnit.begin_phase (u : IUnit) : u.begin.phase = .hdr := rfl
@[simp] theorem IUnit.begin_bitpos (u : IUnit) : u.begin.bitpos = 0 := rfl
@[simp] theorem IUnit.begin_outlen (u : IUnit) : u.begin.outlen = 0 := rfl
@[simp] theorem IUnit.begin_bfinal (u : IUnit) : u.begin.bfinal = u.bfinal := rfl
@[simp] theorem IUnit.begin_btype (u : IUnit) : u.begin.btype = u.btype := rfl
@[simp] theorem IUnit.begin_slen (u : IUnit) : u.begin.slen = u.slen := rfl
@[simp] theorem IUnit.begin_snlen (u : IUnit) : u.begin.snlen = u.snlen := rfl
@[simp] theorem IUnit.begin_hlit (u : IUnit) : u.begin.hlit = u.hlit := rfl
@[simp] theorem IUnit.begin_hdist (u : IUnit) : u.begin.hdist = u.hdist := rfl
@[simp] theorem IUnit.begin_hclen (u : IUnit) : u.begin.hclen = u.hclen := rfl
@[simp] theorem IUnit.begin_lidx (u : IUnit) : u.begin.lidx = u.lidx := rfl
@[simp] theorem IUnit.begin_sym (u : IUnit) : u.begin.sym = u.sym := rfl
@[simp] theorem IUnit.begin_mlen (u : IUnit) : u.begin.mlen = u.mlen := rfl
@[simp] theorem IUnit.begin_dsym (u : IUnit) : u.begin.dsym = u.dsym := rfl
@[simp] theorem IUnit.begin_mdist (u : IUnit) : u.begin.mdist = u.mdist := rfl
@[simp] theorem IUnit.begin_cllen (u : IUnit) : u.begin.cllen = u.cllen := rfl
@[simp] theorem IUnit.begin_llen (u : IUnit) : u.begin.llen = u.llen := rfl
@[simp] theorem IUnit.begin_cltab (u : IUnit) : u.begin.cltab = u.cltab := rfl
@[simp] theorem IUnit.begin_ltab (u : IUnit) : u.begin.ltab = u.ltab := rfl
@[simp] theorem IUnit.begin_dtab (u : IUnit) : u.begin.dtab = u.dtab := rfl
@[simp] theorem IUnit.begin_inp (u : IUnit) : u.begin.inp = u.inp := rfl
@[simp] theorem IUnit.begin_out (u : IUnit) : u.begin.out = u.out := rfl

@[simp] theorem UUnit.raise_start (u : UUnit) (k : ErrKind) : (u.raise k).start = u.start := rfl
@[simp] theorem UUnit.raise_chainCmd (u : UUnit) (k : ErrKind) : (u.raise k).chainCmd = u.chainCmd := rfl
@[simp] theorem UUnit.raise_chained (u : UUnit) (k : ErrKind) : (u.raise k).chained = u.chained := rfl
@[simp] theorem UUnit.raise_width (u : UUnit) (k : ErrKind) : (u.raise k).width = u.width := rfl
@[simp] theorem UUnit.raise_height (u : UUnit) (k : ErrKind) : (u.raise k).height = u.height := rfl
@[simp] theorem UUnit.raise_bpp (u : UUnit) (k : ErrKind) : (u.raise k).bpp = u.bpp := rfl
@[simp] theorem UUnit.raise_rawLen (u : UUnit) (k : ErrKind) : (u.raise k).rawLen = u.rawLen := rfl
@[simp] theorem UUnit.raise_errKind (u : UUnit) (k : ErrKind) : (u.raise k).errKind = some k := rfl
@[simp] theorem UUnit.raise_rowsLen (u : UUnit) (k : ErrKind) : (u.raise k).rowsLen = 0 := rfl
@[simp] theorem UUnit.raise_phase (u : UUnit) (k : ErrKind) : (u.raise k).phase = .error := rfl
@[simp] theorem UUnit.raise_stride (u : UUnit) (k : ErrKind) : (u.raise k).stride = u.stride := rfl
@[simp] theorem UUnit.raise_row (u : UUnit) (k : ErrKind) : (u.raise k).row = u.row := rfl
@[simp] theorem UUnit.raise_ft (u : UUnit) (k : ErrKind) : (u.raise k).ft = u.ft := rfl
@[simp] theorem UUnit.raise_col (u : UUnit) (k : ErrKind) : (u.raise k).col = u.col := rfl
@[simp] theorem UUnit.raise_raw (u : UUnit) (k : ErrKind) : (u.raise k).raw = u.raw := rfl
@[simp] theorem UUnit.raise_rows (u : UUnit) (k : ErrKind) : (u.raise k).rows = u.rows := rfl

/-- A unit's element changes only its own unit. -/
@[simp] theorem onI_ok (s : State) (x : Unit) (i : IUnit) : onI s (.ok x i) = .next { s with i := i } := rfl
@[simp] theorem onI_raised (s : State) (i : IUnit) : onI s (.raised i) = .next { s with i := i } := rfl
@[simp] theorem onI_fault (s : State) (e : Fault) : onI s (.fault e) = .fault e := rfl
@[simp] theorem onI_refused (s : State) (e : Refusal) : onI s (.refused e) = .refused e := rfl
@[simp] theorem onU_ok (s : State) (x : Unit) (u : UUnit) : onU s (.ok x u) = .next { s with u := u } := rfl
@[simp] theorem onU_raised (s : State) (u : UUnit) : onU s (.raised u) = .next { s with u := u } := rfl
@[simp] theorem onU_fault (s : State) (e : Fault) : onU s (.fault e) = .fault e := rfl
@[simp] theorem onU_refused (s : State) (e : Refusal) : onU s (.refused e) = .refused e := rfl

variable {σ α β : Type}

@[simp] theorem Res.bind_ok (a : α) (u : σ) (f : α → σ → Res σ β) : (Res.ok a u).bind f = f a u := rfl
@[simp] theorem Res.bind_raised (u : σ) (f : α → σ → Res σ β) : (Res.raised u : Res σ α).bind f = .raised u := rfl
@[simp] theorem Res.bind_fault (e : Fault) (f : α → σ → Res σ β) : (Res.fault e : Res σ α).bind f = .fault e := rfl
@[simp] theorem Res.bind_refused (e : Refusal) (f : α → σ → Res σ β) :
    (Res.refused e : Res σ α).bind f = .refused e := rfl

/-- A sequence completes exactly when both parts do. -/
theorem Res.bind_eq_ok {r : Res σ α} {f : α → σ → Res σ β} {b : β} {v : σ} :
    r.bind f = .ok b v ↔ ∃ a u, r = .ok a u ∧ f a u = .ok b v := by
  cases r <;> simp [Res.bind]

/-- A sequence raises exactly when one of its parts does. -/
theorem Res.bind_eq_raised {r : Res σ α} {f : α → σ → Res σ β} {v : σ} :
    r.bind f = .raised v ↔ r = .raised v ∨ ∃ a u, r = .ok a u ∧ f a u = .raised v := by
  cases r <;> simp [Res.bind]

/-- What an I-unit element can do as a step: the I-unit completes or raises. -/
theorem onI_eq_next {s t : State} {r : Res IUnit Unit} :
    onI s r = .next t ↔ ∃ i, (r = .ok () i ∨ r = .raised i) ∧ t = { s with i := i } := by
  cases r <;> simp [onI, eq_comm]

/-- What a U-unit element can do as a step: the U-unit completes or raises. -/
theorem onU_eq_next {s t : State} {r : Res UUnit Unit} :
    onU s r = .next t ↔ ∃ u, (r = .ok () u ∨ r = .raised u) ∧ t = { s with u := u } := by
  cases r <;> simp [onU, eq_comm]

end Sys2Proof.Machine
end

