-- ==== Sys2Proof/Laws/Reader.lean ====
section
/-! SUPPORT. What the Bit Reader's operations can do (R130-R136). -/
namespace Sys2Proof.Machine

theorem IUnit.inBit_lt (u : IUnit) (k : Nat) : u.inBit k < 2 := Nat.mod_lt _ (by decide)

theorem IUnit.paddedBit_lt (u : IUnit) (k : Nat) : u.paddedBit k < 2 := by
  unfold IUnit.paddedBit
  split
  · exact u.inBit_lt k
  · decide

/-- Moving the cursor does not change the stream. -/
@[simp] theorem IUnit.seek_inBit (u : IUnit) (p : Nat) : (u.seek p).inBit = u.inBit := rfl

@[simp] theorem IUnit.seek_seek (u : IUnit) (p q : Nat) : (u.seek p).seek q = u.seek q := rfl

theorem bitField_lt {bit : Nat → Nat} (h : ∀ k, bit k < 2) (n pos : Nat) : bitField bit n pos < 2 ^ n := by
  induction n generalizing pos with
  | zero => simp [bitField]
  | succ n ih =>
    have := ih (pos + 1)
    have := h pos
    simp only [bitField, Nat.pow_succ]
    omega

/-- Bit `i` of a field is stream bit `pos + i` (R61). -/
theorem bitField_bit {bit : Nat → Nat} (h : ∀ k, bit k < 2) {n i : Nat} (hi : i < n) (pos : Nat) :
    bitField bit n pos / 2 ^ i % 2 = bit (pos + i) := by
  induction n generalizing i pos with
  | zero => omega
  | succ n ih =>
    have hb := h pos
    cases i with
    | zero => simp only [bitField, Nat.pow_zero, Nat.div_one, Nat.add_zero]; omega
    | succ i =>
      have : bitField bit (n + 1) pos / 2 = bitField bit n (pos + 1) := by simp only [bitField]; omega
      rw [Nat.pow_succ, Nat.mul_comm, ← Nat.div_div_eq_div_mul, this, ih (by omega)]
      congr 1
      omega

/-- A field depends on its own bits only. -/
theorem bitField_congr {f g : Nat → Nat} {n pos : Nat} (h : ∀ i < n, f (pos + i) = g (pos + i)) :
    bitField f n pos = bitField g n pos := by
  induction n generalizing pos with
  | zero => rfl
  | succ n ih =>
    have h0 := h 0 (by omega)
    have := ih (pos := pos + 1) fun i hi => by simpa [Nat.add_assoc, Nat.add_comm 1] using h (i + 1) (by omega)
    simp only [Nat.add_zero] at h0
    simp [bitField, h0, this]

/-- Everything `READ(n)` can do (R130). -/
theorem readBits_cases {n : Nat} {u : IUnit} (hn : 1 ≤ n ∧ n ≤ 32) :
    (u.bitpos + n ≤ 8 * u.inLen ∧
        readBits n u = .ok (bitField u.inBit n u.bitpos) (u.seek (u.bitpos + n))) ∨
    (8 * u.inLen < u.bitpos + n ∧ readBits n u = .raised (u.raise .truncated)) := by
  have h0 : ¬(n = 0 ∨ 32 < n) := by omega
  by_cases h : 8 * u.inLen < u.bitpos + n
  · exact .inr ⟨h, by simp [readBits, h0, h]⟩
  · exact .inl ⟨by omega, by simp [readBits, h0, h]⟩

theorem readBits_eq_ok {n v : Nat} {u w : IUnit} (h : readBits n u = .ok v w) :
    1 ≤ n ∧ n ≤ 32 ∧ u.bitpos + n ≤ 8 * u.inLen ∧ v = bitField u.inBit n u.bitpos ∧ v < 2 ^ n ∧
      w = u.seek (u.bitpos + n) := by
  unfold readBits at h
  split at h
  · cases h
  · split at h
    · cases h
    · cases h
      exact ⟨by omega, by omega, by omega, rfl, bitField_lt u.inBit_lt _ _, rfl⟩

theorem readBits_eq_raised {n : Nat} {u w : IUnit} (h : readBits n u = .raised w) :
    8 * u.inLen < u.bitpos + n ∧ w = u.raise .truncated := by
  unfold readBits at h
  split at h
  · cases h
  · split at h
    · cases h
      exact ⟨‹_›, rfl⟩
    · cases h

theorem readBits_ne_refused {n : Nat} {u : IUnit} {e : Refusal} : readBits n u ≠ .refused e := by
  unfold readBits
  split
  · simp
  · split <;> simp

/-- Everything `READ_EXTRA(n)` can do (R135). -/
theorem readExtra_cases {n : Nat} {u : IUnit} (hn : n ≤ 32) :
    (u.bitpos + n ≤ 8 * u.inLen ∨ n = 0) ∧
        readExtra n u = .ok (bitField u.inBit n u.bitpos) (u.seek (u.bitpos + n)) ∨
    (n ≠ 0 ∧ 8 * u.inLen < u.bitpos + n ∧ readExtra n u = .raised (u.raise .truncated)) := by
  by_cases h : n = 0
  · subst h
    exact .inl ⟨.inr rfl, rfl⟩
  · rcases readBits_cases (n := n) (u := u) ⟨by omega, hn⟩ with ⟨h1, h2⟩ | ⟨h1, h2⟩
    · exact .inl ⟨.inl h1, by simp [readExtra, h, h2]⟩
    · exact .inr ⟨h, h1, by simp [readExtra, h, h2]⟩

/-- Everything "base plus extra bits" can do (R103). -/
theorem basePlusExtra_cases {base n : Nat} {u : IUnit} (hn : n ≤ 32) :
    (u.bitpos + n ≤ 8 * u.inLen ∨ n = 0) ∧
        basePlusExtra base n u = .ok (base + bitField u.inBit n u.bitpos) (u.seek (u.bitpos + n)) ∨
    (n ≠ 0 ∧ 8 * u.inLen < u.bitpos + n ∧ basePlusExtra base n u = .raised (u.raise .truncated)) := by
  rcases readExtra_cases (n := n) (u := u) hn with ⟨h1, h2⟩ | ⟨h0, h1, h2⟩
  · exact .inl ⟨h1, by simp [basePlusExtra, h2]⟩
  · exact .inr ⟨h0, h1, by simp [basePlusExtra, h2]⟩

/-- `SKIP(n)` within the buffer (R132). -/
theorem skipBits_of_le {n : Nat} {u : IUnit} (h : u.bitpos + n ≤ 8 * u.inLen) :
    skipBits n u = .ok () (u.seek (u.bitpos + n)) := by
  simp [skipBits, h]

/-- `UNREAD(n)` within its contract (R133). -/
theorem unreadBits_of_le {n : Nat} {u : IUnit} (h : n ≤ 14) (h' : n ≤ u.bitpos) :
    unreadBits n u = .ok () (u.seek (u.bitpos - n)) := by
  simp [unreadBits, h, h']

/-- `ALIGN()` goes to the next byte boundary, or stays on one (R134). -/
theorem alignCursor_spec (u : IUnit) :
    alignCursor u = u.seek (alignCursor u).bitpos ∧ (alignCursor u).bitpos % 8 = 0 ∧
      u.bitpos ≤ (alignCursor u).bitpos ∧ (alignCursor u).bitpos < u.bitpos + 8 := by
  refine ⟨rfl, ?_, ?_, ?_⟩ <;> simp only [alignCursor, IUnit.seek_bitpos] <;> omega

end Sys2Proof.Machine
end

