-- ==== Sys2Proof/Laws/Huffman.lean ====
section
/-! SUPPORT. What `BUILD` and `DECODE` can do (R150-R162): the shape of a built table, and the three outcomes of a
decode. -/
namespace Sys2Proof.Machine

theorem le_maxBits {lens : List Nat} {l : Nat} (h : l ∈ lens) : l ≤ maxBits lens := by
  have key : ∀ (xs : List Nat) (m : Nat), m ≤ xs.foldl max m ∧ ∀ x ∈ xs, x ≤ xs.foldl max m := by
    intro xs
    induction xs with
    | nil => simp
    | cons y ys ih =>
      intro m
      obtain ⟨h1, h2⟩ := ih (max m y)
      refine ⟨le_trans (le_max_left _ _) h1, fun x hx => ?_⟩
      rcases List.mem_cons.1 hx with rfl | hx
      · exact le_trans (le_max_right _ _) h1
      · exact h2 x hx
  exact (key lens 0).2 l h

theorem maxBits_le {lens : List Nat} {w : Nat} (h : ∀ l ∈ lens, l ≤ w) : maxBits lens ≤ w := by
  have key : ∀ (xs : List Nat) (m : Nat), m ≤ w → (∀ x ∈ xs, x ≤ w) → xs.foldl max m ≤ w := by
    intro xs
    induction xs with
    | nil => simp
    | cons y ys ih =>
      intro m hm hx
      exact ih _ (max_le hm (hx y (by simp))) fun x h => hx x (by simp [h])
  exact key lens 0 (Nat.zero_le _) h

/-- A code word is that of a used symbol, with the symbol's length (R152). -/
theorem mem_assignFrom {next lens : List Nat} {s : Nat} {c : CodeWord} (h : c ∈ assignFrom next s lens) :
    s ≤ c.sym ∧ c.sym < s + lens.length ∧ lens[c.sym - s]? = some c.len ∧ c.len ≠ 0 := by
  induction lens generalizing next s with
  | nil => simp [assignFrom] at h
  | cons l ls ih =>
    have step : ∀ {n : List Nat}, c ∈ assignFrom n (s + 1) ls →
        s ≤ c.sym ∧ c.sym < s + (l :: ls).length ∧ (l :: ls)[c.sym - s]? = some c.len ∧ c.len ≠ 0 := by
      intro n hn
      obtain ⟨h1, h2, h3, h4⟩ := ih hn
      have : c.sym - s = (c.sym - (s + 1)) + 1 := by omega
      refine ⟨by omega, by simp only [List.length_cons]; omega, ?_, h4⟩
      rw [this, List.getElem?_cons_succ]
      exact h3
    unfold assignFrom at h
    split at h
    · exact step h
    · rcases List.mem_cons.1 h with rfl | h
      · simpa using ‹¬l = 0›
      · exact step h

theorem mem_assign {lens : List Nat} {c : CodeWord} (h : c ∈ assign lens) :
    lens[c.sym]? = some c.len ∧ 1 ≤ c.len ∧ c.len ≤ maxBits lens ∧ c.sym < lens.length := by
  obtain ⟨-, h2, h3, h4⟩ := mem_assignFrom h
  simp only [Nat.sub_zero] at h3
  exact ⟨h3, by omega, le_maxBits (List.mem_of_getElem? h3), by simpa using h2⟩

/-- Everything `BUILD` can do (R150, R153). -/
theorem build_cases (lens : List Nat) :
    (kraft lens ≤ 2 ^ maxBits lens ∧
        build lens = some ⟨maxBits lens, fillTable (assign lens) (maxBits lens)⟩) ∨
    (2 ^ maxBits lens < kraft lens ∧ build lens = none) := by
  by_cases h : 2 ^ maxBits lens < kraft lens
  · exact .inr ⟨h, by simp [build, h]⟩
  · exact .inl ⟨by omega, by simp [build, h]⟩

/-- A built table is one of its alphabet (R32). -/
theorem build_wf {lens : List Nat} {t : Table} {width top : Nat} (h : build lens = some t)
    (hw : ∀ l ∈ lens, l ≤ width) (hn : lens.length ≤ top + 1) : t.wf width top := by
  rcases build_cases lens with ⟨-, hb⟩ | ⟨-, hb⟩
  · rw [h] at hb
    cases hb
    refine ⟨maxBits_le hw, by simp [fillTable], fun e he x hx => ?_⟩
    simp only [fillTable, List.mem_map, List.mem_range] at he
    obtain ⟨j, -, rfl⟩ := he
    simp only [entryAt, Option.mem_def, Option.map_eq_some_iff] at hx
    obtain ⟨c, hc, rfl⟩ := hx
    obtain ⟨-, h1, h2, h3⟩ := mem_assign (List.mem_of_find?_eq_some hc)
    exact ⟨h1, h2, by simp only; omega⟩
  · rw [h] at hb
    cases hb

theorem Table.empty_wf (width top : Nat) : Table.empty.wf width top := by
  refine ⟨Nat.zero_le _, rfl, fun e he x hx => ?_⟩
  simp only [Table.empty, List.mem_singleton] at he
  subst he
  simp at hx

theorem Table.lookup_wf {t : Table} {width top idx : Nat} {e : Entry} (ht : t.wf width top)
    (h : t.lookup idx = some e) : 1 ≤ e.len ∧ e.len ≤ t.maxbits ∧ e.sym ≤ top := by
  have : some e ∈ t.entry := by
    unfold Table.lookup at h
    rw [List.getD_eq_getElem?_getD] at h
    cases hx : t.entry[idx]? with
    | none => simp [hx] at h
    | some x =>
      simp only [hx, Option.getD_some] at h
      exact h ▸ List.mem_of_getElem? hx
  exact ht.2.2 _ this e rfl

theorem peekBits_lt (n : Nat) (u : IUnit) : peekBits n u < 2 ^ n := bitField_lt u.paddedBit_lt _ _

/-- Everything `DECODE(T)` can do (R160-R162) with a table of an alphabet: a symbol of an entry whose code lies in the
buffer, or `TruncatedStreamError`, or `HuffmanDecodeError`. -/
theorem decodeSym_cases {t : Table} {u : IUnit} {width top : Nat} (ht : t.wf width top) (hu : u.bitpos ≤ 8 * u.inLen) :
    (∃ e, t.lookup (peekBits t.maxbits u) = some e ∧ u.bitpos + e.len ≤ 8 * u.inLen ∧ 1 ≤ e.len ∧ e.sym ≤ top ∧
        decodeSym t u = .ok e.sym (u.seek (u.bitpos + e.len))) ∨
    (u.avail < t.maxbits ∧ decodeSym t u = .raised (u.raise .truncated)) ∨
    (t.maxbits ≤ u.avail ∧ t.lookup (peekBits t.maxbits u) = none ∧
        decodeSym t u = .raised (u.raise .huffman)) := by
  unfold decodeSym
  by_cases hs : u.strictPeek = true ∧ u.avail < t.maxbits
  · exact .inr (.inl ⟨hs.2, by simp [hs]⟩)
  · rw [if_neg hs]
    cases hl : t.lookup (peekBits t.maxbits u) with
    | none =>
      by_cases ha : u.avail < t.maxbits
      · exact .inr (.inl ⟨ha, by simp [ha]⟩)
      · exact .inr (.inr ⟨by omega, rfl, by simp [ha]⟩)
    | some e =>
      obtain ⟨h1, h2, h3⟩ := Table.lookup_wf ht hl
      by_cases hx : u.avail < t.maxbits ∧ u.avail < e.len
      · exact .inr (.inl ⟨hx.1, by simp [hx]⟩)
      · have hle : u.bitpos + e.len ≤ 8 * u.inLen := by
          unfold IUnit.avail at hx
          omega
        exact .inl ⟨e, rfl, hle, h1, h3, by simp [hx, skipBits_of_le hle]⟩

end Sys2Proof.Machine
end

