-- ==== Sys2Proof/Laws/Memory.lean ====
section
/-! SUPPORT. The laws of the spaces: a read after a write, the canonical form kept, and equality of canonical
memories that read the same. -/
namespace Sys2Proof.Machine

@[simp] theorem Memory.read_nil (a : Nat) : Memory.read [] a = Memory.unlisted := rfl

theorem Memory.wf_nil : Memory.wf [] := ⟨List.Pairwise.nil, by simp⟩

/-- Below the first address nothing is listed. -/
theorem Memory.read_below {m : Memory} {a : Nat} (h : ∀ c ∈ m, a < c.1) : m.read a = Memory.unlisted := by
  induction m with
  | nil => rfl
  | cons c m ih =>
    have hc := h c (by simp)
    have : c.1 ≠ a := by omega
    simp only [Memory.read, this, if_false]
    exact ih fun d hd => h d (by simp [hd])

theorem Memory.read_cell_append {m : Memory} {a : Nat} {b : Byte} (h : ∀ c ∈ m, a < c.1) (x : Nat) :
    (Memory.cell a b ++ m).read x = if x = a then b else m.read x := by
  unfold Memory.cell
  split
  · split
    · subst_vars
      simpa using Memory.read_below h
    · simp
  · simp only [List.cons_append, List.nil_append, Memory.read]
    by_cases hx : a = x
    · simp [hx]
    · simp [hx, Ne.symm hx]

/-- A read after a write (R69: "re-reading OUT or ROWS returns the byte last written there"), on a space whose
addresses rise. -/
theorem Memory.read_write {m : Memory} (h : m.wf) (a : Nat) (b : Byte) (x : Nat) :
    (m.write a b).read x = if x = a then b else m.read x := by
  obtain ⟨hp, -⟩ := h
  induction m with
  | nil => simpa [Memory.write] using Memory.read_cell_append (m := []) (a := a) (b := b) (by simp) x
  | cons c m ih =>
    obtain ⟨k, e⟩ := c
    rw [List.pairwise_cons] at hp
    unfold Memory.write
    split
    · refine Memory.read_cell_append ?_ x
      rintro d hd
      rcases List.mem_cons.1 hd with rfl | hd
      · assumption
      · have := hp.1 d hd
        simp only at this
        omega
    · split
      · subst_vars
        rw [Memory.read_cell_append hp.1]
        by_cases hx : x = k
        · simp [hx]
        · simp [hx, Memory.read, Ne.symm hx]
      · simp only [Memory.read, ih hp.2]
        by_cases hk : k = x
        · subst hk
          have : k ≠ a := by omega
          simp [this]
        · simp [hk]

/-- Every entry of a written space is an old one or the written byte. -/
theorem Memory.mem_write {m : Memory} {a : Nat} {b : Byte} {c : Host.Cell} (h : c ∈ m.write a b) :
    c ∈ m ∨ (c = (a, b) ∧ b ≠ Memory.unlisted) := by
  have cell_mem : ∀ {l : Memory}, c ∈ Memory.cell a b ++ l → c ∈ l ∨ (c = (a, b) ∧ b ≠ Memory.unlisted) := by
    intro l hl
    unfold Memory.cell at hl
    split at hl
    · exact .inl (by simpa using hl)
    · rename_i hb
      rcases List.mem_cons.1 hl with h | h
      · exact .inr ⟨h, hb⟩
      · exact .inl (by simpa using h)
  induction m with
  | nil => simpa using cell_mem (l := []) (by simpa [Memory.write] using h)
  | cons d m ih =>
    obtain ⟨k, e⟩ := d
    unfold Memory.write at h
    split at h
    · exact cell_mem h
    · split at h
      · rcases cell_mem h with h | h
        · exact .inl (by simp [h])
        · exact .inr h
      · rcases List.mem_cons.1 h with h | h
        · exact .inl (by simp [h])
        · rcases ih h with h | h
          · exact .inl (by simp [h])
          · exact .inr h

/-- A write keeps the canonical form. -/
theorem Memory.write_wf {m : Memory} (h : m.wf) (a : Nat) (b : Byte) : (m.write a b).wf := by
  refine ⟨?_, fun c hc => ?_⟩
  · have pre : ∀ {l : Memory}, l.Pairwise (fun x y => x.1 < y.1) → (∀ c ∈ l, a < c.1) →
        (Memory.cell a b ++ l).Pairwise (fun x y => x.1 < y.1) := by
      intro l hl ha
      unfold Memory.cell
      split
      · simpa using hl
      · simpa using ⟨fun c d hc => ha (c, d) hc, hl⟩
    obtain ⟨hp, -⟩ := h
    induction m with
    | nil => simpa [Memory.write] using pre (l := []) List.Pairwise.nil (by simp)
    | cons c m ih =>
      obtain ⟨k, e⟩ := c
      have hp' := hp
      rw [List.pairwise_cons] at hp
      unfold Memory.write
      split
      · refine pre hp' fun d hd => ?_
        rcases List.mem_cons.1 hd with rfl | hd
        · assumption
        · have := hp.1 d hd
          simp only at this
          omega
      · split
        · subst_vars
          exact pre hp.2 hp.1
        · rw [List.pairwise_cons]
          refine ⟨fun d hd => ?_, ih hp.2⟩
          rcases Memory.mem_write hd with hd | ⟨rfl, -⟩
          · exact hp.1 d hd
          · simp only
            omega
  · rcases Memory.mem_write hc with hc | ⟨rfl, hb⟩
    · exact h.2 c hc
    · exact hb

/-- Canonical memories that read the same are the same data. -/
theorem Memory.ext_of_wf {m n : Memory} (hm : m.wf) (hn : n.wf) (h : ∀ a, m.read a = n.read a) : m = n := by
  have head : ∀ {k : Nat} {b : Byte} {l : Memory}, Memory.read ((k, b) :: l) k = b := by simp [Memory.read]
  have above : ∀ {k : Nat} {b : Byte} {l : Memory}, Memory.wf ((k, b) :: l) → ∀ a < k,
      Memory.read ((k, b) :: l) a = Memory.unlisted := by
    intro k b l hl a ha
    refine Memory.read_below fun c hc => ?_
    rcases List.mem_cons.1 hc with rfl | hc
    · exact ha
    · have := (List.pairwise_cons.1 hl.1).1 c hc
      simp only at this
      omega
  have tail : ∀ {k : Nat} {b : Byte} {l : Memory}, Memory.wf ((k, b) :: l) → l.wf := fun hl =>
    ⟨(List.pairwise_cons.1 hl.1).2, fun c hc => hl.2 c (by simp [hc])⟩
  induction m generalizing n with
  | nil =>
    cases n with
    | nil => rfl
    | cons c n => exact absurd (h c.1).symm (by simpa [Memory.read] using hn.2 c (by simp))
  | cons c m ih =>
    obtain ⟨k, b⟩ := c
    cases n with
    | nil => exact absurd (h k) (by simpa [Memory.read] using hm.2 (k, b) (by simp))
    | cons d n =>
      obtain ⟨j, e⟩ := d
      have hb : b ≠ Memory.unlisted := hm.2 (k, b) (by simp)
      have he : e ≠ Memory.unlisted := hn.2 (j, e) (by simp)
      have hkj : k = j := by
        rcases Nat.lt_trichotomy k j with hlt | heq | hlt
        · exact absurd ((head (l := m)).symm.trans ((h k).trans (above hn k hlt))) hb
        · exact heq
        · exact absurd ((head (l := n)).symm.trans ((h j).symm.trans (above hm j hlt))) he
      subst hkj
      have hbe : b = e := (head (l := m)).symm.trans ((h k).trans head)
      subst hbe
      congr 1
      refine ih (tail hm) (tail hn) fun a => ?_
      by_cases ha : k = a
      · subst ha
        rw [Memory.read_below (List.pairwise_cons.1 hm.1).1, Memory.read_below (List.pairwise_cons.1 hn.1).1]
      · simpa [Memory.read, ha] using h a

end Sys2Proof.Machine
end

