-- ==== Sys2Proof/Laws/Blocks.lean ====
section
/-! SUPPORT. What the operations of the block elements can do: the stored copy, the length arrays, the end of a
code-length element and the repeat symbols (R190, R193-R198). -/
namespace Sys2Proof.Machine

/-- A field of the bits of `x` is `x` modulo the field's size (R61). -/
theorem bitField_eq_mod {bit : Nat → Nat} {n pos x : Nat} (h : ∀ i < n, bit (pos + i) = x / 2 ^ i % 2) :
    bitField bit n pos = x % 2 ^ n := by
  induction n generalizing pos x with
  | zero => simp [bitField, Nat.mod_one]
  | succ n ih =>
    have h0 := h 0 (by omega)
    have hs : bitField bit n (pos + 1) = x / 2 % 2 ^ n := ih fun i hi => by
      have := h (i + 1) (by omega)
      rw [Nat.pow_succ, Nat.mul_comm, ← Nat.div_div_eq_div_mul] at this
      rw [← this]
      congr 1
      omega
    simp only [Nat.add_zero, Nat.pow_zero, Nat.div_one] at h0
    rw [bitField, h0, hs, Nat.pow_succ, Nat.mul_comm (2 ^ n) 2, Nat.mod_mul]

/-- The eight bits from a byte boundary on are that byte (R61). -/
theorem bitField_byte (u : IUnit) (a : Nat) : bitField u.inBit 8 (8 * a) = (u.inp.read a).toNat := by
  rw [bitField_eq_mod (x := (u.inp.read a).toNat)]
  · exact Nat.mod_eq_of_lt (u.inp.read a).isLt
  · intro i hi
    have h1 : (8 * a + i) / 8 = a := by omega
    have h2 : (8 * a + i) % 8 = i := by omega
    simp only [IUnit.inBit, h1, h2]

/-- A field of `m + n` bits is its first `m` bits and then the next `n` (R64). -/
theorem bitField_add (bit : Nat → Nat) (m n pos : Nat) :
    bitField bit (m + n) pos = bitField bit m pos + 2 ^ m * bitField bit n (pos + m) := by
  induction m generalizing pos with
  | zero => simp [bitField]
  | succ m ih =>
    have h : m + 1 + n = (m + n) + 1 := by omega
    rw [h]
    simp only [bitField, ih, Nat.pow_succ]
    have : pos + 1 + m = pos + (m + 1) := by omega
    rw [this]
    ring

/-- A 16-bit field from a byte boundary on is two bytes, the less significant first (R61, R62). -/
theorem bitField_two_bytes (u : IUnit) (a : Nat) :
    bitField u.inBit 16 (8 * a) = (u.inp.read a).toNat + 256 * (u.inp.read (a + 1)).toNat := by
  have h := bitField_add u.inBit 8 8 (8 * a)
  have h8 : 8 * a + 8 = 8 * (a + 1) := by omega
  rw [h8, bitField_byte, bitField_byte] at h
  simpa using h

/-- Appending a byte adds one byte at `OUTLEN`. -/
theorem IUnit.append_out_read {u : IUnit} (h : u.out.wf) (b : Byte) (a : Nat) :
    (u.append b).out.read a = if a = u.outlen then b else u.out.read a :=
  Memory.read_write h u.outlen b a

theorem IUnit.append_out_wf {u : IUnit} (h : u.out.wf) (b : Byte) : (u.append b).out.wf :=
  Memory.write_wf h u.outlen b

/-- Everything the stored copy can do (R190): it appends `n` fields of eight bits, or the stream ends and it raises
with some of them appended. -/
theorem copyStored_cases {n : Nat} {u : IUnit} (h : u.out.wf) :
    (u.bitpos + 8 * n ≤ 8 * u.inLen ∨ n = 0) ∧ (∃ t, copyStored n u = .ok () t ∧ t.out.wf ∧
        IUnit.Appended n (fun k => BitVec.ofNat 8 (bitField u.inBit 8 (u.bitpos + 8 * k)))
          (u.seek (u.bitpos + 8 * n)) t) ∨
    (8 * u.inLen < u.bitpos + 8 * n ∧ ∃ m < n, ∃ t, copyStored n u = .raised (t.raise .truncated) ∧ t.out.wf ∧
        IUnit.Appended m (fun k => BitVec.ofNat 8 (bitField u.inBit 8 (u.bitpos + 8 * k)))
          (u.seek (u.bitpos + 8 * m)) t) := by
  induction n generalizing u with
  | zero => exact .inl ⟨.inr rfl, u, rfl, h, rfl, fun a => by rw [if_neg (by omega)]; rfl⟩
  | succ n ih =>
    rcases readBits_cases (n := 8) (u := u) (by omega) with ⟨h1, h2⟩ | ⟨h1, h2⟩
    · let b : Byte := BitVec.ofNat 8 (bitField u.inBit 8 u.bitpos)
      let v := (u.seek (u.bitpos + 8)).append b
      have hv : v.out.wf := IUnit.append_out_wf h b
      have hc : copyStored (n + 1) u = copyStored n v := by simp [copyStored, h2, v, b]
      have lift : ∀ {m : Nat} {t : IUnit},
          IUnit.Appended m (fun k => BitVec.ofNat 8 (bitField v.inBit 8 (v.bitpos + 8 * k)))
            (v.seek (v.bitpos + 8 * m)) t →
          IUnit.Appended (m + 1) (fun k => BitVec.ofNat 8 (bitField u.inBit 8 (u.bitpos + 8 * k)))
            (u.seek (u.bitpos + 8 * (m + 1))) t := by
        rintro m t ⟨ht, hr⟩
        constructor
        · rw [ht]
          simp only [IUnit.seek, v, IUnit.append, IUnit.mk.injEq, true_and, and_true]
          omega
        · intro a
          rw [hr a]
          show (if u.outlen + 1 ≤ a ∧ a < u.outlen + 1 + m then _ else v.out.read a) =
            (if u.outlen ≤ a ∧ a < u.outlen + (m + 1) then _ else u.out.read a)
          have hva : v.out.read a = if a = u.outlen then b else u.out.read a :=
            IUnit.append_out_read (u := u.seek (u.bitpos + 8)) h b a
          by_cases ha : a = u.outlen
          · subst ha
            rw [if_neg (by omega), if_pos (by omega), hva, if_pos rfl]
            simp [b]
          · by_cases hin : u.outlen + 1 ≤ a ∧ a < u.outlen + 1 + m
            · rw [if_pos hin, if_pos (by omega)]
              show BitVec.ofNat 8 (bitField u.inBit 8 (u.bitpos + 8 + 8 * (a - (u.outlen + 1)))) =
                BitVec.ofNat 8 (bitField u.inBit 8 (u.bitpos + 8 * (a - u.outlen)))
              congr 2
              omega
            · rw [if_neg hin, if_neg (by omega), hva, if_neg ha]
      rcases ih hv with ⟨hb, t, ht, hw, ha⟩ | ⟨hb, m, hm, t, ht, hw, ha⟩
      · refine .inl ⟨.inl ?_, t, by rw [hc, ht], hw, lift ha⟩
        have : v.bitpos = u.bitpos + 8 := rfl
        have : v.inLen = u.inLen := rfl
        omega
      · refine .inr ⟨?_, m + 1, by omega, t, by rw [hc, ht], hw, lift ha⟩
        have : v.bitpos = u.bitpos + 8 := rfl
        have : v.inLen = u.inLen := rfl
        omega
    · exact .inr ⟨by omega, 0, by omega, u, by simp [copyStored, h2], h, rfl, fun a => by
        rw [if_neg (by omega)]; rfl⟩

/-- What the loop of the length symbols does, while the lengths fit in `LLEN` (R195-R198). -/
theorem pushLens_eq {rep v : Nat} {u : IUnit} (h : u.lidx + rep ≤ u.llen.length) :
    pushLens rep v u = u.lengthsAdded rep v := by
  induction rep generalizing u with
  | zero => simp [pushLens, IUnit.lengthsAdded]
  | succ n ih =>
    rw [pushLens, ih (by simp only [List.length_set]; omega)]
    simp only [IUnit.lengthsAdded, IUnit.mk.injEq, true_and, and_true]
    constructor
    · omega
    · have h1 : (u.llen.set u.lidx v).take (u.lidx + 1) = u.llen.take u.lidx ++ [v] := by
        rw [List.take_add_one, List.take_set_of_le (le_refl _), List.getElem?_set_self (by omega)]
        simp
      have h2 : (u.llen.set u.lidx v).drop (u.lidx + 1 + n) = u.llen.drop (u.lidx + (n + 1)) := by
        rw [List.drop_set_of_lt (by omega)]
        congr 1
        omega
      rw [h1, h2, List.replicate_succ]
      simp

/-- The end of a code-length element as a step (R194). -/
theorem onI_endCodeLength (s : State) (u : IUnit) :
    onI s (endCodeLength u) = .next { s with i := u.lengthsClosed } := by
  unfold endCodeLength IUnit.lengthsClosed IUnit.litLens IUnit.distLens
  split
  · unfold buildTable
    cases h : build (u.llen.take u.hlit) with
    | none => simp
    | some lt =>
      cases h' : build ((u.llen.drop u.hlit).take u.hdist) with
      | none => simp [h']
      | some dt => simp [h']
  · simp

/-- The end of a repeat symbol as a step, while the lengths fit in `LLEN` (R196-R198). -/
theorem onI_repeatLen {rep v : Nat} (s : State) (u : IUnit) (h : u.hlit + u.hdist ≤ u.llen.length) :
    onI s (repeatLen rep v u) = .next { s with
      i := if u.hlit + u.hdist < u.lidx + rep then u.raise .format else (u.lengthsAdded rep v).lengthsClosed } := by
  unfold repeatLen
  split
  · rfl
  · rw [onI_endCodeLength, pushLens_eq (by omega)]

/-- `ORDER` names each of the 19 code-length symbols once (R34). -/
theorem order_nodup : order.Nodup ∧ order.length = 19 ∧ ∀ x ∈ order, x < 19 := by decide

/-- Writing along a list of distinct places leaves every other place as it was. -/
theorem getD_setAll_of_notMem {ps : List (Nat × Nat)} {c : List Nat} {x : Nat} (h : x ∉ ps.map Prod.fst) :
    (ps.foldl (fun c p => c.set p.1 p.2) c).getD x 0 = c.getD x 0 := by
  induction ps generalizing c with
  | nil => rfl
  | cons p ps ih =>
    simp only [List.map_cons, List.mem_cons, not_or] at h
    rw [List.foldl_cons, ih h.2, List.getD_eq_getElem?_getD, List.getElem?_set_ne (Ne.symm h.1),
      ← List.getD_eq_getElem?_getD]

/-- Writing along a list of distinct places puts each value at its place. -/
theorem getD_setAll_of_mem {ps : List (Nat × Nat)} {c : List Nat} {x v : Nat} (hn : (ps.map Prod.fst).Nodup)
    (h : (x, v) ∈ ps) (hx : x < c.length) : (ps.foldl (fun c p => c.set p.1 p.2) c).getD x 0 = v := by
  induction ps generalizing c with
  | nil => simp at h
  | cons p ps ih =>
    rw [List.map_cons, List.nodup_cons] at hn
    rw [List.foldl_cons]
    rcases List.mem_cons.1 h with rfl | h
    · rw [getD_setAll_of_notMem hn.1, List.getD_eq_getElem?_getD, List.getElem?_set_self hx, Option.getD_some]
    · exact ih hn.2 h (by simpa using hx)

/-- The code-length code's lengths: `CLLEN` entry by entry in the order given (R193), or the stream ends. -/
theorem readClLens_cases {l : List Nat} {u : IUnit} :
    (u.bitpos + 3 * l.length ≤ 8 * u.inLen ∨ l = []) ∧ readClLens l u = .ok () { u with
        bitpos := u.bitpos + 3 * l.length
        cllen := (l.zipIdx.map fun p => (p.1, bitField u.inBit 3 (u.bitpos + 3 * p.2))).foldl
          (fun c p => c.set p.1 p.2) u.cllen } ∨
    (8 * u.inLen < u.bitpos + 3 * l.length ∧ ∃ w : IUnit, readClLens l u = .raised (w.raise .truncated) ∧
        w = { u with bitpos := w.bitpos, cllen := w.cllen } ∧ w.cllen.length = u.cllen.length ∧ u.bitpos ≤ w.bitpos ∧
        (u.bitpos ≤ 8 * u.inLen → w.bitpos ≤ 8 * u.inLen)) := by
  induction l generalizing u with
  | nil => exact .inl ⟨.inr rfl, rfl⟩
  | cons s l ih =>
    rcases readBits_cases (n := 3) (u := u) (by omega) with ⟨h1, h2⟩ | ⟨h1, h2⟩
    · let v : IUnit := { u.seek (u.bitpos + 3) with cllen := u.cllen.set s (bitField u.inBit 3 u.bitpos) }
      have hc : readClLens (s :: l) u = readClLens l v := by simp [readClLens, h2, v]
      have hvb : v.bitpos = u.bitpos + 3 := rfl
      have hvl : v.inLen = u.inLen := rfl
      have hvi : v.inBit = u.inBit := rfl
      rcases ih (u := v) with ⟨hb, ht⟩ | ⟨hb, w, ht, hw, hl, hp, hq⟩
      · refine .inl ⟨.inl ?_, ?_⟩
        · rcases hb with hb | rfl
          · simp only [List.length_cons]; omega
          · simpa using h1
        · rw [hc, ht]
          congr 1
          simp only [v, IUnit.seek, IUnit.mk.injEq, true_and, and_true, List.length_cons]
          refine ⟨by omega, ?_⟩
          rw [List.zipIdx_cons', List.map_cons, List.foldl_cons, List.map_map]
          congr 1
          refine List.map_congr_left fun p _ => ?_
          simp only [Function.comp, Prod.map, id]
          congr 2
          omega
      · refine .inr ⟨by simp only [List.length_cons]; omega, w, by rw [hc, ht], ?_, ?_, by omega, by omega⟩
        · rw [hw]; rfl
        · rw [hl]; simp [v]
    · exact .inr ⟨by simp only [List.length_cons]; omega, u, by simp [readClLens, h2], rfl, rfl, le_refl _, id⟩

end Sys2Proof.Machine
end

