-- ==== Sys2Proof/Laws/Match.lean ====
section
/-! SUPPORT. What a match can do: the copy loop (R292), a distance element (R260), and which element a distance symbol
is. -/
namespace Sys2Proof.Machine

/-- The copy loop appends its bytes and changes nothing else; every byte it appends is the one `MDIST` behind it
(R292, R73). -/
theorem copyMatch_spec {n : Nat} {u : IUnit} (h : u.out.wf) (hd : 1 ≤ u.mdist ∧ u.mdist ≤ u.outlen) :
    copyMatch n u = { u with out := (copyMatch n u).out, outlen := u.outlen + n } ∧ (copyMatch n u).out.wf ∧
      ∀ a, (copyMatch n u).out.read a =
        if u.outlen ≤ a ∧ a < u.outlen + n then (copyMatch n u).out.read (a - u.mdist) else u.out.read a := by
  induction n generalizing u with
  | zero => exact ⟨rfl, h, fun a => by rw [if_neg (by omega)]; rfl⟩
  | succ n ih =>
    let b := u.out.read (u.outlen - u.mdist)
    have hr : ∀ a, (u.append b).out.read a = if a = u.outlen then b else u.out.read a :=
      IUnit.append_out_read h b
    obtain ⟨h1, h2, h3⟩ := ih (u := u.append b) (IUnit.append_out_wf h b)
      ⟨hd.1, Nat.le_succ_of_le hd.2⟩
    have hc : copyMatch (n + 1) u = copyMatch n (u.append b) := rfl
    rw [hc]
    have ho : (u.append b).outlen = u.outlen + 1 := rfl
    have hm : (u.append b).mdist = u.mdist := rfl
    rw [ho, hm] at h3
    refine ⟨?_, h2, fun a => ?_⟩
    · conv_lhs => rw [h1]
      simp only [IUnit.append, IUnit.mk.injEq, true_and, and_true]
      omega
    · rw [h3 a]
      by_cases ha : a = u.outlen
      · subst ha
        rw [if_neg (by omega), hr, if_pos rfl, if_pos (by omega), h3, if_neg (by omega), hr, if_neg (by omega)]
      · by_cases hin : u.outlen + 1 ≤ a ∧ a < u.outlen + 1 + n
        · rw [if_pos hin, if_pos (by omega)]
        · rw [if_neg hin, if_neg (by omega), hr, if_neg ha]

/-- Everything a distance element of a symbol with a row can do (R260). -/
theorem distElement_cases {d : Nat} {u : IUnit} (hx : dextra.getD d 0 ≤ 32) :
    (0 < dextra.getD d 0 ∧ 8 * u.inLen < u.bitpos + dextra.getD d 0 ∧
        distElement d u = .raised ({ u with dsym := d }.raise .truncated)) ∨
    ((u.bitpos + dextra.getD d 0 ≤ 8 * u.inLen ∨ dextra.getD d 0 = 0) ∧
      (u.outlen < (u.distanceRead d (dbase.getD d 0) (dextra.getD d 0)).mdist ∧
          distElement d u = .raised ((u.distanceRead d (dbase.getD d 0) (dextra.getD d 0)).raise .format) ∨
        (u.distanceRead d (dbase.getD d 0) (dextra.getD d 0)).mdist ≤ u.outlen ∧
          distElement d u = .ok () (copyMatch u.mlen (u.distanceRead d (dbase.getD d 0) (dextra.getD d 0))))) := by
  unfold distElement distanceOperand
  rcases basePlusExtra_cases (base := dbase.getD d 0) (n := dextra.getD d 0) (u := { u with dsym := d }) hx with
    ⟨h1, h2⟩ | ⟨h0, h1, h2⟩
  · refine .inr ⟨h1, ?_⟩
    rw [h2, Res.bind_ok]
    by_cases hm : u.outlen < (u.distanceRead d (dbase.getD d 0) (dextra.getD d 0)).mdist
    · exact .inl ⟨hm, by rw [if_pos]; exacts [rfl, hm]⟩
    · exact .inr ⟨by omega, by rw [if_neg]; exacts [rfl, hm]⟩
  · exact .inl ⟨by omega, h1, by rw [h2]; rfl⟩

/-- No distance has more than 13 extra bits, and none is below 1 or above 32768 (R105). -/
theorem distance_rows : ∀ d < 30, dextra.getD d 0 ≤ 13 ∧ 1 ≤ dbase.getD d 0 ∧
    dbase.getD d 0 + 2 ^ dextra.getD d 0 ≤ 32769 := by
  intro d hd
  interval_cases d <;> decide

/-- No length has more than 5 extra bits, and none is below 3 or above 258 (R104). -/
theorem length_rows : ∀ k < 29, lextra.getD k 0 ≤ 5 ∧ 3 ≤ lbase.getD k 0 ∧
    lbase.getD k 0 + 2 ^ lextra.getD k 0 ≤ 259 := by decide

theorem distElements_length : distElements.length = 32 := rfl

/-- A distance symbol below 30 runs its element (R261-R290). -/
theorem distSymbol_of_lt {d : Nat} (h : d < 30) (u : IUnit) : distSymbol d u = distElement d u := by
  have key : ∀ d < 30, distElements[d]? = some (distElement d) := by
    intro d hd
    interval_cases d <;> rfl
  rw [distSymbol, key d h]

/-- Distance symbols 30 and 31 are reserved (R291). -/
theorem distSymbol_reserved {d : Nat} (h : d = 30 ∨ d = 31) (u : IUnit) : distSymbol d u = rsvd d u := by
  rcases h with rfl | rfl <;> rfl

/-- No distance alphabet has a symbol above 31 (R112). -/
theorem distSymbol_of_gt {d : Nat} (h : 31 < d) (u : IUnit) :
    distSymbol d u = .refused (.noElement (.noDistanceSymbol d)) := by
  have : distElements[d]? = none := List.getElem?_eq_none (by rw [distElements_length]; omega)
  rw [distSymbol, this]

/-- Everything a length element can do before its distance code (R223). -/
theorem matchElement_cases {sym : Nat} {u : IUnit} (hx : lextra.getD (sym - 257) 0 ≤ 32) :
    (0 < lextra.getD (sym - 257) 0 ∧ 8 * u.inLen < u.bitpos + lextra.getD (sym - 257) 0 ∧
        matchElement sym u = .raised ((u.setSym sym).raise .truncated)) ∨
    ((u.bitpos + lextra.getD (sym - 257) 0 ≤ 8 * u.inLen ∨ lextra.getD (sym - 257) 0 = 0) ∧
      matchElement sym u =
        distance (u.lengthRead sym (lbase.getD (sym - 257) 0) (lextra.getD (sym - 257) 0))) := by
  unfold matchElement lengthOperand
  generalize lbase.getD (sym - 257) 0 = base
  generalize lextra.getD (sym - 257) 0 = extra at hx ⊢
  rcases basePlusExtra_cases (base := base) (n := extra) (u := u.setSym sym) hx with ⟨h1, h2⟩ | ⟨h0, h1, h2⟩
  · exact .inr ⟨h1, by rw [h2]; rfl⟩
  · exact .inl ⟨by omega, h1, by rw [h2]; rfl⟩

end Sys2Proof.Machine
end

