-- ==== Sys2Proof/Laws/Unfilter.lean ====
section
/-! SUPPORT. What the operations of a scanline can do (R300-R305): the byte loop, the loop's exit, the start of a run. -/
namespace Sys2Proof.Machine

/-- The neighbours of a byte depend on `ROWS`, `ROW`, `STRIDE` and `BPP` only. -/
theorem UUnit.left_congr {u v : UUnit} (i : Nat) (h : u.rows = v.rows) (hr : u.row = v.row) (hs : u.stride = v.stride)
    (hb : u.bpp = v.bpp) : u.left i = v.left i := by
  simp only [UUnit.left, h, hr, hs, hb]

/-- The prediction of a byte of the row reads no byte of the row from that byte on (R78), so it is the same before and
after they are written. -/
theorem UUnit.prediction_congr {u v : UUnit} {i : Nat} (hr : v.row = u.row) (hs : v.stride = u.stride)
    (hb : v.bpp = u.bpp) (h1 : 1 ≤ u.bpp.toNat) (hi : i < u.stride)
    (h : ∀ a < u.row * u.stride + i, v.rows.read a = u.rows.read a) :
    v.left i = u.left i ∧ v.above i = u.above i ∧ v.upLeft i = u.upLeft i := by
  have hrow : 1 ≤ u.row → u.row * u.stride = (u.row - 1) * u.stride + u.stride := by
    intro hr
    obtain ⟨r, hr⟩ : ∃ r, u.row = r + 1 := ⟨u.row - 1, by omega⟩
    rw [hr]
    simp [Nat.add_mul]
  refine ⟨?_, ?_, ?_⟩
  · simp only [UUnit.left, hr, hs, hb]
    split
    · rw [h _ (by omega)]
    · rfl
  · simp only [UUnit.above, hr, hs]
    split
    · rw [h _ (by have := hrow ‹_›; omega)]
    · rfl
  · simp only [UUnit.upLeft, hr, hs, hb]
    split
    · rename_i hc
      rw [h _ (by have := hrow hc.1; omega)]
    · rfl

/-- The byte loop writes `n` bytes from `COL` on, each the filtered byte plus its prediction from the bytes as they are
in the end, and changes nothing else (R303). -/
theorem unfilterBytes_spec {raw : Memory} {n : Nat} {u : UUnit} (h : u.rows.wf) (hb : 1 ≤ u.bpp.toNat)
    (hn : u.col + n ≤ u.stride) :
    unfilterBytes raw n u = { u with rows := (unfilterBytes raw n u).rows, col := u.col + n } ∧
      (unfilterBytes raw n u).rows.wf ∧
      ∀ a, (unfilterBytes raw n u).rows.read a =
        if u.row * u.stride + u.col ≤ a ∧ a < u.row * u.stride + u.col + n then
          { u with rows := (unfilterBytes raw n u).rows, col := a - u.row * u.stride }.rebuilt raw
        else u.rows.read a := by
  induction n generalizing u with
  | zero => exact ⟨rfl, h, fun a => by rw [if_neg (by omega)]; rfl⟩
  | succ n ih =>
    let v : UUnit :=
      { u with rows := u.rows.write (u.row * u.stride + u.col) (u.rebuilt raw), col := u.col + 1 }
    have hv : ∀ a, v.rows.read a = if a = u.row * u.stride + u.col then u.rebuilt raw else u.rows.read a :=
      Memory.read_write h _ _
    obtain ⟨h1, h2, h3⟩ := ih (u := v) (Memory.write_wf h _ _) hb (by show u.col + 1 + n ≤ u.stride; omega)
    have hc : unfilterBytes raw (n + 1) u = unfilterBytes raw n v := rfl
    rw [hc]
    refine ⟨?_, h2, fun a => ?_⟩
    · conv_lhs => rw [h1]
      simp only [v, Nat.add_assoc, Nat.add_comm 1]
    · rw [h3 a]
      show (if u.row * u.stride + (u.col + 1) ≤ a ∧ a < u.row * u.stride + (u.col + 1) + n then _ else _) = _
      by_cases ha : a = u.row * u.stride + u.col
      · subst ha
        rw [if_neg (by omega), hv, if_pos rfl, if_pos (by omega)]
        have hcol : u.row * u.stride + u.col - u.row * u.stride = u.col := by omega
        obtain ⟨p1, p2, p3⟩ := UUnit.prediction_congr (u := u)
          (v := { u with rows := (unfilterBytes raw n v).rows, col := u.col }) (i := u.col) rfl rfl rfl hb
          (by omega) (fun a ha => by
            rw [h3 a]
            show (if u.row * u.stride + (u.col + 1) ≤ a ∧ a < u.row * u.stride + (u.col + 1) + n then _ else _) = _
            rw [if_neg (by omega), hv, if_neg (by omega)])
        rw [hcol]
        simp only [UUnit.rebuilt, UUnit.rowBase, p1, p2, p3]
      · by_cases hin : u.row * u.stride + (u.col + 1) ≤ a ∧ a < u.row * u.stride + (u.col + 1) + n
        · rw [if_pos hin, if_pos (by omega)]
        · rw [if_neg hin, if_neg (by omega), hv, if_neg ha]

/-- The loop test of a run (R300). -/
theorem UUnit.nextRow_cases (u : UUnit) :
    (u.row < u.height.toNat ∧ u.nextRow = u) ∨
    (u.height.toNat ≤ u.row ∧ u.nextRow = { u with rowsLen := u.height.toNat * u.stride, phase := .done }) := by
  unfold UUnit.nextRow
  split
  · exact .inl ⟨‹_›, rfl⟩
  · exact .inr ⟨by omega, rfl⟩

/-- Legal bytes per pixel are 1 to 4 (R301). -/
theorem UUnit.bppLegal_iff (u : UUnit) : u.bppLegal = true ↔ 1 ≤ u.bpp.toNat ∧ u.bpp.toNat ≤ 4 := by
  unfold UUnit.bppLegal
  generalize u.bpp = b
  revert b
  decide

/-- A scanline with a legal selector always completes (R303). -/
theorem rowElement_eq (ft : Nat) (raw : Memory) (u : UUnit) :
    rowElement ft raw u =
      .ok () { unfilterBytes raw u.stride { u with ft := ft, col := 0 } with
        row := (unfilterBytes raw u.stride { u with ft := ft, col := 0 }).row + 1 }.nextRow := rfl

/-- Everything `U_CMD.START` can do (R300, R301). -/
theorem UUnit.begin_cases (u : UUnit) :
    let v : UUnit := { u with start := false, chainCmd := false, chained := u.chainCmd, errKind := none, rowsLen := 0 }
    (u.bppLegal = true ∧
        u.begin = .ok () { v with stride := u.width.toNat * u.bpp.toNat, row := 0, phase := .rowHdr }.nextRow) ∨
    (u.bppLegal = false ∧ u.begin = .raised (v.raise .unsupported)) := by
  intro v
  have hv : v.bppLegal = u.bppLegal := rfl
  unfold UUnit.begin
  cases h : u.bppLegal
  · exact .inr ⟨rfl, by simp only [v] at hv ⊢; simp [hv, h]⟩
  · exact .inl ⟨rfl, by simp only [v] at hv ⊢; simp [hv, h]⟩

end Sys2Proof.Machine
end

