-- ==== Sys2Proof/Laws/Frame.lean ====
section
/-! SUPPORT. What no element of a unit does: a frame that every operation of the I-unit keeps, one that every operation of
the U-unit keeps, and which unit an element belongs to. -/
namespace Sys2Proof.Machine

/-! ## The I-unit -/

/-- `w` is `u` some operations later in the same run: the host's side is as it was, the cursor has not moved back, and
bytes have only been appended to `OUT`. -/
structure IUnit.Extends (u w : IUnit) : Prop where
  start : w.start = u.start
  nlenCheck : w.nlenCheck = u.nlenCheck
  strictPeek : w.strictPeek = u.strictPeek
  inLen : w.inLen = u.inLen
  inp : w.inp = u.inp
  bitpos : u.bitpos ≤ w.bitpos
  cursor : u.bitpos ≤ 8 * u.inLen → w.bitpos ≤ 8 * u.inLen
  outlen : u.outlen ≤ w.outlen
  out_wf : u.out.wf → w.out.wf
  out_read : u.out.wf → ∀ a, w.out.read a ≠ u.out.read a → u.outlen ≤ a ∧ a < w.outlen

theorem IUnit.Extends.refl (u : IUnit) : u.Extends u :=
  ⟨rfl, rfl, rfl, rfl, rfl, le_refl _, id, le_refl _, id, fun _ _ h => absurd rfl h⟩

theorem IUnit.Extends.trans {u v w : IUnit} (h : u.Extends v) (k : v.Extends w) : u.Extends w where
  start := k.start.trans h.start
  nlenCheck := k.nlenCheck.trans h.nlenCheck
  strictPeek := k.strictPeek.trans h.strictPeek
  inLen := k.inLen.trans h.inLen
  inp := k.inp.trans h.inp
  bitpos := le_trans h.bitpos k.bitpos
  cursor := fun hb => by
    have h1 := h.cursor hb
    have h2 := k.cursor
    rw [h.inLen] at h2
    exact h2 h1
  outlen := le_trans h.outlen k.outlen
  out_wf := fun hw => k.out_wf (h.out_wf hw)
  out_read := fun hw a ha => by
    by_cases hv : v.out.read a = u.out.read a
    · have := k.out_read (h.out_wf hw) a (by rwa [hv])
      have := h.outlen
      omega
    · have := h.out_read hw a hv
      have := k.outlen
      omega

/-- An operation that moves the cursor forward within the buffer. -/
theorem IUnit.extends_seek {u : IUnit} {p : Nat} (h : u.bitpos ≤ p) (h' : u.bitpos ≤ 8 * u.inLen → p ≤ 8 * u.inLen) :
    u.Extends (u.seek p) :=
  ⟨rfl, rfl, rfl, rfl, rfl, h, h', le_refl _, id, fun _ _ h => absurd rfl h⟩

/-- An operation that writes working registers, arrays or tables only. -/
theorem IUnit.extends_of_eq {u w : IUnit} (h1 : w.start = u.start := by rfl)
    (h2 : w.nlenCheck = u.nlenCheck := by rfl) (h3 : w.strictPeek = u.strictPeek := by rfl)
    (h4 : w.inLen = u.inLen := by rfl) (h5 : w.inp = u.inp := by rfl) (h6 : w.bitpos = u.bitpos := by rfl)
    (h7 : w.outlen = u.outlen := by rfl) (h8 : w.out = u.out := by rfl) : u.Extends w :=
  ⟨h1, h2, h3, h4, h5, h6.ge, fun h => h6 ▸ h, h7.ge, fun h => h8 ▸ h, fun _ a h => absurd (by rw [h8]) h⟩

theorem IUnit.extends_append (u : IUnit) (b : Byte) : u.Extends (u.append b) where
  start := rfl
  nlenCheck := rfl
  strictPeek := rfl
  inLen := rfl
  inp := rfl
  bitpos := le_refl _
  cursor := id
  outlen := Nat.le_succ _
  out_wf := fun h => IUnit.append_out_wf h b
  out_read := fun h a ha => by
    rw [IUnit.append_out_read h] at ha
    have : a = u.outlen := by
      by_contra hne
      exact ha (if_neg hne)
    subst this
    exact ⟨le_refl _, Nat.lt_succ_self _⟩

theorem IUnit.extends_raise (u : IUnit) (k : ErrKind) : u.Extends (u.raise k) :=
  IUnit.extends_of_eq

theorem IUnit.extends_appended {n : Nat} {b : Nat → Byte} {u t : IUnit} (hw : t.out.wf)
    (h : IUnit.Appended n b u t) : u.Extends t := by
  obtain ⟨ht, hr⟩ := h
  have e : ∀ {α : Type} (f : IUnit → α), f t = f { u with out := t.out, outlen := u.outlen + n } :=
    fun f => congrArg f ht
  have ho : t.outlen = u.outlen + n := e IUnit.outlen
  refine ⟨e IUnit.start, e IUnit.nlenCheck, e IUnit.strictPeek, e IUnit.inLen, e IUnit.inp,
    (e IUnit.bitpos).ge, fun h => (e IUnit.bitpos).symm ▸ h, by omega, fun _ => hw, fun _ a ha => ?_⟩
  rw [hr a] at ha
  by_contra hn
  exact ha (if_neg (by omega))

/-- The frame of a result: it holds of the state completed with and of the state raised in. -/
def Res.Extends {α : Type} (u : IUnit) (r : Res IUnit α) : Prop :=
  (∀ a w, r = .ok a w → u.Extends w) ∧ ∀ w, r = .raised w → u.Extends w

section
variable {α β : Type} {u v : IUnit}

theorem Res.extends_ok {a : α} (h : u.Extends v) : Res.Extends u (.ok a v) :=
  ⟨fun _ _ e => by cases e; exact h, fun _ e => nomatch e⟩

theorem Res.extends_raised (h : u.Extends v) : Res.Extends u (.raised v : Res IUnit α) :=
  ⟨fun _ _ e => (nomatch e), fun _ e => by cases e; exact h⟩

theorem Res.extends_fault {e : Fault} : Res.Extends u (.fault e : Res IUnit α) :=
  ⟨fun _ _ e => (nomatch e), fun _ e => nomatch e⟩

theorem Res.extends_refused {e : Refusal} : Res.Extends u (.refused e : Res IUnit α) :=
  ⟨fun _ _ e => (nomatch e), fun _ e => nomatch e⟩

theorem Res.extends_trans {r : Res IUnit α} (h : u.Extends v) (k : Res.Extends v r) : Res.Extends u r :=
  ⟨fun a w e => h.trans (k.1 a w e), fun w e => h.trans (k.2 w e)⟩

/-- The frame of a sequence is the frame of its parts. -/
theorem Res.extends_bind {r : Res IUnit α} {f : α → IUnit → Res IUnit β} (h : Res.Extends u r)
    (k : ∀ a w, r = .ok a w → Res.Extends w (f a w)) : Res.Extends u (r.bind f) := by
  cases r with
  | ok a w => exact Res.extends_trans (h.1 a w rfl) (k a w rfl)
  | raised w => exact Res.extends_raised (h.2 w rfl)
  | fault e => exact Res.extends_fault
  | refused e => exact Res.extends_refused

end

theorem readBits_extends (n : Nat) (u : IUnit) : Res.Extends u (readBits n u) := by
  unfold readBits
  split
  · exact Res.extends_fault
  · split
    · exact Res.extends_raised (u.extends_raise _)
    · exact Res.extends_ok (IUnit.extends_seek (by omega) fun _ => by omega)

theorem basePlusExtra_extends (base n : Nat) (u : IUnit) : Res.Extends u (basePlusExtra base n u) := by
  refine Res.extends_bind ?_ fun x w _ => Res.extends_ok (.refl w)
  unfold readExtra
  split
  · exact Res.extends_ok (.refl u)
  · exact readBits_extends n u

theorem decodeSym_extends (t : Table) (u : IUnit) : Res.Extends u (decodeSym t u) := by
  unfold decodeSym
  split
  · exact Res.extends_raised (u.extends_raise _)
  · split
    · split <;> exact Res.extends_raised (u.extends_raise _)
    · split
      · exact Res.extends_raised (u.extends_raise _)
      · refine Res.extends_bind ?_ fun x w _ => Res.extends_ok (.refl w)
        unfold skipBits
        split
        · exact Res.extends_ok (IUnit.extends_seek (by omega) fun _ => by omega)
        · exact Res.extends_fault

theorem buildTable_extends (lens : List Nat) (u : IUnit) : Res.Extends u (buildTable lens u) := by
  unfold buildTable
  split
  · exact Res.extends_ok (.refl u)
  · exact Res.extends_raised (u.extends_raise _)

theorem copyStored_extends (n : Nat) (u : IUnit) : Res.Extends u (copyStored n u) := by
  induction n generalizing u with
  | zero => exact Res.extends_ok (.refl u)
  | succ n ih =>
    exact Res.extends_bind (readBits_extends 8 u) fun b w _ => Res.extends_trans (w.extends_append _) (ih _)

theorem alignCursor_extends (u : IUnit) : u.Extends (alignCursor u) :=
  IUnit.extends_seek (by omega) fun _ => by omega

theorem endBlock_extends (u : IUnit) : u.Extends (endBlock u) := by
  unfold endBlock
  split <;> exact IUnit.extends_of_eq

theorem storedBody_extends (u : IUnit) : Res.Extends u (storedBody u) := by
  refine Res.extends_bind ?_ fun _ w _ => ?_
  · refine Res.extends_trans (alignCursor_extends u) (Res.extends_bind (readBits_extends 16 _) fun a w _ => ?_)
    refine Res.extends_trans (v := { w with slen := a }) IUnit.extends_of_eq ?_
    exact Res.extends_bind (readBits_extends 16 _) fun b w _ => Res.extends_ok IUnit.extends_of_eq
  · split
    · exact Res.extends_raised (w.extends_raise _)
    · exact Res.extends_bind (copyStored_extends _ w) fun _ w _ => Res.extends_ok (endBlock_extends w)

theorem dynHeader_extends (u : IUnit) : Res.Extends u (dynHeader u) := by
  refine Res.extends_bind ?_ fun _ w _ => ?_
  · refine Res.extends_bind (readBits_extends 5 u) fun a w _ => ?_
    refine Res.extends_trans (v := { w with hlit := a + 257 }) IUnit.extends_of_eq ?_
    refine Res.extends_bind (readBits_extends 5 _) fun b w _ => ?_
    refine Res.extends_trans (v := { w with hdist := b + 1 }) IUnit.extends_of_eq ?_
    exact Res.extends_bind (readBits_extends 4 _) fun c w _ => Res.extends_ok IUnit.extends_of_eq
  · refine Res.extends_trans (v := { w with cllen := List.replicate 19 0 }) IUnit.extends_of_eq ?_
    refine Res.extends_bind ?_ fun _ w _ => ?_
    · generalize order.take w.hclen = l
      generalize ({ w with cllen := List.replicate 19 0 } : IUnit) = v
      induction l generalizing v with
      | nil => exact Res.extends_ok (.refl v)
      | cons s l ih =>
        exact Res.extends_bind (readBits_extends 3 v) fun x w _ =>
          Res.extends_trans (v := { w with cllen := w.cllen.set s x }) IUnit.extends_of_eq (ih _)
    · exact Res.extends_bind (buildTable_extends _ w) fun t w _ => Res.extends_ok IUnit.extends_of_eq

theorem pushLens_extends (n v : Nat) (u : IUnit) : u.Extends (pushLens n v u) := by
  induction n generalizing u with
  | zero => exact .refl u
  | succ n ih =>
    exact .trans (v := { u with llen := u.llen.set u.lidx v, lidx := u.lidx + 1 }) IUnit.extends_of_eq (ih _)

theorem endCodeLength_extends (u : IUnit) : Res.Extends u (endCodeLength u) := by
  unfold endCodeLength
  split
  · refine Res.extends_bind (buildTable_extends _ u) fun lt w _ => ?_
    refine Res.extends_trans (v := { w with ltab := lt }) IUnit.extends_of_eq ?_
    exact Res.extends_bind (buildTable_extends _ _) fun dt w _ => Res.extends_ok IUnit.extends_of_eq
  · exact Res.extends_ok (.refl u)

theorem repeatLen_extends (rep v : Nat) (u : IUnit) : Res.Extends u (repeatLen rep v u) := by
  unfold repeatLen
  split
  · exact Res.extends_raised (u.extends_raise _)
  · exact Res.extends_trans (pushLens_extends rep v u) (endCodeLength_extends _)

theorem copyMatch_extends (n : Nat) (u : IUnit) : u.Extends (copyMatch n u) := by
  induction n generalizing u with
  | zero => exact .refl u
  | succ n ih => exact (u.extends_append _).trans (ih _)

theorem distElement_extends (d : Nat) (u : IUnit) : Res.Extends u (distElement d u) := by
  refine Res.extends_trans (v := { u with dsym := d }) IUnit.extends_of_eq ?_
  refine Res.extends_bind (basePlusExtra_extends _ _ _) fun m w _ => ?_
  refine Res.extends_trans (v := { w with mdist := m }) IUnit.extends_of_eq ?_
  split
  · exact Res.extends_raised (IUnit.extends_raise _ _)
  · exact Res.extends_ok (copyMatch_extends _ _)

theorem rsvd_extends (sym : Nat) (u : IUnit) : Res.Extends u (rsvd sym u) :=
  Res.extends_raised (.trans (v := { u with dsym := sym }) IUnit.extends_of_eq (IUnit.extends_raise _ _))

theorem distance_extends (u : IUnit) : Res.Extends u (distance u) := by
  refine Res.extends_bind (decodeSym_extends _ u) fun d w _ => ?_
  by_cases h : d < 30
  · rw [distSymbol_of_lt h]
    exact distElement_extends d w
  · by_cases h' : d = 30 ∨ d = 31
    · rw [distSymbol_reserved h']
      exact rsvd_extends d w
    · rw [distSymbol_of_gt (by omega)]
      exact Res.extends_refused

theorem matchElement_extends (sym : Nat) (u : IUnit) : Res.Extends u (matchElement sym u) := by
  refine Res.extends_trans (v := u.setSym sym) IUnit.extends_of_eq ?_
  refine Res.extends_bind (basePlusExtra_extends _ _ _) fun m w _ => ?_
  exact Res.extends_trans (v := { w with mlen := m }) IUnit.extends_of_eq (distance_extends _)

/-! ## The U-unit -/

/-- `w` is `u` some operations later in the same run: the host's side and the geometry are as they were. -/
structure UUnit.Extends (u w : UUnit) : Prop where
  start : w.start = u.start
  chainCmd : w.chainCmd = u.chainCmd
  chained : w.chained = u.chained
  width : w.width = u.width
  height : w.height = u.height
  bpp : w.bpp = u.bpp
  rawLen : w.rawLen = u.rawLen
  raw : w.raw = u.raw
  stride : w.stride = u.stride
  rows_wf : u.rows.wf → w.rows.wf

theorem UUnit.Extends.refl (u : UUnit) : u.Extends u := ⟨rfl, rfl, rfl, rfl, rfl, rfl, rfl, rfl, rfl, id⟩

theorem UUnit.Extends.trans {u v w : UUnit} (h : u.Extends v) (k : v.Extends w) : u.Extends w :=
  ⟨k.1.trans h.1, k.2.trans h.2, k.3.trans h.3, k.4.trans h.4, k.5.trans h.5, k.6.trans h.6, k.7.trans h.7,
    k.8.trans h.8, k.9.trans h.9, fun hw => k.10 (h.10 hw)⟩

theorem unfilterBytes_extends (raw : Memory) (n : Nat) (u : UUnit) : u.Extends (unfilterBytes raw n u) := by
  induction n generalizing u with
  | zero => exact .refl u
  | succ n ih =>
    refine .trans (v := { u with
      rows := u.rows.write (u.row * u.stride + u.col) (u.rebuilt raw), col := u.col + 1 }) ?_ (ih _)
    exact ⟨rfl, rfl, rfl, rfl, rfl, rfl, rfl, rfl, rfl, fun h => Memory.write_wf h _ _⟩

theorem UUnit.nextRow_extends (u : UUnit) : u.Extends u.nextRow := by
  rcases u.nextRow_cases with ⟨-, h⟩ | ⟨-, h⟩ <;> rw [h] <;> exact ⟨rfl, rfl, rfl, rfl, rfl, rfl, rfl, rfl, rfl, id⟩

theorem rowElement_extends {ft : Nat} {raw : Memory} {u w : UUnit} (h : rowElement ft raw u = .ok () w) :
    u.Extends w := by
  rw [rowElement_eq] at h
  cases h
  refine .trans (v := { u with ft := ft, col := 0 }) ⟨rfl, rfl, rfl, rfl, rfl, rfl, rfl, rfl, rfl, id⟩ ?_
  refine .trans (unfilterBytes_extends raw u.stride _) (.trans ?_ (UUnit.nextRow_extends _))
  exact ⟨rfl, rfl, rfl, rfl, rfl, rfl, rfl, rfl, rfl, id⟩

/-! ## Elements -/

/-- A stream element belongs to the I-unit: its step is an operation of that unit within the frame. -/
theorem exec_onI {e : Instr} (h : (encode e).1 ≠ .fs) (s : State) :
    ∃ r, exec e s = onI s r ∧ Res.Extends s.i r := by
  cases e with
  | stored b => exact ⟨_, rfl, Res.extends_trans (v := s.i.setHeader b 0) IUnit.extends_of_eq (storedBody_extends _)⟩
  | fixed b => exact ⟨.ok () _, rfl, Res.extends_ok IUnit.extends_of_eq⟩
  | dynamic b => exact ⟨_, rfl, Res.extends_trans (v := s.i.setHeader b 2) IUnit.extends_of_eq (dynHeader_extends _)⟩
  | btype3 b => exact ⟨_, rfl, Res.extends_raised IUnit.extends_of_eq⟩
  | cllit n => exact ⟨_, rfl, Res.extends_trans (pushLens_extends 1 n s.i) (endCodeLength_extends _)⟩
  | cl16 =>
    refine ⟨_, rfl, ?_⟩
    split
    · exact Res.extends_raised (IUnit.extends_raise _ _)
    · exact Res.extends_bind (basePlusExtra_extends _ _ _) fun rep w _ => repeatLen_extends rep _ w
  | cl17 =>
    exact ⟨_, rfl, Res.extends_bind (basePlusExtra_extends _ _ _) fun rep w _ => repeatLen_extends rep _ w⟩
  | cl18 =>
    exact ⟨_, rfl, Res.extends_bind (basePlusExtra_extends _ _ _) fun rep w _ => repeatLen_extends rep _ w⟩
  | lit b => exact ⟨.ok () _, rfl, Res.extends_ok (.trans (v := s.i.setSym b.toNat) IUnit.extends_of_eq (IUnit.extends_append _ b))⟩
  | eob => exact ⟨.ok () _, rfl, Res.extends_ok (.trans (v := s.i.setSym 256) IUnit.extends_of_eq (endBlock_extends _))⟩
  | rsvl sym => exact ⟨_, rfl, Res.extends_raised IUnit.extends_of_eq⟩
  | rsvd sym => exact ⟨_, rfl, rsvd_extends sym _⟩
  | filterNone | filterSub | filterUp | filterAvg | filterPaeth => exact absurd rfl h
  | rsvf ft => exact absurd rfl h
  | dist0 | dist1 | dist2 | dist3 | dist4 | dist5 | dist6 | dist7 | dist8 | dist9 | dist10 | dist11 | dist12 | dist13
  | dist14 | dist15 | dist16 | dist17 | dist18 | dist19 | dist20 | dist21 | dist22 | dist23 | dist24 | dist25 | dist26
  | dist27 | dist28 | dist29 => exact ⟨_, rfl, distElement_extends _ _⟩
  | len257 | len258 | len259 | len260 | len261 | len262 | len263 | len264 | len265 | len266 | len267 | len268 | len269
  | len270 | len271 | len272 | len273 | len274 | len275 | len276 | len277 | len278 | len279 | len280 | len281 | len282
  | len283 | len284 | len285 => exact ⟨_, rfl, matchElement_extends _ _⟩

/-- A scanline belongs to the U-unit. -/
theorem exec_onU {e : Instr} (h : (encode e).1 = .fs) (s : State) :
    ∃ r, exec e s = onU s r ∧ ((∃ ft ≤ 4, r = rowElement ft s.rawSpace s.u) ∨
      ∃ ft, e = .rsvf ft ∧ r = .raised ({ s.u with ft := ft }.raise .format)) := by
  cases e with
  | filterNone => exact ⟨_, rfl, .inl ⟨0, by omega, rfl⟩⟩
  | filterSub => exact ⟨_, rfl, .inl ⟨1, by omega, rfl⟩⟩
  | filterUp => exact ⟨_, rfl, .inl ⟨2, by omega, rfl⟩⟩
  | filterAvg => exact ⟨_, rfl, .inl ⟨3, by omega, rfl⟩⟩
  | filterPaeth => exact ⟨_, rfl, .inl ⟨4, by omega, rfl⟩⟩
  | rsvf ft => exact ⟨_, rfl, .inr ⟨ft, rfl, rfl⟩⟩
  | _ => simp [encode] at h

end Sys2Proof.Machine
end

