-- ==== Sys2Proof/Laws/PerInstr.lean ====
section
/-! SUPPORT. The family of statements made once per instruction: every element's word is selected by its row of
spec/opcode_table.json (R112). -/
namespace Sys2Proof.Laws.OpcodeRow

/-- The word of a well-formed element is selected by a row of the element's format and mnemonic (R112). -/
def Statement (i : Instr) : Prop :=
  i.wf = true → ∃ r ∈ opcodeTable, r.mnemonic = i.mnemonic ∧ r.format = (encode i).1 ∧ r.selects (encode i).2 = true

/-- The row with number `n` of the table is the element's. -/
theorem of_index {i : Instr} (n : Nat) (r : OpcodeRow) (h : opcodeTable[n]? = some r) (hm : r.mnemonic = i.mnemonic)
    (hf : r.format = (encode i).1) (hs : i.wf = true → r.selects (encode i).2 = true) : Statement i :=
  fun hw => ⟨r, List.mem_of_getElem? h, hm, hf, hs hw⟩

theorem stored (bfin : Bool) : Statement (.stored bfin) :=
  of_index 0 ⟨"STORED", .bh, 0x0, 0x6⟩ rfl rfl rfl fun _ => by cases bfin <;> rfl

theorem fixed (bfin : Bool) : Statement (.fixed bfin) :=
  of_index 1 ⟨"FIXED", .bh, 0x2, 0x6⟩ rfl rfl rfl fun _ => by cases bfin <;> rfl

theorem dynamic (bfin : Bool) : Statement (.dynamic bfin) :=
  of_index 2 ⟨"DYNAMIC", .bh, 0x4, 0x6⟩ rfl rfl rfl fun _ => by cases bfin <;> rfl

theorem btype3 (bfin : Bool) : Statement (.btype3 bfin) :=
  of_index 3 ⟨"BTYPE3", .bh, 0x6, 0x6⟩ rfl rfl rfl fun _ => by cases bfin <;> rfl

theorem cllit (len : Nat) : Statement (.cllit len) :=
  of_index 4 ⟨"CLLIT", .cl, 0x0, 0x10⟩ rfl rfl rfl fun h => by
    have h : len ≤ 15 := by simpa [Instr.wf] using h
    interval_cases len <;> rfl

theorem cl16 : Statement .cl16 :=
  of_index 5 ⟨"CL16", .cl, 0x10, 0x1f⟩ rfl rfl rfl fun _ => rfl

theorem cl17 : Statement .cl17 :=
  of_index 6 ⟨"CL17", .cl, 0x11, 0x1f⟩ rfl rfl rfl fun _ => rfl

theorem cl18 : Statement .cl18 :=
  of_index 7 ⟨"CL18", .cl, 0x12, 0x1f⟩ rfl rfl rfl fun _ => rfl

theorem lit (b : Byte) : Statement (.lit b) :=
  of_index 8 ⟨"LIT", .ll, 0x0, 0x100⟩ rfl rfl rfl fun _ => by
    have key : ∀ v < 256, ((v &&& 0x100) == 0) = true := by decide +kernel
    exact key b.toNat b.isLt

theorem eob : Statement .eob :=
  of_index 9 ⟨"EOB", .ll, 0x100, 0x1ff⟩ rfl rfl rfl fun _ => rfl

theorem len257 : Statement .len257 :=
  of_index 10 ⟨"LEN257", .ll, 0x101, 0x1ff⟩ rfl rfl rfl fun _ => rfl

theorem len258 : Statement .len258 :=
  of_index 11 ⟨"LEN258", .ll, 0x102, 0x1ff⟩ rfl rfl rfl fun _ => rfl

theorem len259 : Statement .len259 :=
  of_index 12 ⟨"LEN259", .ll, 0x103, 0x1ff⟩ rfl rfl rfl fun _ => rfl

theorem len260 : Statement .len260 :=
  of_index 13 ⟨"LEN260", .ll, 0x104, 0x1ff⟩ rfl rfl rfl fun _ => rfl

theorem len261 : Statement .len261 :=
  of_index 14 ⟨"LEN261", .ll, 0x105, 0x1ff⟩ rfl rfl rfl fun _ => rfl

theorem len262 : Statement .len262 :=
  of_index 15 ⟨"LEN262", .ll, 0x106, 0x1ff⟩ rfl rfl rfl fun _ => rfl

theorem len263 : Statement .len263 :=
  of_index 16 ⟨"LEN263", .ll, 0x107, 0x1ff⟩ rfl rfl rfl fun _ => rfl

theorem len264 : Statement .len264 :=
  of_index 17 ⟨"LEN264", .ll, 0x108, 0x1ff⟩ rfl rfl rfl fun _ => rfl

theorem len265 : Statement .len265 :=
  of_index 18 ⟨"LEN265", .ll, 0x109, 0x1ff⟩ rfl rfl rfl fun _ => rfl

theorem len266 : Statement .len266 :=
  of_index 19 ⟨"LEN266", .ll, 0x10a, 0x1ff⟩ rfl rfl rfl fun _ => rfl

theorem len267 : Statement .len267 :=
  of_index 20 ⟨"LEN267", .ll, 0x10b, 0x1ff⟩ rfl rfl rfl fun _ => rfl

theorem len268 : Statement .len268 :=
  of_index 21 ⟨"LEN268", .ll, 0x10c, 0x1ff⟩ rfl rfl rfl fun _ => rfl

theorem len269 : Statement .len269 :=
  of_index 22 ⟨"LEN269", .ll, 0x10d, 0x1ff⟩ rfl rfl rfl fun _ => rfl

theorem len270 : Statement .len270 :=
  of_index 23 ⟨"LEN270", .ll, 0x10e, 0x1ff⟩ rfl rfl rfl fun _ => rfl

theorem len271 : Statement .len271 :=
  of_index 24 ⟨"LEN271", .ll, 0x10f, 0x1ff⟩ rfl rfl rfl fun _ => rfl

theorem len272 : Statement .len272 :=
  of_index 25 ⟨"LEN272", .ll, 0x110, 0x1ff⟩ rfl rfl rfl fun _ => rfl

theorem len273 : Statement .len273 :=
  of_index 26 ⟨"LEN273", .ll, 0x111, 0x1ff⟩ rfl rfl rfl fun _ => rfl

theorem len274 : Statement .len274 :=
  of_index 27 ⟨"LEN274", .ll, 0x112, 0x1ff⟩ rfl rfl rfl fun _ => rfl

theorem len275 : Statement .len275 :=
  of_index 28 ⟨"LEN275", .ll, 0x113, 0x1ff⟩ rfl rfl rfl fun _ => rfl

theorem len276 : Statement .len276 :=
  of_index 29 ⟨"LEN276", .ll, 0x114, 0x1ff⟩ rfl rfl rfl fun _ => rfl

theorem len277 : Statement .len277 :=
  of_index 30 ⟨"LEN277", .ll, 0x115, 0x1ff⟩ rfl rfl rfl fun _ => rfl

theorem len278 : Statement .len278 :=
  of_index 31 ⟨"LEN278", .ll, 0x116, 0x1ff⟩ rfl rfl rfl fun _ => rfl

theorem len279 : Statement .len279 :=
  of_index 32 ⟨"LEN279", .ll, 0x117, 0x1ff⟩ rfl rfl rfl fun _ => rfl

theorem len280 : Statement .len280 :=
  of_index 33 ⟨"LEN280", .ll, 0x118, 0x1ff⟩ rfl rfl rfl fun _ => rfl

theorem len281 : Statement .len281 :=
  of_index 34 ⟨"LEN281", .ll, 0x119, 0x1ff⟩ rfl rfl rfl fun _ => rfl

theorem len282 : Statement .len282 :=
  of_index 35 ⟨"LEN282", .ll, 0x11a, 0x1ff⟩ rfl rfl rfl fun _ => rfl

theorem len283 : Statement .len283 :=
  of_index 36 ⟨"LEN283", .ll, 0x11b, 0x1ff⟩ rfl rfl rfl fun _ => rfl

theorem len284 : Statement .len284 :=
  of_index 37 ⟨"LEN284", .ll, 0x11c, 0x1ff⟩ rfl rfl rfl fun _ => rfl

theorem len285 : Statement .len285 :=
  of_index 38 ⟨"LEN285", .ll, 0x11d, 0x1ff⟩ rfl rfl rfl fun _ => rfl

theorem rsvl (sym : Nat) : Statement (.rsvl sym) :=
  of_index 39 ⟨"RSVL", .ll, 0x11e, 0x1fe⟩ rfl rfl rfl fun h => by
    have h : 286 ≤ sym ∧ sym ≤ 287 := by simpa [Instr.wf] using h
    obtain ⟨h1, h2⟩ := h
    interval_cases sym <;> rfl

theorem dist0 : Statement .dist0 :=
  of_index 40 ⟨"DIST0", .ds, 0x0, 0x1f⟩ rfl rfl rfl fun _ => rfl

theorem dist1 : Statement .dist1 :=
  of_index 41 ⟨"DIST1", .ds, 0x1, 0x1f⟩ rfl rfl rfl fun _ => rfl

theorem dist2 : Statement .dist2 :=
  of_index 42 ⟨"DIST2", .ds, 0x2, 0x1f⟩ rfl rfl rfl fun _ => rfl

theorem dist3 : Statement .dist3 :=
  of_index 43 ⟨"DIST3", .ds, 0x3, 0x1f⟩ rfl rfl rfl fun _ => rfl

theorem dist4 : Statement .dist4 :=
  of_index 44 ⟨"DIST4", .ds, 0x4, 0x1f⟩ rfl rfl rfl fun _ => rfl

theorem dist5 : Statement .dist5 :=
  of_index 45 ⟨"DIST5", .ds, 0x5, 0x1f⟩ rfl rfl rfl fun _ => rfl

theorem dist6 : Statement .dist6 :=
  of_index 46 ⟨"DIST6", .ds, 0x6, 0x1f⟩ rfl rfl rfl fun _ => rfl

theorem dist7 : Statement .dist7 :=
  of_index 47 ⟨"DIST7", .ds, 0x7, 0x1f⟩ rfl rfl rfl fun _ => rfl

theorem dist8 : Statement .dist8 :=
  of_index 48 ⟨"DIST8", .ds, 0x8, 0x1f⟩ rfl rfl rfl fun _ => rfl

theorem dist9 : Statement .dist9 :=
  of_index 49 ⟨"DIST9", .ds, 0x9, 0x1f⟩ rfl rfl rfl fun _ => rfl

theorem dist10 : Statement .dist10 :=
  of_index 50 ⟨"DIST10", .ds, 0xa, 0x1f⟩ rfl rfl rfl fun _ => rfl

theorem dist11 : Statement .dist11 :=
  of_index 51 ⟨"DIST11", .ds, 0xb, 0x1f⟩ rfl rfl rfl fun _ => rfl

theorem dist12 : Statement .dist12 :=
  of_index 52 ⟨"DIST12", .ds, 0xc, 0x1f⟩ rfl rfl rfl fun _ => rfl

theorem dist13 : Statement .dist13 :=
  of_index 53 ⟨"DIST13", .ds, 0xd, 0x1f⟩ rfl rfl rfl fun _ => rfl

theorem dist14 : Statement .dist14 :=
  of_index 54 ⟨"DIST14", .ds, 0xe, 0x1f⟩ rfl rfl rfl fun _ => rfl

theorem dist15 : Statement .dist15 :=
  of_index 55 ⟨"DIST15", .ds, 0xf, 0x1f⟩ rfl rfl rfl fun _ => rfl

theorem dist16 : Statement .dist16 :=
  of_index 56 ⟨"DIST16", .ds, 0x10, 0x1f⟩ rfl rfl rfl fun _ => rfl

theorem dist17 : Statement .dist17 :=
  of_index 57 ⟨"DIST17", .ds, 0x11, 0x1f⟩ rfl rfl rfl fun _ => rfl

theorem dist18 : Statement .dist18 :=
  of_index 58 ⟨"DIST18", .ds, 0x12, 0x1f⟩ rfl rfl rfl fun _ => rfl

theorem dist19 : Statement .dist19 :=
  of_index 59 ⟨"DIST19", .ds, 0x13, 0x1f⟩ rfl rfl rfl fun _ => rfl

theorem dist20 : Statement .dist20 :=
  of_index 60 ⟨"DIST20", .ds, 0x14, 0x1f⟩ rfl rfl rfl fun _ => rfl

theorem dist21 : Statement .dist21 :=
  of_index 61 ⟨"DIST21", .ds, 0x15, 0x1f⟩ rfl rfl rfl fun _ => rfl

theorem dist22 : Statement .dist22 :=
  of_index 62 ⟨"DIST22", .ds, 0x16, 0x1f⟩ rfl rfl rfl fun _ => rfl

theorem dist23 : Statement .dist23 :=
  of_index 63 ⟨"DIST23", .ds, 0x17, 0x1f⟩ rfl rfl rfl fun _ => rfl

theorem dist24 : Statement .dist24 :=
  of_index 64 ⟨"DIST24", .ds, 0x18, 0x1f⟩ rfl rfl rfl fun _ => rfl

theorem dist25 : Statement .dist25 :=
  of_index 65 ⟨"DIST25", .ds, 0x19, 0x1f⟩ rfl rfl rfl fun _ => rfl

theorem dist26 : Statement .dist26 :=
  of_index 66 ⟨"DIST26", .ds, 0x1a, 0x1f⟩ rfl rfl rfl fun _ => rfl

theorem dist27 : Statement .dist27 :=
  of_index 67 ⟨"DIST27", .ds, 0x1b, 0x1f⟩ rfl rfl rfl fun _ => rfl

theorem dist28 : Statement .dist28 :=
  of_index 68 ⟨"DIST28", .ds, 0x1c, 0x1f⟩ rfl rfl rfl fun _ => rfl

theorem dist29 : Statement .dist29 :=
  of_index 69 ⟨"DIST29", .ds, 0x1d, 0x1f⟩ rfl rfl rfl fun _ => rfl

theorem rsvd (sym : Nat) : Statement (.rsvd sym) :=
  of_index 70 ⟨"RSVD", .ds, 0x1e, 0x1e⟩ rfl rfl rfl fun h => by
    have h : 30 ≤ sym ∧ sym ≤ 31 := by simpa [Instr.wf] using h
    obtain ⟨h1, h2⟩ := h
    interval_cases sym <;> rfl

theorem filterNone : Statement .filterNone :=
  of_index 71 ⟨"NONE", .fs, 0x0, 0xff⟩ rfl rfl rfl fun _ => rfl

theorem filterSub : Statement .filterSub :=
  of_index 72 ⟨"SUB", .fs, 0x1, 0xff⟩ rfl rfl rfl fun _ => rfl

theorem filterUp : Statement .filterUp :=
  of_index 73 ⟨"UP", .fs, 0x2, 0xff⟩ rfl rfl rfl fun _ => rfl

theorem filterAvg : Statement .filterAvg :=
  of_index 74 ⟨"AVG", .fs, 0x3, 0xff⟩ rfl rfl rfl fun _ => rfl

theorem filterPaeth : Statement .filterPaeth :=
  of_index 75 ⟨"PAETH", .fs, 0x4, 0xff⟩ rfl rfl rfl fun _ => rfl

theorem rsvf (ft : Nat) : Statement (.rsvf ft) := by
  intro h
  have h' : 5 ≤ ft ∧ ft ≤ 255 := by simpa [Instr.wf] using h
  have key : ∀ v < 256, 5 ≤ v → ∃ r ∈ rowsFS.drop 5, r.selects v = true := by decide +kernel
  have rows : ∀ r ∈ rowsFS.drop 5, r.mnemonic = "RSVF" ∧ r.format = .fs := by decide
  obtain ⟨r, hr, hs⟩ := key ft (by omega) h'.1
  exact ⟨r, List.mem_append_right _ (List.mem_of_mem_drop hr), (rows r hr).1, (rows r hr).2, hs⟩

end Sys2Proof.Laws.OpcodeRow
end

