-- ==== Sys2Proof/Laws/Step.lean ====
section
/-! SUPPORT. Everything a step can do: which unit goes, what its step is, and what a host action can do. -/
namespace Sys2Proof.Machine

/-- What fits is what is within the bounds. -/
theorem State.fits_iff (s : State) (b : Bounds) : s.fits b = true ↔ s.within b := by
  cases b with
  | mk m n => cases m <;> cases n <;> simp [State.fits, State.within]

/-- Everything the bounds can do to an outcome: a next state beyond them is refused, and nothing else changes. -/
theorem bounded_cases (b : Bounds) (o : Host.Outcome State Fault Refusal) :
    bounded b o = o ∨ ∃ t, o = .next t ∧ ¬ t.within b ∧ bounded b o = .refused .overCapacity := by
  cases o with
  | next t =>
    by_cases h : t.fits b = true
    · exact .inl (if_pos h)
    · exact .inr ⟨t, rfl, fun hw => h ((t.fits_iff b).2 hw), if_neg h⟩
  | fault e => exact .inl rfl
  | refused e => exact .inl rfl

/-- A bounded implementation reaches just the next states within its bounds. -/
theorem bounded_eq_next {b : Bounds} {o : Host.Outcome State Fault Refusal} {t : State} :
    bounded b o = .next t ↔ o = .next t ∧ t.within b := by
  cases o with
  | next v =>
    simp only [bounded, ← State.fits_iff]
    split
    · exact ⟨fun h => (by cases h; exact ⟨rfl, ‹_›⟩), And.left⟩
    · exact ⟨fun h => (by cases h), fun h => (by cases h.1; exact absurd h.2 ‹_›)⟩
  | fault e => simp [bounded]
  | refused e => simp [bounded]

/-- Without bounds nothing is refused for its size (R8). -/
@[simp] theorem bounded_unbounded (o : Host.Outcome State Fault Refusal) : bounded Bounds.unbounded o = o := by
  cases o <;> rfl

/-- The step with the default bounds. -/
theorem step_eq (s : State) : step s = stepUnits s := bounded_unbounded _

/-- A host action with the default bounds. -/
theorem hostAct_eq (a : HostAct) (s : State) : hostAct a s = hostActUnits a s := bounded_unbounded _

/-- Which unit goes (R370): the one that is ready, a free draw between two, or nothing. -/
theorem step_cases (s : State) :
    (s.iReady = true ∧ s.uReady = true ∧ Config.iUnitFirst s.tick = true ∧
        step s = stepI { s with tick := s.tick + 1 }) ∨
    (s.iReady = true ∧ s.uReady = true ∧ Config.iUnitFirst s.tick = false ∧
        step s = stepU { s with tick := s.tick + 1 }) ∨
    (s.iReady = true ∧ s.uReady = false ∧ step s = stepI s) ∨
    (s.iReady = false ∧ s.uReady = true ∧ step s = stepU s) ∨
    (s.iReady = false ∧ s.uReady = false ∧ step s = .next s) := by
  rw [step_eq]
  unfold stepUnits
  cases s.iReady <;> cases s.uReady <;> cases Config.iUnitFirst s.tick <;> simp

/-- Everything the I-unit can do: take the command, run an element fetched by its phase, or rest (R28, R180). -/
theorem stepI_cases (s : State) :
    (s.i.start = true ∧ stepI s = startI s) ∨
    (s.i.start = false ∧ s.i.phase = .hdr ∧ stepI s = runI s (fetchHeader s.i)) ∨
    (s.i.start = false ∧ s.i.phase = .clen ∧ stepI s = runI s (fetchSymbol .cl s.i.cltab s.i)) ∨
    (s.i.start = false ∧ s.i.phase = .body ∧ stepI s = runI s (fetchSymbol .ll s.i.ltab s.i)) ∨
    (s.i.start = false ∧ s.i.busy = false ∧ stepI s = .next s) := by
  unfold stepI fetchI IUnit.busy
  cases s.i.start <;> cases s.i.phase <;> simp

/-- Taking `I_CMD.START` (R38). -/
theorem startI_cases (s : State) :
    (s.i.busy = false ∧ s.u.usesOut = false ∧ startI s = .next { s with i := s.i.begin }) ∨
    startI s = .refused .hostWhileBusy := by
  unfold startI
  cases s.i.busy <;> cases s.u.usesOut <;> simp

/-- What running a fetched element can do. -/
theorem runI_eq_next {s t : State} {r : Res IUnit (Format × Nat)} (h : runI s r = .next t) :
    (∃ w v e, r = .ok w v ∧ decode w.1 w.2 = .ok e ∧ exec e { s with i := v } = .next t) ∨
    (∃ v, r = .raised v ∧ t = { s with i := v }) := by
  unfold runI at h
  cases r with
  | ok w v =>
    cases hd : decode w.1 w.2 with
    | ok e => exact .inl ⟨w, v, e, rfl, hd, by simpa only [hd] using h⟩
    | error e => simp [hd] at h
  | raised v => exact .inr ⟨v, rfl, by simpa [eq_comm] using h⟩
  | fault e => simp at h
  | refused e => simp at h

/-- Everything the block header's fetch can do (R181): three bits, or the stream ends. -/
theorem fetchHeader_cases (u : IUnit) :
    (u.bitpos + 3 ≤ 8 * u.inLen ∧ fetchHeader u = .ok (.bh, bitField u.inBit 3 u.bitpos)
        { u with bfinal := u.inBit u.bitpos == 1, bitpos := u.bitpos + 3 }) ∨
    (8 * u.inLen < u.bitpos + 3 ∧ ∃ v : IUnit, fetchHeader u = .raised (v.raise .truncated) ∧
        v = { u with bfinal := v.bfinal, bitpos := v.bitpos } ∧ u.bitpos ≤ v.bitpos ∧
        (u.bitpos ≤ 8 * u.inLen → v.bitpos ≤ 8 * u.inLen)) := by
  have h1 : bitField u.inBit 1 u.bitpos = u.inBit u.bitpos := by simp [bitField]
  have h3 : bitField u.inBit 3 u.bitpos = u.inBit u.bitpos + 2 * bitField u.inBit 2 (u.bitpos + 1) := rfl
  rcases readBits_cases (n := 1) (u := u) (by omega) with ⟨hb, hr⟩ | ⟨hb, hr⟩
  · rcases readBits_cases (n := 2) (u := { u.seek (u.bitpos + 1) with bfinal := u.inBit u.bitpos == 1 }) (by omega) with
      ⟨hb', hr'⟩ | ⟨hb', hr'⟩
    · refine .inl ⟨hb', ?_⟩
      unfold fetchHeader
      rw [hr, Res.bind_ok, h1, hr', h3]
      rfl
    · refine .inr ⟨hb', { u.seek (u.bitpos + 1) with bfinal := u.inBit u.bitpos == 1 }, ?_, rfl, Nat.le_succ _, fun _ => hb⟩
      unfold fetchHeader
      rw [hr, Res.bind_ok, h1, hr']
      rfl
  · exact .inr ⟨by omega, u, by simp [fetchHeader, hr], rfl, le_refl _, id⟩

/-- A symbol's fetch is a decode (R194, R200). -/
theorem fetchSymbol_eq (f : Format) (t : Table) (u : IUnit) :
    fetchSymbol f t u = (decodeSym t u).bind fun v w => .ok (f, v) w := rfl

/-- Everything the U-unit can do: take the command, run the next scanline, leave the loop, or rest (R300). -/
theorem stepU_cases (s : State) :
    (s.u.start = true ∧ stepU s = startU s) ∨
    (s.u.start = false ∧ s.u.busy = true ∧ s.u.row < s.u.height.toNat ∧
        stepU s = runU s (fetchRow s.rawSpace s.rawLen s.u)) ∨
    (s.u.start = false ∧ s.u.busy = true ∧ s.u.height.toNat ≤ s.u.row ∧ stepU s = .next { s with u := s.u.nextRow }) ∨
    (s.u.start = false ∧ s.u.busy = false ∧ stepU s = .next s) := by
  unfold stepU
  cases s.u.start <;> cases s.u.busy <;> simp
  by_cases h : s.u.row < s.u.height.toNat
  · exact .inl ⟨h, by simp [h]⟩
  · exact .inr ⟨by omega, by simp [h]⟩

/-- Taking `U_CMD.START` (R300, R77). -/
theorem startU_cases (s : State) :
    (s.u.busy = false ∧ (s.u.chainCmd = true → s.i.phase = .done) ∧ startU s = onU s s.u.begin) ∨
    startU s = .refused .hostWhileBusy ∨ startU s = .refused .chainWithoutResult := by
  unfold startU
  cases s.u.busy
  · by_cases h : s.u.chainCmd = true ∧ s.i.phase ≠ .done
    · exact .inr (.inr (by simp [h]))
    · refine .inl ⟨rfl, fun hc => by_contra fun hp => h ⟨hc, hp⟩, ?_⟩
      rw [if_neg (by simp), if_neg (by simpa using h)]
  · exact .inr (.inl (by simp))

/-- What running a fetched scanline can do. -/
theorem runU_eq_next {s t : State} {r : Res UUnit (Format × Nat)} (h : runU s r = .next t) :
    (∃ w v e, r = .ok w v ∧ decode w.1 w.2 = .ok e ∧ exec e { s with u := v } = .next t) ∨
    (∃ v, r = .raised v ∧ t = { s with u := v }) := by
  unfold runU at h
  cases r with
  | ok w v =>
    cases hd : decode w.1 w.2 with
    | ok e => exact .inl ⟨w, v, e, rfl, hd, by simpa only [hd] using h⟩
    | error e => simp [hd] at h
  | raised v => exact .inr ⟨v, rfl, by simpa [eq_comm] using h⟩
  | fault e => simp at h
  | refused e => simp at h

/-- Everything a scanline's fetch can do (R302, R303). -/
theorem fetchRow_cases (raw : Memory) (rawLen : Nat) (u : UUnit) :
    (u.rowBase + 1 + u.stride ≤ rawLen ∧ fetchRow raw rawLen u = .ok (.fs, (raw.read u.rowBase).toNat) u) ∨
    (rawLen < u.rowBase + 1 + u.stride ∧ fetchRow raw rawLen u = .raised (u.raise .truncated)) := by
  unfold fetchRow
  split
  · exact .inr ⟨‹_›, rfl⟩
  · exact .inl ⟨by omega, rfl⟩

/-- A selector byte always selects an element (R108). -/
theorem decodeFS_byte (b : Byte) : ∃ e, decode .fs b.toNat = .ok e ∧ encode e = (.fs, b.toNat) := by
  have h : b.toNat < 256 := b.isLt
  generalize b.toNat = v at h
  match v with
  | 0 | 1 | 2 | 3 | 4 => exact ⟨_, rfl, rfl⟩
  | v + 5 => exact ⟨.rsvf (v + 5), by simp [decode, decodeFS]; omega, rfl⟩

/-- The element of a decoded field is one of the field's own format (R112). -/
theorem decode_format {f : Format} {v : Nat} {e : Instr} (h : decode f v = .ok e) : (encode e).1 = f := by
  have mem : ∀ {l : List Instr} {p : Format}, (∀ x ∈ l, (encode x).1 = p) → ∀ {n : Nat} {x : Instr}, l[n]? = some x →
      (encode x).1 = p := fun hl _ _ hx => hl _ (List.mem_of_getElem? hx)
  cases f with
  | bh =>
    simp only [decode, decodeBH] at h
    split at h <;> cases h <;> rfl
  | cl =>
    simp only [decode, decodeCL] at h
    split at h
    · cases h; rfl
    · split at h
      · cases h; rfl
      · split at h
        · cases h; rfl
        · split at h <;> cases h
          rfl
  | ll =>
    simp only [decode, decodeLL] at h
    split at h
    · cases h; rfl
    · split at h
      · cases h; rfl
      · split at h
        · rename_i hx
          cases h
          exact mem (by decide) hx
        · split at h <;> cases h
          rfl
  | ds =>
    simp only [decode, decodeDS] at h
    split at h
    · rename_i hx
      cases h
      exact mem (by decide) hx
    · split at h <;> cases h
      rfl
  | fs =>
    simp only [decode, decodeFS] at h
    split at h
    all_goals first | (cases h; rfl) | (split at h <;> cases h; rfl)

/-- A host action on the I-unit's side has a step exactly while that side is unlocked (R362). -/
theorem hostToI_cases (s : State) (i : IUnit) :
    (s.iLocked = false ∧ hostToI s i = .next { s with i := i }) ∨
    (s.iLocked = true ∧ hostToI s i = .refused .hostWhileBusy) := by
  unfold hostToI
  cases s.iLocked <;> simp

/-- A host action on the U-unit's side has a step exactly while that side is unlocked (R362). -/
theorem hostToU_cases (s : State) (u : UUnit) :
    (s.uLocked = false ∧ hostToU s u = .next { s with u := u }) ∨
    (s.uLocked = true ∧ hostToU s u = .refused .hostWhileBusy) := by
  unfold hostToU
  cases s.uLocked <;> simp

/-- With the U-unit at rest the step is the I-unit's. -/
theorem step_iAlone {s : State} (h : s.iAlone) : step s = stepI s := by
  rcases step_cases s with h' | h' | h' | h' | h' <;> simp_all [State.iAlone]

/-- With the I-unit at rest the step is the U-unit's. -/
theorem step_uAlone {s : State} (h : s.uAlone) : step s = stepU s := by
  rcases step_cases s with h' | h' | h' | h' | h' <;> simp_all [State.uAlone]

/-- A step of the I-unit takes the command, or extends the run (`IUnit.Extends`) and touches nothing else. -/
theorem stepI_next {s t : State} (h : stepI s = .next t) :
    (s.i.start = true ∧ s.i.busy = false ∧ s.u.usesOut = false ∧ t = { s with i := s.i.begin }) ∨
    (s.i.start = false ∧ ∃ i, t = { s with i := i } ∧ s.i.Extends i) := by
  have sym : ∀ f tab, f ≠ .fs → runI s (fetchSymbol f tab s.i) = .next t →
      ∃ i, t = { s with i := i } ∧ s.i.Extends i := by
    intro f tab hf h
    rcases runI_eq_next h with ⟨w, v, e, h1, h2, h3⟩ | ⟨v, h1, h2⟩
    · rw [fetchSymbol_eq, Res.bind_eq_ok] at h1
      obtain ⟨a, u, h4, h5⟩ := h1
      cases h5
      have he := decode_format h2
      obtain ⟨r, hr, hre⟩ := exec_onI (e := e) (by rw [he]; exact hf) { s with i := v }
      rw [hr, onI_eq_next] at h3
      obtain ⟨i, hi, ht⟩ := h3
      have h6 := (decodeSym_extends tab s.i).1 _ _ h4
      exact ⟨i, ht, h6.trans (hi.elim (hre.1 _ _) (hre.2 _))⟩
    · rw [fetchSymbol_eq, Res.bind_eq_raised] at h1
      rcases h1 with h1 | ⟨a, u, h1, h3⟩
      · exact ⟨v, h2, (decodeSym_extends tab s.i).2 _ h1⟩
      · cases h3
  rcases stepI_cases s with ⟨h', e⟩ | ⟨h', _, e⟩ | ⟨h', _, e⟩ | ⟨h', _, e⟩ | ⟨h', _, e⟩
  · rw [e] at h
    rcases startI_cases s with ⟨h1, h2, h3⟩ | h3
    · rw [h3] at h; cases h; exact .inl ⟨h', h1, h2, rfl⟩
    · rw [h3] at h; cases h
  · refine .inr ⟨h', ?_⟩
    rw [e] at h
    rcases runI_eq_next h with ⟨w, v, e, h1, h2, h3⟩ | ⟨v, h1, h2⟩
    · rcases fetchHeader_cases s.i with ⟨hb, hf⟩ | ⟨hb, _, hf, _⟩
      · rw [hf] at h1; cases h1
        have he := decode_format h2
        obtain ⟨r, hr, hre⟩ := exec_onI (e := e) (by rw [he]; simp) { s with
          i := { s.i with bfinal := s.i.inBit s.i.bitpos == 1, bitpos := s.i.bitpos + 3 } }
        rw [hr, onI_eq_next] at h3
        obtain ⟨i, hi, ht⟩ := h3
        refine ⟨i, ht, .trans ?_ (hi.elim (hre.1 _ _) (hre.2 _))⟩
        exact .trans (IUnit.extends_seek (p := s.i.bitpos + 3) (by omega) fun _ => hb) IUnit.extends_of_eq
      · rw [hf] at h1; cases h1
    · rcases fetchHeader_cases s.i with ⟨hb, hf⟩ | ⟨hb, w, hf, hw, h3, h4⟩
      · rw [hf] at h1; cases h1
      · rw [hf] at h1; cases h1
        refine ⟨_, h2, ?_⟩
        refine .trans (IUnit.extends_seek (p := w.bitpos) h3 h4) (.trans (v := w) ?_ (w.extends_raise _))
        rw [hw]
        exact IUnit.extends_of_eq
  · exact .inr ⟨h', sym _ _ (by simp) (e ▸ h)⟩
  · exact .inr ⟨h', sym _ _ (by simp) (e ▸ h)⟩
  · rw [e] at h; cases h; exact .inr ⟨h', s.i, rfl, .refl _⟩

/-- A step of the U-unit touches nothing of the I-unit and none of what the host writes. -/
theorem stepU_next {s t : State} (h : stepU s = .next t) :
    ∃ u, t = { s with u := u } ∧ u.raw = s.u.raw ∧ u.rawLen = s.u.rawLen ∧ u.width = s.u.width ∧
      u.height = s.u.height ∧ u.bpp = s.u.bpp ∧ (s.u.rows.wf → u.rows.wf) := by
  rcases stepU_cases s with ⟨_, e⟩ | ⟨_, _, _, e⟩ | ⟨_, _, _, e⟩ | ⟨_, _, e⟩
  · rw [e] at h
    rcases startU_cases s with ⟨_, _, h3⟩ | h3 | h3
    · rw [h3] at h
      rcases s.u.begin_cases with ⟨_, h4⟩ | ⟨_, h4⟩
      · rw [h4] at h
        cases h
        have := UUnit.nextRow_extends { s.u with
          start := false, chainCmd := false, chained := s.u.chainCmd, errKind := none, rowsLen := 0,
          stride := s.u.width.toNat * s.u.bpp.toNat, row := 0, phase := .rowHdr }
        exact ⟨_, rfl, this.raw, this.rawLen, this.width, this.height, this.bpp, this.rows_wf⟩
      · rw [h4] at h; cases h; exact ⟨_, rfl, rfl, rfl, rfl, rfl, rfl, id⟩
    · rw [h3] at h; cases h
    · rw [h3] at h; cases h
  · rw [e] at h
    rcases runU_eq_next h with ⟨w, v, e, h1, h2, h3⟩ | ⟨v, h1, h2⟩
    · rcases fetchRow_cases s.rawSpace s.rawLen s.u with ⟨_, hf⟩ | ⟨_, hf⟩
      · rw [hf] at h1; cases h1
        obtain ⟨r, hr, hre⟩ := exec_onU (e := e) (decode_format h2) s
        rw [show ({ s with u := s.u } : State) = s from rfl, hr, onU_eq_next] at h3
        obtain ⟨u, hu, ht⟩ := h3
        rcases hre with ⟨ft, _, rfl⟩ | ⟨ft, _, rfl⟩
        · rcases hu with hu | hu
          · have := rowElement_extends hu
            exact ⟨u, ht, this.raw, this.rawLen, this.width, this.height, this.bpp, this.rows_wf⟩
          · cases hu
        · rcases hu with hu | hu
          · cases hu
          · cases hu; exact ⟨_, ht, rfl, rfl, rfl, rfl, rfl, id⟩
      · rw [hf] at h1; cases h1
    · rcases fetchRow_cases s.rawSpace s.rawLen s.u with ⟨_, hf⟩ | ⟨_, hf⟩
      · rw [hf] at h1; cases h1
      · rw [hf] at h1; cases h1; exact ⟨_, h2, rfl, rfl, rfl, rfl, rfl, id⟩
  · rw [e] at h; cases h
    have := UUnit.nextRow_extends s.u
    exact ⟨_, rfl, this.raw, this.rawLen, this.width, this.height, this.bpp, this.rows_wf⟩
  · rw [e] at h; cases h; exact ⟨_, rfl, rfl, rfl, rfl, rfl, rfl, id⟩

/-- A step of the block is a step of one unit; the other keeps everything. -/
theorem step_next {s t : State} (h : step s = .next t) :
    t.i = s.i ∧ (t.u = s.u ∨ ∃ s', s'.i = s.i ∧ s'.u = s.u ∧ stepU s' = .next t) ∨
      t.u = s.u ∧ ∃ s', s'.i = s.i ∧ s'.u = s.u ∧ stepI s' = .next t := by
  rcases step_cases s with ⟨_, _, _, e⟩ | ⟨_, _, _, e⟩ | ⟨_, _, e⟩ | ⟨_, _, e⟩ | ⟨_, _, e⟩
  · rw [e] at h
    refine .inr ⟨?_, { s with tick := s.tick + 1 }, rfl, rfl, h⟩
    rcases stepI_next h with ⟨_, _, _, h⟩ | ⟨_, i, h, _⟩ <;> rw [h]
  · rw [e] at h
    refine .inl ⟨?_, .inr ⟨{ s with tick := s.tick + 1 }, rfl, rfl, h⟩⟩
    obtain ⟨u, h, _⟩ := stepU_next h; rw [h]
  · rw [e] at h
    refine .inr ⟨?_, _, rfl, rfl, h⟩
    rcases stepI_next h with ⟨_, _, _, h⟩ | ⟨_, i, h, _⟩ <;> rw [h]
  · rw [e] at h
    refine .inl ⟨?_, .inr ⟨_, rfl, rfl, h⟩⟩
    obtain ⟨u, h, _⟩ := stepU_next h; rw [h]
  · rw [e] at h; cases h; exact .inl ⟨rfl, .inl rfl⟩

end Sys2Proof.Machine
end

