-- ==== Sys2Proof/Tests/Slice0.lean ====
section
/-! SUPPORT. The model's own tests: well-formedness, decoding of words written out from spec/30_encoding.md, single
steps against the vectors of spec/95_test_vectors.md, and a concrete state for the hypotheses of each statement of
Certificates/Slice0/Obligations.lean. Expected values come from the spec, whose vector is named in each docstring. -/
namespace Sys2Proof.Machine.Tests

/-! ## Helpers -/

/-- The bytes of a list from address `a` on. -/
def bytesAt (a : Nat) : List Nat → Memory
  | [] => []
  | b :: l => Memory.cell a (BitVec.ofNat 8 b) ++ bytesAt (a + 1) l

/-- The I-unit with the given `IN` and cursor, the complement check on. -/
def unitAt (bytes : List Nat) (pos : Nat) : IUnit :=
  { IUnit.reset with nlenCheck := true, inp := bytesAt 0 bytes, inLen := bytes.length, bitpos := pos }

/-- The U-unit about to run the scanlines `raw`. -/
def rowsUnit (raw : List Nat) (width height bpp : Nat) : UUnit :=
  { UUnit.reset with
    phase := .rowHdr, raw := bytesAt 0 raw, rawLen := raw.length, width := BitVec.ofNat 32 width,
    height := BitVec.ofNat 32 height, bpp := BitVec.ofNat 3 bpp, stride := width * bpp }

/-- The block with the U-unit at rest. -/
def withI (i : IUnit) : State := ⟨i, UUnit.reset, 0⟩

/-- The block with the I-unit at rest. -/
def withU (u : UUnit) : State := ⟨IUnit.reset, u, 0⟩

/-- The state of a next-state outcome. -/
def after : Host.Outcome State Fault Refusal → State
  | .next t => t
  | _ => State.reset

/-- The first `n` bytes of a space. -/
def firstBytes (m : Memory) (n : Nat) : List Nat := (List.range n).map fun a => (m.read a).toNat

/-- Code `0` is the literal `a`, code `1` the end of block. -/
def smallL : Table := ⟨1, [some ⟨97, 1⟩, some ⟨256, 1⟩]⟩

/-- Code `0` is the first symbol, code `1` the second. -/
def pairD (x y : Nat) : Table := ⟨1, [some ⟨x, 1⟩, some ⟨y, 1⟩]⟩

/-- A Huffman block's body over the small tables. -/
def bodyUnit (bytes : List Nat) (pos : Nat) : IUnit :=
  { unitAt bytes pos with phase := .body, btype := 1, bfinal := true, ltab := smallL, dtab := pairD 0 1 }

/-! ## Well-formedness -/

/-- R106: an explicit code length is at most 15. -/
theorem test_wf_cllit : (Instr.cllit 15).wf = true ∧ (Instr.cllit 16).wf = false := by decide

/-- R102: the reserved literal/length symbols are 286 and 287. -/
theorem test_wf_rsvl : (Instr.rsvl 286).wf = true ∧ (Instr.rsvl 287).wf = true ∧ (Instr.rsvl 285).wf = false ∧
    (Instr.rsvl 288).wf = false := by decide

/-- R105: the reserved distance symbols are 30 and 31. -/
theorem test_wf_rsvd : (Instr.rsvd 30).wf = true ∧ (Instr.rsvd 31).wf = true ∧ (Instr.rsvd 29).wf = false ∧
    (Instr.rsvd 32).wf = false := by decide

/-- R108: the reserved selectors are 5 to 255. -/
theorem test_wf_rsvf : (Instr.rsvf 5).wf = true ∧ (Instr.rsvf 255).wf = true ∧ (Instr.rsvf 4).wf = false ∧
    (Instr.rsvf 256).wf = false := by decide

/-! ## Decoding (R101, R102, R105, R106, R108) -/

/-- Every header, bit 0 being `BFINAL` and bits 2..1 `BTYPE` (R101). -/
theorem test_decode_bh : [0b000, 0b001, 0b010, 0b011, 0b100, 0b101, 0b110, 0b111].map (decode .bh) =
    [.ok (.stored false), .ok (.stored true), .ok (.fixed false), .ok (.fixed true), .ok (.dynamic false),
     .ok (.dynamic true), .ok (.btype3 false), .ok (.btype3 true)] := rfl

/-- Code-length symbols (R106). -/
theorem test_decode_cl : [0b00000, 0b00001, 0b01111, 0b10000, 0b10001, 0b10010].map (decode .cl) =
    [.ok (.cllit 0), .ok (.cllit 1), .ok (.cllit 15), .ok .cl16, .ok .cl17, .ok .cl18] := rfl

/-- Literal/length symbols up to 272 (R102). -/
theorem test_decode_ll_low : [0b000000000, 0b001100001, 0b011111111, 0b100000000, 0b100000001, 0b100000010, 0b100000011,
      0b100000100, 0b100000101, 0b100000110, 0b100000111, 0b100001000, 0b100001001, 0b100001010, 0b100001011,
      0b100001100, 0b100001101, 0b100001110, 0b100001111, 0b100010000].map (decode .ll) =
    [.ok (.lit 0), .ok (.lit 97), .ok (.lit 255), .ok .eob, .ok .len257, .ok .len258, .ok .len259, .ok .len260,
     .ok .len261, .ok .len262, .ok .len263, .ok .len264, .ok .len265, .ok .len266, .ok .len267, .ok .len268,
     .ok .len269, .ok .len270, .ok .len271, .ok .len272] := rfl

/-- Literal/length symbols from 273 on (R102). -/
theorem test_decode_ll_high : [0b100010001, 0b100010010, 0b100010011, 0b100010100, 0b100010101, 0b100010110,
      0b100010111, 0b100011000, 0b100011001, 0b100011010, 0b100011011, 0b100011100, 0b100011101, 0b100011110,
      0b100011111].map (decode .ll) =
    [.ok .len273, .ok .len274, .ok .len275, .ok .len276, .ok .len277, .ok .len278, .ok .len279, .ok .len280,
     .ok .len281, .ok .len282, .ok .len283, .ok .len284, .ok .len285, .ok (.rsvl 286), .ok (.rsvl 287)] := rfl

/-- Distance symbols up to 15 (R105). -/
theorem test_decode_ds_low : [0b00000, 0b00001, 0b00010, 0b00011, 0b00100, 0b00101, 0b00110, 0b00111, 0b01000, 0b01001,
      0b01010, 0b01011, 0b01100, 0b01101, 0b01110, 0b01111].map (decode .ds) =
    [.ok .dist0, .ok .dist1, .ok .dist2, .ok .dist3, .ok .dist4, .ok .dist5, .ok .dist6, .ok .dist7, .ok .dist8,
     .ok .dist9, .ok .dist10, .ok .dist11, .ok .dist12, .ok .dist13, .ok .dist14, .ok .dist15] := rfl

/-- Distance symbols from 16 on (R105). -/
theorem test_decode_ds_high : [0b10000, 0b10001, 0b10010, 0b10011, 0b10100, 0b10101, 0b10110, 0b10111, 0b11000,
      0b11001, 0b11010, 0b11011, 0b11100, 0b11101, 0b11110, 0b11111].map (decode .ds) =
    [.ok .dist16, .ok .dist17, .ok .dist18, .ok .dist19, .ok .dist20, .ok .dist21, .ok .dist22, .ok .dist23,
     .ok .dist24, .ok .dist25, .ok .dist26, .ok .dist27, .ok .dist28, .ok .dist29, .ok (.rsvd 30),
     .ok (.rsvd 31)] := rfl

/-- Filter selectors (R108). -/
theorem test_decode_fs : [0b00000000, 0b00000001, 0b00000010, 0b00000011, 0b00000100, 0b00000101, 0b11111111].map
      (decode .fs) =
    [.ok .filterNone, .ok .filterSub, .ok .filterUp, .ok .filterAvg, .ok .filterPaeth, .ok (.rsvf 5),
     .ok (.rsvf 255)] := rfl

/-- The first value past each field is refused by name (R112). -/
theorem test_decode_refuses : decode .bh 8 = .error (.noHeader 8) ∧ decode .cl 19 = .error (.noCodeLengthSymbol 19) ∧
    decode .ll 288 = .error (.noLitLenSymbol 288) ∧ decode .ds 32 = .error (.noDistanceSymbol 32) ∧
    decode .fs 256 = .error (.noSelector 256) := ⟨rfl, rfl, rfl, rfl, rfl⟩

/-- V-H10: codes of the fixed literal/length alphabet. -/
theorem test_fixed_codes : [0, 97, 143, 144, 255, 256, 257, 259, 265, 279, 280, 285, 286, 287].map fixedCodeLL =
    [(8, 0b00110000), (8, 0b10010001), (8, 0b10111111), (9, 0b110010000), (9, 0b111111111), (7, 0b0000000),
     (7, 0b0000001), (7, 0b0000011), (7, 0b0001001), (7, 0b0010111), (8, 0b11000000), (8, 0b11000101),
     (8, 0b11000110), (8, 0b11000111)] := rfl

/-! ## The Bit Reader (V-B) -/

/-- V-B1 to V-B6, V-B10: reads of `B5 01 FF`. -/
theorem test_read : [(1, 0), (2, 1), (5, 3), (3, 8), (8, 16), (9, 0)].map
      (fun p => readBits p.1 (unitAt [0xB5, 0x01, 0xFF] p.2)) =
    [(1, 1), (2, 3), (22, 8), (1, 11), (255, 24), (437, 9)].map
      (fun p => .ok p.1 (unitAt [0xB5, 0x01, 0xFF] p.2)) := rfl

/-- V-B7, V-B12, V-B19: reads past the end leave the cursor. -/
theorem test_read_past_end : [(1, 24), (5, 20)].map (fun p => readBits p.1 (unitAt [0xB5, 0x01, 0xFF] p.2)) =
    [24, 20].map (fun p => .raised ((unitAt [0xB5, 0x01, 0xFF] p).raise .truncated)) := rfl

/-- V-B14, V-B16, V-B17, V-B18, V-B11, V-B5, V-B9: 32 bits, look-ahead, padding, putting back, alignment. -/
theorem test_reader : readBits 32 (unitAt [0x34, 0x12, 0xCD, 0xAB] 0) =
      .ok 0xABCD1234 (unitAt [0x34, 0x12, 0xCD, 0xAB] 32) ∧
    peekBits 9 (unitAt [0x34, 0x12, 0xCD, 0xAB] 16) = 0x1CD ∧ peekBits 9 (unitAt [0xA5] 3) = 20 ∧
    peekBits 15 (unitAt [0xA5] 8) = 0 ∧
    unreadBits 2 (unitAt [0xB5, 0x01, 0xFF] 9) = .ok () (unitAt [0xB5, 0x01, 0xFF] 7) ∧
    (alignCursor (unitAt [0xB5, 0x01, 0xFF] 11)).bitpos = 16 ∧ (alignCursor (unitAt [0xB5, 0x01, 0xFF] 3)).bitpos = 8 :=
  ⟨rfl, rfl, rfl, rfl, rfl, rfl, rfl⟩

/-! ## Huffman tables (V-H) -/

/-- The table of R166. -/
def tableH1 : Table := (build [3, 3, 3, 3, 3, 2, 4, 4]).getD Table.empty

/-- V-H4 to V-H7: one symbol, a full pair, no symbol, too many. -/
theorem test_build : build [1] = some ⟨1, [some ⟨0, 1⟩, none]⟩ ∧ build [1, 1] = some ⟨1, [some ⟨0, 1⟩, some ⟨1, 1⟩]⟩ ∧
    build [0, 0, 0] = some ⟨0, [none]⟩ ∧ build [1, 1, 1] = none := by decide

/-- V-H11 to V-H17: decoding with the table of R166, up to the tail of the buffer. -/
theorem test_decode_sym : decodeSym tableH1 (unitAt [0b1100] 0) = .ok 5 (unitAt [0b1100] 2) ∧
    decodeSym tableH1 (unitAt [0b1001] 0) = .ok 2 (unitAt [0b1001] 3) ∧
    decodeSym tableH1 (unitAt [0b0111] 0) = .ok 6 (unitAt [0b0111] 4) ∧
    decodeSym tableH1 (unitAt [0b1111] 0) = .ok 7 (unitAt [0b1111] 4) ∧
    decodeSym tableH1 (unitAt [0b00000000] 6) = .ok 5 (unitAt [0b00000000] 8) ∧
    decodeSym tableH1 (unitAt [0b11000000] 6) = .raised ((unitAt [0b11000000] 6).raise .truncated) ∧
    decodeSym tableH1 { unitAt [0b00000000] 6 with strictPeek := true } =
      .raised ({ unitAt [0b00000000] 6 with strictPeek := true }.raise .truncated) := by decide +kernel

/-! ## One step of the I-unit -/

/-- V-S1, V-S3 and V-S9: a stored block, a wrong complement, the invalid block type. -/
theorem test_step_headers :
    (let t := (after (step (withI { unitAt [0x01, 3, 0, 0xFC, 0xFF, 0x61, 0x62, 0x63] 0 with phase := .hdr }))).i
     firstBytes t.out 3 = [0x61, 0x62, 0x63] ∧ (t.phase, t.outLen, t.bitpos) = (.done, 3, 64)) ∧
    (let t := (after (step (withI { unitAt [0x01, 3, 0, 0xFC, 0xFE, 0x61, 0x62, 0x63] 0 with phase := .hdr }))).i
     (t.phase, t.errKind, t.outLen, t.bitpos) = (.error, some .format, 0, 40)) ∧
    (let t := (after (step (withI { unitAt [0x07] 0 with phase := .hdr }))).i
     (t.phase, t.errKind, t.bfinal, t.bitpos) = (.error, some .format, true, 3)) := by decide +kernel

/-- Program P2, element by element: header, literal, overlapping match, end of block. -/
theorem test_step_p2 :
    let u := unitAt [0x4B, 0x04, 0x03, 0x00]
    (let t := (after (step (withI { u 0 with phase := .hdr }))).i
     t.ltab = fixedLTab ∧ t.dtab = fixedDTab ∧ (t.phase, t.bitpos) = (.body, 3)) ∧
    (let t := (after (step (withI { (u 3).useFixedTables with bfinal := true }))).i
     (t.out, t.outlen, t.bitpos, t.sym) = ([(0, 0x61)], 1, 11, 97)) ∧
    (let t := (after (step (withI { (u 11).useFixedTables with out := [(0, 0x61)], outlen := 1 }))).i
     firstBytes t.out 7 = [0x61, 0x61, 0x61, 0x61, 0x61, 0x61, 0] ∧
     (t.outlen, t.bitpos, t.sym, t.mlen, t.dsym, t.mdist) = (6, 23, 259, 5, 0, 1)) ∧
    (let t := (after (step (withI { (u 23).useFixedTables with bfinal := true, outlen := 6 }))).i
     (t.phase, t.outLen, t.bitpos) = (.done, 6, 30)) := by decide +kernel

/-- Program P3: the dynamic header, then `CL18 rep=97` and the `CLLIT` that closes the tables. -/
theorem test_step_p3 :
    let u := unitAt [0x0D, 0xC0, 0x81, 0, 0, 0, 0, 0x80, 0x20, 0xD6, 0xFC, 0x25, 0x3E, 0x0B]
    let ct : Table := ⟨2, [some ⟨18, 1⟩, some ⟨1, 2⟩, some ⟨18, 1⟩, some ⟨2, 2⟩]⟩
    (let t := (after (step (withI { u 0 with phase := .hdr }))).i
     (t.hlit, t.hdist, t.hclen, t.lidx, t.bitpos, t.phase) = (258, 1, 18, 0, 71, .clen) ∧ t.cltab = ct) ∧
    (let t := (after (step (withI { u 71 with phase := .clen, hlit := 258, hdist := 1, cltab := ct }))).i
     (t.lidx, t.bitpos, t.phase) = (97, 79, .clen)) ∧
    (let l := List.replicate 97 0 ++ [1] ++ List.replicate 158 0 ++ [2, 2] ++ List.replicate 62 0
     let t := (after (step (withI { u 101 with phase := .clen, hlit := 258, hdist := 1, lidx := 258, llen := l, cltab := ct }))).i
     (t.lidx, t.bitpos, t.phase) = (259, 103, .body) ∧
     t.ltab = ⟨2, [some ⟨97, 1⟩, some ⟨256, 2⟩, some ⟨97, 1⟩, some ⟨257, 2⟩]⟩ ∧ t.dtab = ⟨1, [some ⟨0, 1⟩, none]⟩) := by
  decide +kernel

/-- Section 2.5: the smallest and the largest length of every length symbol. -/
theorem test_lengths : (List.range 29).map
      (fun k => (lengthOperand k (unitAt [0] 0), lengthOperand k (unitAt [255] 0))) =
    [(3, 3, 0), (4, 4, 0), (5, 5, 0), (6, 6, 0), (7, 7, 0), (8, 8, 0), (9, 9, 0), (10, 10, 0), (11, 12, 1), (13, 14, 1),
     (15, 16, 1), (17, 18, 1), (19, 22, 2), (23, 26, 2), (27, 30, 2), (31, 34, 2), (35, 42, 3), (43, 50, 3), (51, 58, 3),
     (59, 66, 3), (67, 82, 4), (83, 98, 4), (99, 114, 4), (115, 130, 4), (131, 162, 5), (163, 194, 5), (195, 226, 5),
     (227, 258, 5), (258, 258, 0)].map
      (fun p => (.ok p.1 (unitAt [0] p.2.2), .ok p.2.1 (unitAt [255] p.2.2))) := rfl

/-- Section 2.6: the smallest and the largest distance of every distance symbol. -/
theorem test_distances : (List.range 30).map
      (fun d => (distanceOperand d (unitAt [0, 0] 0), distanceOperand d (unitAt [255, 255] 0))) =
    [(1, 1, 0), (2, 2, 0), (3, 3, 0), (4, 4, 0), (5, 6, 1), (7, 8, 1), (9, 12, 2), (13, 16, 2), (17, 24, 3), (25, 32, 3),
     (33, 48, 4), (49, 64, 4), (65, 96, 5), (97, 128, 5), (129, 192, 6), (193, 256, 6), (257, 384, 7), (385, 512, 7),
     (513, 768, 8), (769, 1024, 8), (1025, 1536, 9), (1537, 2048, 9), (2049, 3072, 10), (3073, 4096, 10),
     (4097, 6144, 11), (6145, 8192, 11), (8193, 12288, 12), (12289, 16384, 12), (16385, 24576, 13),
     (24577, 32768, 13)].map
      (fun p => (.ok p.1 (unitAt [0, 0] p.2.2), .ok p.2.1 (unitAt [255, 255] p.2.2))) := rfl

/-! ## One step of the U-unit -/

/-- V-P10, V-P11, V-P12, V-P21, V-P31, V-P32: exact arithmetic and ties. -/
theorem test_paeth : [(255, 255, 0), (0, 0, 255), (100, 200, 150), (200, 100, 10), (4, 22, 10), (22, 4, 10)].map
    (fun p : Nat × Nat × Nat => paeth p.1 p.2.1 p.2.2) = [255, 0, 150, 200, 22, 22] := rfl

/-- V-U1, V-U2, V-U7, V-U9, V-U4, V-U13: one scanline of each filter, and a reserved selector. -/
theorem test_step_rows :
    firstBytes (after (step (withU (rowsUnit [0, 1, 2, 3] 3 1 1)))).u.rows 3 = [1, 2, 3] ∧
    firstBytes (after (step (withU (rowsUnit [1, 0x10, 0x20, 0xF0, 5] 4 1 1)))).u.rows 4 = [0x10, 0x30, 0x20, 0x25] ∧
    firstBytes (after (step (withU (rowsUnit [2, 5, 6, 7] 3 1 1)))).u.rows 3 = [5, 6, 7] ∧
    firstBytes (after (step (withU (rowsUnit [3, 0x0A, 0x14, 0x1E] 3 1 1)))).u.rows 3 = [0x0A, 0x19, 0x2A] ∧
    firstBytes (after (step (withU (rowsUnit [4, 0x0A, 0x14, 0x1E] 3 1 1)))).u.rows 3 = [0x0A, 0x1E, 0x3C] ∧
    (after (step (withU (rowsUnit [0, 1, 2, 3] 3 1 1)))).u.rowsLen = 3 ∧
    (after (step (withU (rowsUnit [5, 1, 2, 3] 3 1 1)))).u.errKind = some .format := by decide +kernel

/-- V-U11, V-U8, V-U12: second rows, with the row above and the upper left neighbour. -/
theorem test_step_second_rows :
    (let u := { rowsUnit [0, 0x32, 0x3C, 0xC8, 4, 0x05, 0xFA, 0x64] 3 2 1 with row := 1, rows := bytesAt 0 [0x32, 0x3C, 0xC8] }
     firstBytes (after (step (withU u))).u.rows 6 = [0x32, 0x3C, 0xC8, 0x37, 0x36, 0x2C]) ∧
    (let u := { rowsUnit [0, 0xFF, 0xFF, 3, 1, 1] 2 2 1 with row := 1, rows := bytesAt 0 [0xFF, 0xFF] }
     firstBytes (after (step (withU u))).u.rows 4 = [0xFF, 0xFF, 0x80, 0xC0]) ∧
    (let u := { rowsUnit [1, 0x0A, 0x14, 0x1E, 0xFF, 5, 5, 5, 0, 4, 1, 1, 1, 0, 0xFA, 0xFA, 0xFA, 1] 2 2 4 with
        row := 1, rows := bytesAt 0 [0x0A, 0x14, 0x1E, 0xFF, 0x0F, 0x19, 0x23, 0xFF] }
     firstBytes (after (step (withU u))).u.rows 16 = [0x0A, 0x14, 0x1E, 0xFF, 0x0F, 0x19, 0x23, 0xFF, 0x0B, 0x15, 0x1F,
       0xFF, 0x09, 0x13, 0x1D, 0x00]) := by decide +kernel

/-! ## The host's questions (assumption 10) -/

/-- Words of the five formats as table words, and one run as the first instruction after reset. -/
theorem test_table_words : decodeTableWord 8 0b011 = some (.fixed true) ∧ decodeTableWord 8 16 = some .cl16 ∧
    decodeTableWord 16 97 = some (.lit 97) ∧ decodeTableWord 16 285 = some .len285 ∧ decodeTableWord 8 29 = some .dist29 ∧
    decodeTableWord 8 200 = some (.rsvf 200) ∧ decodeTableWord 16 288 = none := ⟨rfl, rfl, rfl, rfl, rfl, rfl, rfl⟩

/-- The step after `withFetchWord` runs the word's element. -/
theorem test_fetch_word : (after (step (State.reset.withFetchWord 8 0b111))).i.errKind = some .format ∧
    (after (step (State.reset.withFetchWord 8 16))).i.lidx = 4 ∧
    (after (step (State.reset.withFetchWord 16 97))).i.sym = 97 ∧
    (after (step (State.reset.withFetchWord 16 284))).i.outlen = 32768 + 227 ∧
    (after (step (State.reset.withFetchWord 8 28))).i.mdist = 16385 ∧
    (after (step (State.reset.withFetchWord 8 200))).u.ft = 200 := by decide +kernel

/-! ## Hypotheses of the statements: for each, a state and operands that meet them together, clause by clause -/

/-- `ExactlyOneOpcodeRowSelectsEachValue`, `ReservedSymbolsRaise`, `ReservedSelectorRaises`: the last value of each field
and both ends of the reserved ranges, with an outcome of each. -/
theorem test_meets_ranges : (7 < 8 ∧ 18 < 19 ∧ 287 < 288 ∧ 31 < 32 ∧ 255 < 256) ∧ (5 ≤ 5 ∧ 255 ≤ 255) ∧
    (after (exec (.rsvl 286) (withI (unitAt [] 0)))).i.errKind = some .huffman ∧
    (after (exec (.rsvd 31) (withI (unitAt [] 0)))).i.errKind = some .huffman ∧
    (after (exec (.rsvf 255) (withU (rowsUnit [] 1 1 1)))).u.errKind = some .format :=
  ⟨by decide, by decide, rfl, rfl, rfl⟩

/-- `FixedCodesDecodeToTheirSymbols`: both ends of the four ranges, `STRICT_PEEK` off and on, and both ends of the
distance codes. -/
theorem test_meets_fixedCodes :
    ((unitAt [0x0C] 0).spells 8 48 ∧ (unitAt [0xFD] 0).spells 8 (48 + 143)) ∧
    ((unitAt [0x13, 0] 0).spells 9 400 ∧ (unitAt [0xFF, 1] 0).spells 9 (400 + (255 - 144))) ∧
    ((unitAt [0] 0).spells 7 (256 - 256) ∧ (unitAt [0x74] 0).spells 7 (279 - 256)) ∧
    ((unitAt [0x03] 0).spells 8 192 ∧ (unitAt [0xE3] 0).spells 8 (192 + (287 - 280))) ∧
    (unitAt [0] 0).strictPeek = false ∧ 9 ≤ (unitAt [0x0C, 0] 0).avail ∧
    ((unitAt [0] 0).spells 5 0 ∧ (unitAt [0x1F] 0).spells 5 31) := by
  simp only [IUnit.spells]
  decide

/-- `ReadReturnsTheNextBits`, `BitReaderLaws`: a read of 1 and of 32 bits that just fit, and one bit more than there is;
two fields of 1 and 31 bits; a look-ahead of 15 bits of which 1 is taken. -/
theorem test_meets_reads :
    let u := unitAt [0x34, 0x12, 0xCD, 0xAB]
    ¬ 8 * (u 31).inLen < (u 31).bitpos + 1 ∧ ¬ 8 * (u 0).inLen < (u 0).bitpos + 32 ∧
    8 * (u 1).inLen < (u 1).bitpos + 32 ∧ (u 0).bitpos + 1 + 31 ≤ 8 * (u 0).inLen ∧
    (u 17).bitpos + 15 ≤ 8 * (u 17).inLen ∧ 15 - 1 ≤ 14 ∧
    (u 32).bitpos ≤ 8 * (u 32).inLen ∧ (u 32).avail < 1 := by decide

/-- `SkipUnreadAlignAndReadExtra`: a skip to the end, 14 bits of a read of 15 put back, an aligned and an unaligned
cursor, 0 and 1 extra bits. -/
theorem test_meets_skipUnread :
    let u := unitAt [0x34, 0x12]
    (u 0).bitpos + 16 ≤ 8 * (u 0).inLen ∧ readBits 15 (u 0) = .ok 0x1234 (u 15) ∧ (u 8).bitpos % 8 = 0 ∧
    (u 9).bitpos ≤ 8 * (u 9).inLen ∧ readExtra 1 (u 0) = readBits 1 (u 0) := ⟨by decide, rfl, rfl, by decide, rfl⟩

/-- `BuildRefusesOversubscribedLengths`: one code too many, and just as many as there are. -/
theorem test_meets_oversubscribed :
    2 ^ [1, 1, 1].foldr max 0 < (([1, 1, 1].filter (· ≠ 0)).map fun l => 2 ^ ([1, 1, 1].foldr max 0 - l)).sum ∧
    ¬ 2 ^ [1, 1].foldr max 0 < (([1, 1].filter (· ≠ 0)).map fun l => 2 ^ ([1, 1].foldr max 0 - l)).sum := by decide

/-- `DecodeReadsTheCanonicalCode`, with the incomplete table of R166: the strict refusal, a code that fits exactly, and
no code spelled with enough bits left and with too few. -/
theorem test_meets_decode :
    build [0, 2, 2] = some ⟨2, [some ⟨1, 2⟩, none, some ⟨2, 2⟩, none]⟩ ∧
    ({ unitAt [0] 7 with strictPeek := true }.strictPeek = true ∧ { unitAt [0] 7 with strictPeek := true }.avail < 2) ∧
    (assign [0, 2, 2] = [⟨1, 2, 0⟩, ⟨2, 2, 1⟩] ∧ (unitAt [0x80] 6).spells 2 1 ∧ (unitAt [0] 6).spells 2 0) ∧
    (¬ (unitAt [1] 0).spells 2 0 ∧ ¬ (unitAt [1] 0).spells 2 1 ∧ ¬ (unitAt [1] 0).avail < 2) ∧
    (¬ (unitAt [0x80] 7).spells 2 0 ∧ ¬ (unitAt [0x80] 7).spells 2 1 ∧ (unitAt [0x80] 7).avail < 2) := by
  simp only [IUnit.spells]
  decide

/-- `EmptyAndSingleCodes`: the shortest and a long single code. -/
theorem test_meets_singleCode : build [1] = some ⟨1, [some ⟨0, 1⟩, none]⟩ ∧
    build [0, 3, 0] = some ⟨3, some ⟨1, 3⟩ :: List.replicate 7 none⟩ := by decide

/-- `StoredBlockCopiesItsBytes`: the four clauses, one byte short and with just the bytes there are. -/
theorem test_meets_stored :
    let len (u : IUnit) := (u.inp.read ((u.bitpos + 7) / 8)).toNat + 256 * (u.inp.read ((u.bitpos + 7) / 8 + 1)).toNat
    let nlen (u : IUnit) := (u.inp.read ((u.bitpos + 7) / 8 + 2)).toNat + 256 * (u.inp.read ((u.bitpos + 7) / 8 + 3)).toNat
    let short := unitAt [1, 3, 0, 0xFC] 3
    let wrong := unitAt [1, 3, 0, 0xFC, 0xFE] 3
    let cut := unitAt [1, 3, 0, 0xFC, 0xFF, 0x61, 0x62] 3
    let good := unitAt [1, 3, 0, 0xFC, 0xFF, 0x61, 0x62, 0x63] 3
    good.out.wf ∧ short.inLen < (short.bitpos + 7) / 8 + 4 ∧
    (¬ wrong.inLen < 1 + 4 ∧ wrong.nlenCheck = true ∧ nlen wrong ≠ len wrong ^^^ 0xFFFF) ∧
    (nlen cut = len cut ^^^ 0xFFFF ∧ cut.inLen < 1 + 4 + len cut) ∧
    (nlen good = len good ^^^ 0xFFFF ∧ ¬ good.inLen < 1 + 4 + len good) := by
  simp only [Memory.wf]
  decide

/-- `DynamicHeaderBuildsTheCodeLengthCode`: V-Y7, V-Y6 and P3: cut short, over-subscribed, built. -/
theorem test_meets_dynamic :
    let hc (u : IUnit) := bitField u.inBit 4 (u.bitpos + 10) + 4
    let short := unitAt [0x05] 3
    let excess := unitAt [0x05, 0x00, 0x92, 0x00] 3
    let good := unitAt [0x0D, 0xC0, 0x81, 0, 0, 0, 0, 0x80, 0x20] 3
    good.out.wf ∧ 8 * short.inLen < short.bitpos + 14 + 3 * hc short ∧
    (¬ 8 * excess.inLen < excess.bitpos + 14 + 3 * hc excess ∧
      (after (exec (.dynamic true) (withI excess))).i.errKind = some .format) ∧
    (¬ 8 * good.inLen < good.bitpos + 14 + 3 * hc good ∧ (after (exec (.dynamic true) (withI good))).i.phase = .clen) := by
  simp only [Memory.wf]
  decide +kernel

/-- `ExplicitCodeLength`, `RepeatPreviousLength`, `RepeatZeroLength`: the shortest and the longest length, in the middle
of the lengths and closing them; no length before, the extra bits cut, too many lengths, and just enough of them. -/
theorem test_meets_codeLengths :
    let u := { unitAt [0xFF] 0 with phase := .clen, hlit := 257, hdist := 1 }
    ((0 ≤ 15 ∧ 15 ≤ 15) ∧ u.lidx < u.llen.length ∧ { u with lidx := 319 }.lidx < u.llen.length) ∧
    (u.lengthsAdded 1 15).lidx ≠ u.hlit + u.hdist ∧ ({ u with lidx := 257 }.lengthsAdded 1 0).lidx = u.hlit + u.hdist ∧
    u.hlit + u.hdist ≤ u.llen.length ∧ u.lidx = 0 ∧
    8 * u.inLen < { u with bitpos := 7 }.bitpos + 2 ∧
    (bitField u.inBit 2 u.bitpos = 3 ∧ u.hlit + u.hdist < { u with lidx := 253 }.lidx + (3 + 3) ∧
      u.hlit + u.hdist = { u with lidx := 252 }.lidx + (3 + 3)) ∧
    (bitField u.inBit 3 u.bitpos = 7 ∧ u.hlit + u.hdist = { u with lidx := 248 }.lidx + (3 + 7)) ∧
    (bitField u.inBit 7 u.bitpos = 127 ∧ u.hlit + u.hdist = { u with lidx := 120 }.lidx + (11 + 127)) := by
  decide +kernel

/-- The hypotheses of `LengthRuns` in a unit with one byte of output, behind `extra` bits a distance code of symbol 0. -/
def LengthMeets (sym base extra : Nat) : Prop :=
  let u := { bodyUnit [0] 0 with outlen := 1 }
  u.out.wf ∧ u.bitpos + extra ≤ 8 * u.inLen ∧
    decodeSym u.dtab (u.lengthRead sym base extra) = .ok 0 ((u.lengthRead sym base extra).seek (extra + 1)) ∧
    0 < 30 ∧ extra + 1 + dextra.getD 0 0 ≤ 8 * u.inLen ∧
    dbase.getD 0 0 + bitField u.inBit (dextra.getD 0 0) (extra + 1) ≤ u.outlen

/-- `LengthsWithoutExtraBits`, `LengthsOfOneToThreeExtraBits`, `LengthsOfFourAndFiveExtraBits`: every number of extra bits
there is. -/
theorem test_meets_lengths : LengthMeets 257 3 0 ∧ LengthMeets 265 11 1 ∧ LengthMeets 269 19 2 ∧ LengthMeets 273 35 3 ∧
    LengthMeets 277 67 4 ∧ LengthMeets 284 227 5 ∧ LengthMeets 285 258 0 := by
  refine ⟨?_, ?_, ?_, ?_, ?_, ?_, ?_⟩ <;> exact ⟨Memory.wf_nil, by decide, rfl, by decide, by decide, by decide⟩

/-- The same with the farthest distance: symbol 29 with all its 13 extra bits set, 32768 bytes of output behind. -/
theorem test_meets_farthest :
    let u := { bodyUnit [0xFF, 0xFF, 0xFF] 0 with outlen := 32768, dtab := pairD 0 29 }
    u.bitpos + 5 ≤ 8 * u.inLen ∧
    decodeSym u.dtab (u.lengthRead 284 227 5) = .ok 29 ((u.lengthRead 284 227 5).seek 6) ∧ 29 < 30 ∧
    6 + dextra.getD 29 0 ≤ 8 * u.inLen ∧
    dbase.getD 29 0 + bitField u.inBit (dextra.getD 29 0) 6 = u.outlen := by
  exact ⟨by decide, rfl, by decide, by decide, by decide⟩

/-- `MatchErrorsInStreamOrder`, and the first clause of `LengthRuns`: the length's extra bits cut; no bit for the distance code; the reserved distance symbols;
the distance's extra bits cut; a distance one further than the output. -/
theorem test_meets_matchErrors :
    (lenInstrs[8]? = some .len265 ∧ lenInstrs[0]? = some .len257 ∧ lenInstrs[28]? = some .len285) ∧
    (0 < lextra.getD 8 0 ∧ 8 * (bodyUnit [0] 8).inLen < (bodyUnit [0] 8).bitpos + lextra.getD 8 0) ∧
    (let u := (bodyUnit [0] 8).lengthRead 257 3 0
     decodeSym u.dtab u = .raised (u.raise .truncated)) ∧
    (let u := ({ bodyUnit [0x80] 6 with dtab := pairD 30 31 }).lengthRead 257 3 0
     decodeSym u.dtab u = .ok 30 (u.seek 7) ∧ decodeSym u.dtab (u.seek 7) = .ok 31 (u.seek 8)) ∧
    (let u := ({ bodyUnit [0] 7 with dtab := pairD 4 29 }).lengthRead 257 3 0
     decodeSym u.dtab u = .ok 4 (u.seek 8) ∧ 0 < dextra.getD 4 0 ∧ 8 * u.inLen < 8 + dextra.getD 4 0) ∧
    (let u := ({ bodyUnit [0] 0 with outlen := 0 }).lengthRead 257 3 0
     decodeSym u.dtab u = .ok 0 (u.seek 1) ∧ 1 + dextra.getD 0 0 ≤ 8 * u.inLen ∧
       u.outlen < dbase.getD 0 0 + bitField u.inBit (dextra.getD 0 0) 1) :=
  ⟨⟨rfl, rfl, rfl⟩, by decide, rfl, ⟨rfl, rfl⟩, ⟨rfl, by decide, by decide⟩, ⟨rfl, by decide, by decide⟩⟩

/-- `DistancesUpTo64`, `DistancesFrom65To4096`, `DistancesFrom4097To32768`: extra bits one short, a distance one too far,
and the farthest there is, for no extra bits, one, and thirteen. -/
theorem test_meets_distances :
    let u := unitAt [0xFF, 0xFF]
    (u 0).out.wf ∧ (0 < 1 ∧ 8 * (u 16).inLen < (u 16).bitpos + 1) ∧ (0 < 13 ∧ 8 * (u 4).inLen < (u 4).bitpos + 13) ∧
    (¬ 8 * (u 3).inLen < (u 3).bitpos + 13 ∧ 24577 + bitField (u 3).inBit 13 3 = 32768 ∧
      { u 3 with outlen := 32767 }.outlen < 32768 ∧ ¬ { u 3 with outlen := 32768 }.outlen < 32768) ∧
    (1 + bitField (u 16).inBit 0 16 = 1 ∧ { u 16 with outlen := 0 }.outlen < 1 ∧ ¬ { u 16 with outlen := 1 }.outlen < 1) := by
  simp only [Memory.wf]
  decide

/-- `MatchRunsItsDistanceElement`: the length symbol without extra bits before a distance symbol with an element, and one
with five, which are just there, before a reserved one. -/
theorem test_meets_distanceElement :
    (let s := { bodyUnit [0b10] 0 with dtab := pairD 29 31 }
     let u := s.lengthRead 257 3 0
     lenInstrs[0]? = some .len257 ∧ lextra.getD 0 0 = 0 ∧ decodeSym u.dtab u = .ok 29 (u.seek 1) ∧
       decode .ds 29 = .ok .dist29) ∧
    (let s := { bodyUnit [0, 0b100] 5 with dtab := pairD 29 31 }
     let u := s.lengthRead 284 227 5
     lenInstrs[27]? = some .len284 ∧ s.bitpos + lextra.getD 27 0 ≤ 8 * s.inLen ∧
       decodeSym u.dtab u = .ok 31 (u.seek 11) ∧ decode .ds 31 = .ok (.rsvd 31)) :=
  ⟨⟨rfl, rfl, rfl, rfl⟩, rfl, by decide, rfl, rfl⟩

/-- `LiteralAppendsItsByte`, `CopyRepeatsTheBytesBeforeIt`: an output space with bytes, and the distances 1 and all of
it. -/
theorem test_meets_copy :
    let u := { unitAt [] 0 with out := bytesAt 0 [0x61, 0x62], outlen := 2 }
    u.out.wf ∧ (1 ≤ { u with mdist := 1 }.mdist ∧ { u with mdist := 2 }.mdist ≤ u.outlen) ∧
    firstBytes (copyMatch 5 { u with mdist := 2 }).out 7 = [0x61, 0x62, 0x61, 0x62, 0x61, 0x62, 0x61] := by
  simp only [Memory.wf]
  decide

/-- `NoneSubAndUpReconstruct`, `AverageReconstructs`, `PaethReconstructs`: rows of canonical form and the least and the
greatest legal `BPP`; the last row and one before it. -/
theorem test_meets_filters :
    let u := { rowsUnit [0, 1, 2, 3, 2, 1, 2, 3] 3 2 1 with rows := bytesAt 0 [1, 2, 3] }
    u.rows.wf ∧ u.bppLegal = true ∧ { u with bpp := 4 }.bppLegal = true ∧ u.row + 1 < u.height.toNat ∧
    ¬ { u with row := 1 }.row + 1 < u.height.toNat := by
  simp only [Memory.wf]
  decide

/-- `UnfilterRestoresTheImage`: an image of two rows of two bytes, its second row filtered with `UP`. -/
theorem test_meets_image :
    let s := withU (rowsUnit [0, 10, 20, 2, 1, 2] 2 2 1)
    let o : Nat → Byte := fun k => BitVec.ofNat 8 ([10, 20, 11, 22].getD k 0)
    s.uAlone ∧ s.u.start = false ∧ s.u.busy = true ∧ s.u.row = 0 ∧ s.u.rows.wf ∧ s.u.bppLegal = true ∧
    s.u.stride = s.u.width.toNat * s.u.bpp.toNat ∧ 0 < s.u.height.toNat ∧
    s.u.height.toNat * (1 + s.u.stride) ≤ s.rawLen ∧
    s.rawSpace.Filtered o s.u.bpp.toNat s.u.stride s.u.height.toNat := by
  simp only [Memory.wf, State.uAlone, Memory.Filtered]
  decide

/-- The U-unit about to take its command. -/
def startU0 (height bpp : Nat) : State :=
  withU { rowsUnit [0, 1, 2, 3] 3 height bpp with phase := .idle, start := true }

/-- `UnfilterStartChecksTheGeometry`: legal `BPP` at both ends with a row and with none, illegal `BPP` on either side, and
a chained start on a result. -/
theorem test_meets_geometry :
    ((startU0 1 1).uAlone ∧ (startU0 1 1).u.start = true ∧ (startU0 1 1).u.busy = false ∧
      (startU0 1 1).u.chainCmd = false) ∧
    (1 ≤ (startU0 1 1).u.bpp.toNat ∧ (startU0 1 4).u.bpp.toNat ≤ 4 ∧ 0 < (startU0 1 1).u.height.toNat ∧
      ¬ 0 < (startU0 0 1).u.height.toNat) ∧
    (¬ 1 ≤ (startU0 1 0).u.bpp.toNat ∧ ¬ (startU0 1 5).u.bpp.toNat ≤ 4) ∧
    (let s : State := ⟨{ unitAt [] 0 with phase := .done }, { (startU0 1 1).u with chainCmd := true }, 0⟩
     s.uAlone ∧ s.u.chainCmd = true ∧ s.i.phase = .done) := by
  simp only [State.uAlone]
  decide

/-- The I-unit about to take its command. -/
def startI0 (bytes : List Nat) : State := withI { unitAt bytes 0 with start := true }

/-- `ResetValuesAndStart`. -/
theorem test_meets_start : (startI0 [3, 0]).iAlone ∧ (startI0 [3, 0]).i.start = true ∧
    (startI0 [3, 0]).i.busy = false ∧ (startI0 [3, 0]).u.usesOut = false := by
  simp only [State.iAlone]
  decide

/-- `HostWritesAreReadBack`, `NoHostWriteWhileBusy`, `ChainedRunReadsTheOutput`: both units unlocked with canonical
spaces, inside bounds with an input length that reaches `IN_MAX` and one beyond it; each kind of lock; a chained start
without a result, with a run about to start, and with a result. -/
theorem test_meets_host :
    (State.reset.MemoryCanonical ∧ State.reset.iLocked = false ∧ State.reset.uLocked = false) ∧
    (let b : Bounds := ⟨some 3, some 0⟩
     State.reset.within b ∧ (∀ m ∈ b.inMax, 3 ≤ m) ∧ ∀ m ∈ b.inMax, m < 4) ∧
    ((withI (bodyUnit [0b10] 0)).i.busy = true ∧ (startI0 [3, 0]).i.start = true ∧
      (let u := { rowsUnit [0, 1] 1 1 1 with chained := true }
       u.chained = true ∧ u.busy = true) ∧
      (let u := { (startU0 1 1).u with chainCmd := true }
       u.start = true ∧ u.chainCmd = true)) ∧
    (State.reset.i.phase ≠ .done ∧ (withI { unitAt [] 0 with phase := .done, start := true }).i.start = true) ∧
    (let s := withI { unitAt [] 0 with phase := .done }
     s.uLocked = false ∧ s.i.start = false ∧ s.i.phase = .done) :=
  ⟨⟨⟨Memory.wf_nil, Memory.wf_nil, Memory.wf_nil, Memory.wf_nil⟩, rfl, rfl⟩,
    ⟨(State.fits_iff _ _).1 rfl, by decide, by decide⟩, ⟨rfl, rfl, ⟨rfl, rfl⟩, rfl, rfl⟩, ⟨by decide, rfl⟩, rfl, rfl, rfl⟩

/-- R29: `I_CFG` has `NLEN_CHECK` in bit 0 and `STRICT_PEEK` in bit 1. -/
theorem test_icfg_layout : [(false, false), (true, false), (false, true), (true, true)].map
    (fun p => hostRead .iCfg (after (hostAct (.writeICfg p.1 p.2) State.reset))) = [0, 1, 2, 3] := rfl

/-- `HostReadsStatusAndErrorKind`: a result of one byte in each unit, and a command written on it and not yet taken. -/
theorem test_meets_hostReads :
    let i := { unitAt [] 0 with phase := .done, out := bytesAt 0 [0x61], outlen := 1, outLen := 1 }
    let u := { rowsUnit [0, 1] 1 1 1 with phase := .done, rows := bytesAt 0 [1], rowsLen := 1 }
    (i.start = false ∧ i.phase = .done ∧ 0 < i.outLen ∧ hostReadOut 0 (withI i) = 0x61) ∧
    (u.start = false ∧ u.phase = .done ∧ 0 < u.rowsLen ∧ hostReadRows 0 (withU u) = 1) ∧
    (let t := after (hostAct (.writeICmd true) (withI i))
     t.i.start = true ∧ hostRead .iStatus t = 1) ∧
    (let t := after (hostAct (.writeUCmd true false) (withU u))
     t.u.start = true ∧ hostRead .uStatus t = 1) := by decide

/-- `StepRunsTheDecodedElement`: the last three bits of the buffer are a header; a code-length and a literal/length code
are decoded; the scanline just fits. -/
theorem test_meets_step :
    (let s := withI { unitAt [0x60] 5 with phase := .hdr }
     s.iAlone ∧ s.i.start = false ∧ s.i.phase = .hdr ∧ s.i.bitpos + 3 ≤ 8 * s.i.inLen ∧
       decode .bh (bitField s.i.inBit 3 s.i.bitpos) = .ok (.fixed true)) ∧
    (let u := { unitAt [0x80] 7 with phase := .clen, cltab := pairD 18 15 }
     (withI u).iAlone ∧ decodeSym u.cltab u = .ok 15 (u.seek 8) ∧ decode .cl 15 = .ok (.cllit 15)) ∧
    ((withI (bodyUnit [0x80] 7)).iAlone ∧ decodeSym smallL (bodyUnit [0x80] 7) = .ok 256 (bodyUnit [0x80] 8) ∧
      decode .ll 256 = .ok .eob) ∧
    (let s := withU (rowsUnit [4, 1, 2] 2 1 1)
     s.uAlone ∧ s.u.start = false ∧ s.u.busy = true ∧ s.u.row < s.u.height.toNat ∧
       (s.u.row + 1) * (1 + s.u.stride) = s.rawLen ∧
       decode .fs (s.rawSpace.read (s.u.row * (1 + s.u.stride))).toNat = .ok .filterPaeth) :=
  ⟨⟨⟨rfl, rfl⟩, rfl, rfl, by decide, rfl⟩, ⟨⟨rfl, rfl⟩, rfl, rfl⟩, ⟨⟨rfl, rfl⟩, rfl, rfl⟩,
    ⟨rfl, rfl⟩, rfl, rfl, by decide, rfl, rfl⟩

/-- `FailedFetchEndsTheRun`: two bits left for a header; no bit for a symbol; a scanline one byte short. -/
theorem test_meets_failedFetch :
    (let s := withI { unitAt [0] 6 with phase := .hdr }
     s.iAlone ∧ s.i.start = false ∧ 8 * s.i.inLen < s.i.bitpos + 3) ∧
    (let u := { unitAt [0] 8 with phase := .clen, cltab := pairD 0 1 }
     (withI u).iAlone ∧ decodeSym u.cltab u = .raised (u.raise .truncated)) ∧
    ((withI (bodyUnit [0] 8)).iAlone ∧ decodeSym smallL (bodyUnit [0] 8) = .raised ((bodyUnit [0] 8).raise .truncated)) ∧
    (let s := withU (rowsUnit [4, 1] 2 1 1)
     s.uAlone ∧ s.u.start = false ∧ s.u.busy = true ∧ s.u.row < s.u.height.toNat ∧
       s.rawLen + 1 = (s.u.row + 1) * (1 + s.u.stride)) :=
  ⟨⟨⟨rfl, rfl⟩, rfl, by decide⟩, ⟨⟨rfl, rfl⟩, rfl⟩, ⟨⟨rfl, rfl⟩, rfl⟩, ⟨rfl, rfl⟩, rfl, rfl, by decide, rfl⟩

/-- Both units mid-run. -/
def bothRun : State := ⟨bodyUnit [0b10] 0, rowsUnit [0, 1] 1 1 1, 0⟩

/-- `RestingBlockStaysAndOneUnitStepsAtATime`, `UnitsDoNotInterfere`: nothing to do, and both units ready, each with a
step. -/
theorem test_meets_units :
    (State.reset.i.start = false ∧ State.reset.u.start = false ∧ State.reset.i.busy = false ∧
      State.reset.u.busy = false) ∧
    bothRun.iReady = true ∧ bothRun.uReady = true ∧ bothRun.u.usesOut = false ∧
    (∃ a, stepI bothRun = .next a) ∧ ∃ b, stepU bothRun = .next b :=
  ⟨⟨rfl, rfl, rfl, rfl⟩, rfl, rfl, rfl, ⟨_, rfl⟩, _, rfl⟩

/-- `PhaseTransitionsAreThoseOfR28`, `CursorMovesForwardInTheBuffer`, `StepOnlyAppendsAndNeverWritesInputs`,
`EveryStepKeepsMemoryCanonical`: a start and an element, the cursor in the buffer, canonical spaces. -/
theorem test_meets_steps :
    ((startI0 [3, 0]).iReady = true ∧ (startI0 [3, 0]).i.bitpos ≤ 8 * (startI0 [3, 0]).i.inLen ∧
      ∃ t, stepI (startI0 [3, 0]) = .next t) ∧
    (let s := withI (bodyUnit [0b10] 0)
     s.iReady = true ∧ s.i.bitpos ≤ 8 * s.i.inLen ∧ (∃ t, stepI s = .next t) ∧ ∃ t, step s = .next t) ∧
    (withI (bodyUnit [0b10] 0)).MemoryCanonical ∧ (∃ t, hostAct (.writeRaw 0 7) (withI (bodyUnit [0b10] 0)) = .next t) :=
  ⟨⟨rfl, by decide, _, rfl⟩, ⟨rfl, by decide, ⟨_, rfl⟩, _, rfl⟩,
    ⟨by simp only [Memory.wf]; decide, Memory.wf_nil, Memory.wf_nil, Memory.wf_nil⟩, _, rfl⟩

/-- `StepOnlyAppendsAndNeverWritesInputs`, its bounds (R8, U4): the byte appended just fits `OUT_MAX`, is one too many, and
has 65534 to spare. -/
theorem test_meets_bounds :
    let s := withI (bodyUnit [0b10] 0)
    let t := after (step s)
    (step s = .next t ∧ s.i.out.wf ∧ s.i.inLen = 1 ∧ t.i.outlen = 1) ∧
    (t.fits ⟨some 1, some 1⟩ = true ∧ stepWithin ⟨some 1, some 1⟩ s = .next t) ∧
    (t.fits ⟨some 1, some 0⟩ = false ∧ stepWithin ⟨some 1, some 0⟩ s = .refused .overCapacity) ∧
    s.i.outlen + 65535 ≤ 65535 :=
  ⟨⟨rfl, Memory.wf_nil, rfl, rfl⟩, ⟨rfl, rfl⟩, ⟨rfl, rfl⟩, by decide⟩

/-- The U-unit at rest has its invariant. -/
theorem inv_restingU : UUnit.Inv UUnit.reset where
  notRestarted := by decide
  geometry := by decide
  ft := by decide
  col := by decide
  errKind := by decide
  errCause := by decide
  rowsLen := by decide

/-- The registers, arrays and tables of a unit over the small tables are in range. -/
theorem inRange_body (p : Phase) (start bfin : Bool) :
    { bodyUnit [0b10] 0 with phase := p, start := start, bfinal := bfin }.InRange where
  btype := by show 1 ≤ 3; decide
  slen := Nat.zero_le _
  snlen := Nat.zero_le _
  hlit := Nat.zero_le _
  hdist := Nat.zero_le _
  hclen := Nat.zero_le _
  lidx := Nat.zero_le _
  sym := Nat.zero_le _
  mlen := Nat.zero_le _
  dsym := Nat.zero_le _
  mdist := Nat.zero_le _
  cllen := ⟨List.length_replicate, fun _ hl => (List.eq_of_mem_replicate hl).le.trans (by decide)⟩
  llen := ⟨List.length_replicate, fun _ hl => (List.eq_of_mem_replicate hl).le.trans (by decide)⟩
  cltab := by show Table.empty.wf 7 18; simp [Table.empty, Table.wf]
  ltab := by show smallL.wf 15 287; simp [smallL, Table.wf]
  dtab := by show (pairD 0 1).wf 15 31; simp [pairD, Table.wf]

/-- The invariant of that unit in a run. -/
theorem inv_body : (bodyUnit [0b10] 0).Inv where
  inRange := inRange_body .body false true
  notRestarted := by decide
  cursor := by decide
  lengths := by decide
  errKind := by decide
  errCause := by decide
  outLen := by decide

/-- The invariant of that unit at rest, about to start or not. -/
theorem inv_idle (start bfin : Bool) :
    { bodyUnit [0b10] 0 with phase := .idle, start := start, bfinal := bfin }.Inv where
  inRange := inRange_body .idle start bfin
  notRestarted := fun _ => rfl
  cursor := by intro h; cases h
  lengths := by intro h; cases h
  errKind := by show (none : Option ErrKind).isSome = true ↔ Phase.idle = Phase.error; decide
  errCause := by show (none : Option ErrKind) ≠ some .unsupported; decide
  outLen := rfl

/-- `StepCompletesAndKeepsTheInvariant`, `HostActionsKeepTheInvariant`, `EveryRunEnds`: a run in progress has the
invariant. -/
theorem test_meets_invariant : (withI (bodyUnit [0b10] 0)).Inv ∧ (withI (bodyUnit [0b10] 0)).i.busy = true ∧
    (withI (bodyUnit [0b10] 0)).uReady = false ∧
    ∃ t, hostAct (.writeRaw 0 7) (withI (bodyUnit [0b10] 0)) = .next t :=
  ⟨⟨inv_body, inv_restingU, by intro h; cases h⟩, rfl, rfl, _, rfl⟩

/-- A U-unit run beside an I-unit at rest. -/
def rowRun : State := ⟨{ bodyUnit [0b10] 0 with phase := .idle, start := false, bfinal := true }, rowsUnit [0, 1] 1 1 1, 0⟩

/-- `EveryRunEnds`, its second clause: a U-unit run in progress has the invariant. -/
theorem test_meets_invariant_u : rowRun.Inv ∧ rowRun.u.busy = true ∧ rowRun.iReady = false := by
  have h : UUnit.Inv (rowsUnit [0, 1] 1 1 1) := by constructor <;> decide
  exact ⟨⟨inv_idle false true, h, by intro h; cases h⟩, rfl, rfl⟩

/-- A machine about to start, `BFINAL` left over from an earlier run. -/
def restart (bfin : Bool) : State := withI { bodyUnit [0b10] 0 with phase := .idle, start := true, bfinal := bfin }

/-- `RunIsIndependentOfHistory`: two machines about to start on the same stream with different leftovers. -/
theorem test_meets_history :
    ((restart true).Inv ∧ (restart false).Inv) ∧ ((restart true).MemoryCanonical ∧ (restart false).MemoryCanonical) ∧
    ((restart true).iAlone ∧ (restart false).iAlone) ∧ (restart true).i.start = true ∧ (restart false).i.start = true ∧
    (restart true).i.sameInputs (restart false).i ∧ 1 ≤ 1 ∧ (∃ t, (restart true).afterSteps 1 = .next t) ∧
    ∃ t, (restart false).afterSteps 1 = .next t := by
  have inv : ∀ b, (restart b).Inv := fun b => ⟨inv_idle true b, inv_restingU, by intro h; cases h⟩
  have mem : ∀ b, (restart b).MemoryCanonical := fun b =>
    ⟨by show Memory.wf (bytesAt 0 [0b10]); simp only [Memory.wf]; decide, Memory.wf_nil, Memory.wf_nil, Memory.wf_nil⟩
  exact ⟨⟨inv _, inv _⟩, ⟨mem _, mem _⟩, ⟨⟨rfl, rfl⟩, rfl, rfl⟩, rfl, rfl, ⟨rfl, rfl, rfl, fun _ _ => rfl⟩, le_refl 1,
    ⟨_, rfl⟩, _, rfl⟩

end Sys2Proof.Machine.Tests
end

/-! # The step of the I-unit as an operation of that unit

`stepI` decodes a field and dispatches on the element. For what every step keeps, it is enough to know what each field
value does to the unit; the functions here say that, and `stepI_eq_onI` ties them to the step. -/
section
namespace Sys2Proof.Machine

/-- What a block header field does to the I-unit (R181, R190, R192, R193, R199). -/
def headerElement (h : Nat) (u : IUnit) : Res IUnit Unit :=
  match h / 2 with
  | 0 => storedBody (u.setHeader (h % 2 == 1) 0)
  | 1 => .ok () (u.setHeader (h % 2 == 1) 1).useFixedTables
  | 2 => dynHeader (u.setHeader (h % 2 == 1) 2)
  | 3 => .raised ((u.setHeader (h % 2 == 1) 3).raise .format)
  | _ => .refused (.noElement (.noHeader h))

/-- What a code-length symbol does to the I-unit (R195-R198). -/
def clElement (v : Nat) (u : IUnit) : Res IUnit Unit :=
  if v ≤ 15 then endCodeLength (pushLens 1 v u)
  else if v = 16 then
    if u.lidx = 0 then .raised (u.raise .format)
    else (basePlusExtra 3 2 u).bind fun rep w => repeatLen rep w.prevLen w
  else if v = 17 then (basePlusExtra 3 3 u).bind fun rep w => repeatLen rep 0 w
  else if v = 18 then (basePlusExtra 11 7 u).bind fun rep w => repeatLen rep 0 w
  else .refused (.noElement (.noCodeLengthSymbol v))

/-- What a literal/length symbol does to the I-unit (R221-R253). -/
def llElement (v : Nat) (u : IUnit) : Res IUnit Unit :=
  if v ≤ 255 then .ok () ((u.setSym v).append (BitVec.ofNat 8 v))
  else if v = 256 then .ok () (endBlock (u.setSym 256))
  else if v ≤ 285 then matchElement v u
  else if v ≤ 287 then .raised ((u.setSym v).raise .huffman)
  else .refused (.noElement (.noLitLenSymbol v))

/-- The next element of a run, fetched and executed (R28, R180); nothing outside a run. -/
def IUnit.element (u : IUnit) : Res IUnit Unit :=
  match u.phase with
  | .hdr => (fetchHeader u).bind fun w v => headerElement w.2 v
  | .clen => (decodeSym u.cltab u).bind clElement
  | .body => (decodeSym u.ltab u).bind llElement
  | .idle | .done | .error => .ok () u

theorem runI_header (s : State) (h : Nat) (i : IUnit) :
    runI s (.ok (.bh, h) i) = onI s (headerElement h i) := by
  unfold runI headerElement
  simp only [decode, decodeBH]
  match h / 2 with
  | 0 | 1 | 2 | 3 | n + 4 => rfl

theorem runI_codeLength (s : State) (v : Nat) (i : IUnit) :
    runI s (.ok (.cl, v) i) = onI s (clElement v i) := by
  unfold runI clElement
  simp only [decode, decodeCL]
  by_cases h : v ≤ 15
  · simp only [h, if_true]; rfl
  · by_cases h16 : v = 16
    · subst h16; rfl
    · by_cases h17 : v = 17
      · subst h17; rfl
      · by_cases h18 : v = 18
        · subst h18; rfl
        · simp only [h, h16, h17, h18, if_false]; rfl

theorem runI_litLen (s : State) (v : Nat) (i : IUnit) :
    runI s (.ok (.ll, v) i) = onI s (llElement v i) := by
  by_cases h : v ≤ 255
  · have hv : (BitVec.ofNat 8 v).toNat = v := by simp; omega
    have hd : decode .ll v = .ok (.lit (BitVec.ofNat 8 v)) := if_pos h
    simp only [runI, hd, llElement, if_pos h]
    show onI _ (.ok () ((i.setSym (BitVec.ofNat 8 v).toNat).append _)) = _
    rw [hv]; rfl
  · by_cases hv : v ≤ 287
    · have hlo : 256 ≤ v := by omega
      interval_cases v <;> rfl
    · have hd : decode .ll v = .error (.noLitLenSymbol v) := by
        have hn : lenInstrs[v - 257]? = none :=
          List.getElem?_eq_none (by show 29 ≤ v - 257; omega)
        simp only [decode, decodeLL, hn, if_neg h, if_neg hv, if_neg (by omega : ¬v = 256)]
      simp only [runI, hd, llElement, if_neg h, if_neg hv, if_neg (by omega : ¬v = 256),
        if_neg (by omega : ¬v ≤ 285), onI_refused]

/-- Running a fetched field is the fetch followed by what the field does. -/
theorem runI_bind {α : Type} {s : State} {r : Res IUnit α} {g : α → Format × Nat} {f : α → IUnit → Res IUnit Unit}
    (h : ∀ a i, runI s (.ok (g a) i) = onI s (f a i)) :
    runI s (r.bind fun a i => .ok (g a) i) = onI s (r.bind f) := by
  cases r with
  | ok a i => exact h a i
  | raised i => rfl
  | fault e => rfl
  | refused e => rfl

/-- Without a pending `START` the step of the I-unit is its next element. -/
theorem stepI_eq_onI {s : State} (h : s.i.start = false) : stepI s = onI s s.i.element := by
  rcases stepI_cases s with ⟨h', _⟩ | ⟨_, hp, e⟩ | ⟨_, hp, e⟩ | ⟨_, hp, e⟩ | ⟨_, hb, e⟩
  · rw [h] at h'; cases h'
  · have hf : fetchHeader s.i = (fetchHeader s.i).bind fun w v => .ok (.bh, w.2) v := by
      rcases fetchHeader_cases s.i with ⟨_, hf⟩ | ⟨_, v, hf, _⟩ <;> rw [hf] <;> rfl
    rw [e, hf, IUnit.element, hp]
    exact runI_bind fun w i => runI_header s w.2 i
  · rw [e, IUnit.element, hp]
    exact runI_bind (runI_codeLength s)
  · rw [e, IUnit.element, hp]
    exact runI_bind (runI_litLen s)
  · rw [e, IUnit.element]
    revert hb
    unfold IUnit.busy
    cases s.i.phase <;> simp

end Sys2Proof.Machine
end

/-! # O57: the step completes and keeps the invariant -/

section
namespace Sys2Proof.Machine

/-! ## The fixed tables (R165) -/

theorem rev_lt (c n : Nat) : rev c n < 2 ^ n := by
  induction n generalizing c with
  | zero => simp [rev]
  | succ n ih =>
    have h := ih (c / 2)
    have hb : 2 ^ n * (c % 2) ≤ 2 ^ n * 1 := Nat.mul_le_mul_left _ (by omega)
    simp only [rev, Nat.pow_succ]
    omega

theorem fixedLEntry_range (idx : Nat) :
    1 ≤ (fixedLEntry idx).len ∧ (fixedLEntry idx).len ≤ 9 ∧ (fixedLEntry idx).sym ≤ 287 := by
  have h : rev idx 9 < 512 := rev_lt idx 9
  unfold fixedLEntry
  generalize rev idx 9 = r at h
  dsimp only
  split_ifs <;> dsimp only <;> omega

theorem fixedLTab_wf : fixedLTab.wf 15 287 := by
  refine ⟨(by decide : 9 ≤ 15), by rw [fixedLTab, List.length_map, List.length_range]; rfl, fun e he x hx => ?_⟩
  simp only [fixedLTab, List.mem_map] at he
  obtain ⟨idx, -, rfl⟩ := he
  cases hx
  exact fixedLEntry_range idx

theorem fixedDTab_wf : fixedDTab.wf 15 31 := by
  refine ⟨(by decide : 5 ≤ 15), by rw [fixedDTab, List.length_map, List.length_range]; rfl, fun e he x hx => ?_⟩
  simp only [fixedDTab, List.mem_map] at he
  obtain ⟨idx, -, rfl⟩ := he
  cases hx
  have h : rev idx 5 < 32 := rev_lt idx 5
  exact ⟨(by decide : 1 ≤ 5), le_refl 5, Nat.le_of_lt_succ h⟩

/-! ## Between the operations of one element -/

/-- The I-unit between two operations of one element: everything of its invariant but what depends on the phase. -/
structure IUnit.Running (u : IUnit) : Prop where
  inRange : u.InRange
  start : u.start = false
  cursor : u.bitpos ≤ 8 * u.inLen
  errKind : u.errKind = none
  outLen : u.outLen = 0

/-- A run in progress or over, with the invariant: what an element leaves behind. -/
def IUnit.RunInv (u : IUnit) : Prop := u.Inv ∧ u.phase ≠ .idle

theorem IUnit.busy_iff (u : IUnit) : u.busy = true ↔ u.phase = .hdr ∨ u.phase = .clen ∨ u.phase = .body := by
  unfold IUnit.busy
  cases u.phase <;> decide

theorem IUnit.Inv.start_eq_false {u : IUnit} (h : u.Inv) (hb : u.busy = true) : u.start = false := by
  cases hs : u.start with
  | false => rfl
  | true => rw [h.notRestarted hs] at hb; cases hb

theorem IUnit.Inv.running {u : IUnit} (h : u.Inv) (hb : u.busy = true) : u.Running where
  inRange := h.inRange
  start := h.start_eq_false hb
  cursor := h.cursor hb
  errKind := by
    have he := h.errKind
    rcases u.busy_iff.1 hb with hp | hp | hp <;> simpa [hp] using he
  outLen := by
    rw [h.outLen]
    rcases u.busy_iff.1 hb with hp | hp | hp <;> simp [hp]

/-- A unit whose element is over has the invariant, where its phase goes on with the run. -/
theorem IUnit.Running.runInv {u : IUnit} (h : u.Running) (hb : u.busy = true)
    (hl : u.phase = .clen → 257 ≤ u.hlit ∧ 1 ≤ u.hdist ∧ u.lidx < u.hlit + u.hdist) : u.RunInv := by
  have hp := u.busy_iff.1 hb
  refine ⟨⟨h.inRange, fun hs => ?_, fun _ => h.cursor, hl, ?_, by simp [h.errKind], ?_⟩, ?_⟩
  · rw [h.start] at hs; cases hs
  · rcases hp with hp | hp | hp <;> simp [h.errKind, hp]
  · rcases hp with hp | hp | hp <;> simp [h.outLen, hp]
  · rcases hp with hp | hp | hp <;> simp [hp]

theorem IUnit.Running.seek {u : IUnit} (h : u.Running) {p : Nat} (hp : p ≤ 8 * u.inLen) : (u.seek p).Running :=
  { h with inRange := { h.inRange with }, cursor := hp }

theorem IUnit.Running.append {u : IUnit} (h : u.Running) (b : Byte) : (u.append b).Running :=
  { h with inRange := { h.inRange with } }

/-- A raised error leaves the invariant (R350, R340). -/
theorem IUnit.InRange.raise_inv {u : IUnit} (h : u.InRange) {k : ErrKind} (hk : k ≠ .unsupported := by decide) :
    (u.raise k).Inv where
  inRange := { h with }
  notRestarted := fun _ => rfl
  cursor := fun hb => nomatch hb
  lengths := fun hp => nomatch hp
  errKind := by simp
  errCause := by simpa using hk
  outLen := rfl

/-- The end of a block keeps the invariant (R183). -/
theorem IUnit.Running.endBlock_runInv {u : IUnit} (h : u.Running) : (endBlock u).RunInv := by
  unfold endBlock
  split
  · refine ⟨⟨{ h.inRange with }, fun _ => rfl, fun hb => (nomatch hb), fun hp => (nomatch hp), ?_, ?_, rfl⟩, nofun⟩
    · simp [h.errKind]
    · simp [h.errKind]
  · exact IUnit.Running.runInv (u := { u with phase := .hdr }) { h with inRange := { h.inRange with } } rfl nofun

/-! ## What an operation may answer -/

/-- The operation does not stop, completes with `Q`, and raises only into a state with the invariant. -/
inductive Res.Meets {α : Type} (Q : α → IUnit → Prop) : Res IUnit α → Prop
  | ok {a : α} {w : IUnit} (h : Q a w) : Res.Meets Q (.ok a w)
  | raised {w : IUnit} (hi : w.Inv) (hp : w.phase = .error) : Res.Meets Q (.raised w)

section
variable {α β : Type} {P : α → IUnit → Prop} {Q : β → IUnit → Prop}

theorem Res.meets_bind {r : Res IUnit α} {f : α → IUnit → Res IUnit β} (h : r.Meets P)
    (k : ∀ a w, P a w → (f a w).Meets Q) : (r.bind f).Meets Q := by
  cases h with
  | ok h => exact k _ _ h
  | raised hi hp => exact .raised hi hp

theorem Res.Meets.mono {r : Res IUnit α} {R : α → IUnit → Prop} (h : r.Meets P) (k : ∀ a w, P a w → R a w) :
    r.Meets R := by
  cases h with
  | ok h => exact .ok (k _ _ h)
  | raised hi hp => exact .raised hi hp

theorem Res.meets_raise {u : IUnit} (h : u.InRange) {k : ErrKind} (hk : k ≠ .unsupported := by decide) :
    (.raised (u.raise k) : Res IUnit α).Meets P :=
  .raised (h.raise_inv hk) rfl

end

/-! ## The Bit Reader and the tables -/

theorem readBits_meets {n : Nat} {u : IUnit} (h : u.Running) (hn : 1 ≤ n ∧ n ≤ 32 := by decide) :
    (readBits n u).Meets fun v w => v < 2 ^ n ∧ ∃ p, w = u.seek p ∧ w.Running := by
  rcases readBits_cases (u := u) hn with ⟨hb, e⟩ | ⟨_, e⟩ <;> rw [e]
  · exact .ok ⟨bitField_lt u.inBit_lt _ _, _, rfl, h.seek hb⟩
  · exact Res.meets_raise h.inRange

theorem basePlusExtra_meets {base n : Nat} {u : IUnit} (h : u.Running) (hn : n ≤ 32) :
    (basePlusExtra base n u).Meets fun v w => v < base + 2 ^ n ∧ ∃ p, w = u.seek p ∧ w.Running := by
  rcases basePlusExtra_cases (base := base) (u := u) hn with ⟨hb, e⟩ | ⟨_, _, e⟩ <;> rw [e]
  · refine .ok ⟨Nat.add_lt_add_left (bitField_lt u.inBit_lt _ _) _, _, rfl, h.seek ?_⟩
    have := h.cursor
    omega
  · exact Res.meets_raise h.inRange

theorem decodeSym_meets {t : Table} {width top : Nat} {u : IUnit} (h : u.Running) (ht : t.wf width top) :
    (decodeSym t u).Meets fun v w => v ≤ top ∧ ∃ p, w = u.seek p ∧ w.Running := by
  rcases decodeSym_cases ht h.cursor with ⟨e, _, hb, _, hv, hd⟩ | ⟨_, hd⟩ | ⟨_, _, hd⟩ <;> rw [hd]
  · exact .ok ⟨hv, _, rfl, h.seek hb⟩
  · exact Res.meets_raise h.inRange
  · exact Res.meets_raise h.inRange

theorem buildTable_meets {lens : List Nat} {width top : Nat} {u : IUnit} (h : u.InRange)
    (hw : ∀ l ∈ lens, l ≤ width) (hn : lens.length ≤ top + 1) :
    (buildTable lens u).Meets fun t w => t.wf width top ∧ w = u := by
  unfold buildTable
  cases hb : build lens with
  | some t => exact .ok ⟨build_wf hb hw hn, rfl⟩
  | none => exact Res.meets_raise h

/-! ## Block headers -/

theorem copyStored_meets {n : Nat} {u : IUnit} (h : u.Running) : (copyStored n u).Meets fun _ w => w.Running := by
  induction n generalizing u with
  | zero => exact .ok h
  | succ n ih =>
    refine Res.meets_bind (readBits_meets h) ?_
    rintro b _ ⟨_, p, rfl, hw⟩
    exact ih (hw.append _)

theorem alignCursor_running {u : IUnit} (h : u.Running) : (alignCursor u).Running := by
  refine h.seek ?_
  have := h.cursor
  omega

theorem storedLengths_meets {u : IUnit} (h : u.Running) : (storedLengths u).Meets fun _ w => w.Running := by
  refine Res.meets_bind (readBits_meets (alignCursor_running h)) ?_
  rintro len _ ⟨hlen, p, rfl, hw⟩
  refine Res.meets_bind
    (readBits_meets { hw with inRange := { hw.inRange with slen := Nat.le_of_lt_succ hlen } }) ?_
  rintro nlen _ ⟨hnlen, q, rfl, hw⟩
  exact .ok { hw with inRange := { hw.inRange with snlen := Nat.le_of_lt_succ hnlen } }

theorem storedBody_meets {u : IUnit} (h : u.Running) : (storedBody u).Meets fun _ w => w.RunInv := by
  refine Res.meets_bind (storedLengths_meets h) fun _ w hw => ?_
  split
  · exact Res.meets_raise hw.inRange
  · exact Res.meets_bind (copyStored_meets hw) fun _ v hv => .ok hv.endBlock_runInv

theorem dynCounts_meets {u : IUnit} (h : u.Running) :
    (dynCounts u).Meets fun _ w => w.Running ∧ 257 ≤ w.hlit ∧ 1 ≤ w.hdist := by
  refine Res.meets_bind (readBits_meets h) ?_
  rintro a _ ⟨ha, p, rfl, hw⟩
  refine Res.meets_bind
    (readBits_meets { hw with inRange := { hw.inRange with hlit := by show a + 257 ≤ 288; omega } }) ?_
  rintro b _ ⟨hb, q, rfl, hw⟩
  refine Res.meets_bind
    (readBits_meets { hw with inRange := { hw.inRange with hdist := by show b + 1 ≤ 32; omega } }) ?_
  rintro c _ ⟨hc, r, rfl, hw⟩
  exact .ok ⟨{ hw with inRange := { hw.inRange with hclen := by show c + 4 ≤ 19; omega } },
    Nat.le_add_left _ _, Nat.le_add_left _ _⟩

theorem forall_mem_set_le {l : List Nat} {i v n : Nat} (h : ∀ x ∈ l, x ≤ n) (hv : v ≤ n) : ∀ x ∈ l.set i v, x ≤ n :=
  fun x hx => (List.mem_or_eq_of_mem_set hx).elim (h x) fun e => e ▸ hv

theorem readClLens_meets {l : List Nat} {u : IUnit} (h : u.Running) :
    (readClLens l u).Meets fun _ w => w.Running ∧ w.hlit = u.hlit ∧ w.hdist = u.hdist := by
  induction l generalizing u with
  | nil => exact .ok ⟨h, rfl, rfl⟩
  | cons s l ih =>
    refine Res.meets_bind (readBits_meets h) ?_
    rintro v _ ⟨hv, p, rfl, hw⟩
    obtain ⟨hlen, hle⟩ := hw.inRange.cllen
    have hset : (u.cllen.set s v).length = 19 ∧ ∀ x ∈ u.cllen.set s v, x ≤ 7 :=
      ⟨by rw [List.length_set]; exact hlen, forall_mem_set_le hle (Nat.le_of_lt_succ hv)⟩
    exact ih (u := { u.seek p with cllen := u.cllen.set s v })
      { hw with inRange := { hw.inRange with cllen := hset } }

theorem dynHeader_meets {u : IUnit} (h : u.Running) : (dynHeader u).Meets fun _ w => w.RunInv := by
  refine Res.meets_bind (dynCounts_meets h) ?_
  rintro _ w ⟨hw, hlit, hdist⟩
  have hzero : (List.replicate 19 0).length = 19 ∧ ∀ l ∈ List.replicate 19 0, l ≤ 7 :=
    ⟨List.length_replicate, fun l hl => by rw [List.eq_of_mem_replicate hl]; omega⟩
  refine Res.meets_bind (readClLens_meets (u := { w with cllen := List.replicate 19 0 })
    { hw with inRange := { hw.inRange with cllen := hzero } }) ?_
  rintro _ v ⟨hv, hvl, hvd⟩
  obtain ⟨hlen, hle⟩ := hv.inRange.cllen
  refine Res.meets_bind (buildTable_meets (width := 7) (top := 18) hv.inRange hle hlen.le) ?_
  rintro t v ⟨ht, rfl⟩
  refine .ok <| IUnit.Running.runInv
    { hv with inRange := { hv.inRange with cltab := ht, lidx := Nat.zero_le _ } } rfl fun _ => ?_
  show 257 ≤ v.hlit ∧ 1 ≤ v.hdist ∧ 0 < v.hlit + v.hdist
  simp only at hvl hvd
  omega

theorem fetchHeader_meets {u : IUnit} (h : u.Running) : (fetchHeader u).Meets fun w v => w.2 < 8 ∧ v.Running := by
  refine Res.meets_bind (readBits_meets h) ?_
  rintro f _ ⟨hf, p, rfl, hw⟩
  refine Res.meets_bind (readBits_meets { hw with inRange := { hw.inRange with } }) ?_
  rintro t _ ⟨ht, q, rfl, hv⟩
  exact .ok ⟨by show f + 2 * t < 8; omega, hv⟩

theorem headerElement_meets {h : Nat} {u : IUnit} (hh : h < 8) (hu : u.Running) :
    (headerElement h u).Meets fun _ w => w.RunInv := by
  have set : ∀ f t, t ≤ 3 → (u.setHeader f t).Running := fun f t ht =>
    { hu with inRange := { hu.inRange with btype := ht } }
  have hq : h / 2 = 0 ∨ h / 2 = 1 ∨ h / 2 = 2 ∨ h / 2 = 3 := by omega
  unfold headerElement
  rcases hq with hq | hq | hq | hq <;> rw [hq]
  · exact storedBody_meets (set _ 0 (by omega))
  · have hs := set (h % 2 == 1) 1 (by omega)
    exact .ok <| IUnit.Running.runInv (u := (u.setHeader _ 1).useFixedTables)
      { hs with inRange := { hs.inRange with ltab := fixedLTab_wf, dtab := fixedDTab_wf } } rfl nofun
  · exact dynHeader_meets (set _ 2 (by omega))
  · exact Res.meets_raise (set _ 3 (by omega)).inRange

/-! ## Code-length symbols -/

/-- The counts and the index while code-length symbols are read (R194): a next length would still have its place. -/
structure IUnit.Filling (u : IUnit) : Prop extends u.Running where
  phase : u.phase = .clen
  hlit_ge : 257 ≤ u.hlit
  hdist_ge : 1 ≤ u.hdist
  lidx_le : u.lidx ≤ u.hlit + u.hdist

theorem pushLens_filling {n v : Nat} {u : IUnit} (h : u.Filling) (hv : v ≤ 15) (hn : u.lidx + n ≤ u.hlit + u.hdist) :
    (pushLens n v u).Filling := by
  induction n generalizing u with
  | zero => exact h
  | succ n ih =>
    obtain ⟨hlen, hle⟩ := h.inRange.llen
    have hlit := h.inRange.hlit
    have hdist := h.inRange.hdist
    have hset : (u.llen.set u.lidx v).length = 320 ∧ ∀ x ∈ u.llen.set u.lidx v, x ≤ 15 :=
      ⟨by rw [List.length_set]; exact hlen, forall_mem_set_le hle hv⟩
    have hlidx : u.lidx + 1 ≤ 320 := by omega
    refine ih { h with inRange := { h.inRange with llen := hset, lidx := hlidx }, lidx_le := ?_ } ?_
    · show u.lidx + 1 ≤ u.hlit + u.hdist
      omega
    · show u.lidx + 1 + n ≤ u.hlit + u.hdist
      omega

theorem endCodeLength_meets {u : IUnit} (h : u.Filling) : (endCodeLength u).Meets fun _ w => w.RunInv := by
  unfold endCodeLength
  split
  · have hle := h.inRange.llen.2
    have hlit : u.litLens.length ≤ 287 + 1 := by
      simp only [IUnit.litLens, List.length_take]
      have := h.inRange.hlit
      omega
    have hdist : u.distLens.length ≤ 31 + 1 := by
      simp only [IUnit.distLens, List.length_take]
      have := h.inRange.hdist
      omega
    refine Res.meets_bind (buildTable_meets (width := 15) h.inRange
      (fun l hl => hle l (List.mem_of_mem_take hl)) hlit) ?_
    rintro lt _ ⟨hlt, rfl⟩
    refine Res.meets_bind (buildTable_meets (width := 15) { h.inRange with ltab := hlt }
      (fun l hl => hle l (List.mem_of_mem_drop (List.mem_of_mem_take hl))) hdist) ?_
    rintro dt _ ⟨hdt, rfl⟩
    exact .ok <| IUnit.Running.runInv { h with inRange := { h.inRange with ltab := hlt, dtab := hdt } } rfl nofun
  · refine .ok <| h.runInv (u.busy_iff.2 (.inr (.inl h.phase))) fun _ => ⟨h.hlit_ge, h.hdist_ge, ?_⟩
    have := h.lidx_le
    omega

theorem repeatLen_meets {rep v : Nat} {u : IUnit} (h : u.Filling) (hv : v ≤ 15) :
    (repeatLen rep v u).Meets fun _ w => w.RunInv := by
  unfold repeatLen
  split
  · exact Res.meets_raise h.inRange
  · exact endCodeLength_meets (pushLens_filling h hv (by omega))

/-- Extra bits and then copies of a length, the form of all repeat symbols (R196-R198). -/
theorem repeatExtra_meets {base n : Nat} {len : IUnit → Nat} {u : IUnit} (h : u.Filling) (hn : n ≤ 32)
    (hl : ∀ p, len (u.seek p) ≤ 15) :
    ((basePlusExtra base n u).bind fun rep w => repeatLen rep (len w) w).Meets fun _ w => w.RunInv := by
  refine Res.meets_bind (basePlusExtra_meets h.toRunning hn) ?_
  rintro rep _ ⟨_, p, rfl, hw⟩
  exact repeatLen_meets { hw with phase := h.phase, hlit_ge := h.hlit_ge, hdist_ge := h.hdist_ge, lidx_le := h.lidx_le }
    (hl p)

theorem IUnit.InRange.prevLen_le {u : IUnit} (h : u.InRange) : u.prevLen ≤ 15 := by
  unfold IUnit.prevLen
  rw [List.getD_eq_getElem?_getD]
  cases hx : u.llen[u.lidx - 1]? with
  | none => simp
  | some x => exact h.llen.2 x (List.mem_of_getElem? hx)

theorem clElement_meets {v : Nat} {u : IUnit} (h : u.Filling) (hlt : u.lidx < u.hlit + u.hdist) (hv : v ≤ 18) :
    (clElement v u).Meets fun _ w => w.RunInv := by
  unfold clElement
  split
  · exact endCodeLength_meets (pushLens_filling h (by assumption) hlt)
  split
  · split
    · exact Res.meets_raise h.inRange
    · exact repeatExtra_meets h (by decide) fun p => h.inRange.prevLen_le
  split
  · exact repeatExtra_meets (len := fun _ => 0) h (by decide) fun _ => by decide
  split
  · exact repeatExtra_meets (len := fun _ => 0) h (by decide) fun _ => by decide
  · omega

/-! ## Literal/length symbols -/

theorem copyMatch_running {n : Nat} {u : IUnit} (h : u.Running) :
    (copyMatch n u).Running ∧ (copyMatch n u).phase = u.phase := by
  induction n generalizing u with
  | zero => exact ⟨h, rfl⟩
  | succ n ih => exact ih (h.append _)

/-- An element of a block's body that has come to its end. -/
theorem IUnit.Running.body_runInv {u : IUnit} (h : u.Running) (hp : u.phase = .body) : u.RunInv :=
  h.runInv (u.busy_iff.2 (.inr (.inr hp))) fun hc => by rw [hp] at hc; cases hc

theorem distElement_meets {d : Nat} {u : IUnit} (h : u.Running) (hp : u.phase = .body) (hd : d < 30) :
    (distElement d u).Meets fun _ w => w.RunInv := by
  obtain ⟨hx, _, hrow⟩ := distance_rows d hd
  have hsym : IUnit.Running { u with dsym := d } :=
    { h with inRange := { h.inRange with dsym := by show d ≤ 31; omega } }
  refine Res.meets_bind (basePlusExtra_meets hsym (hx.trans (by decide))) ?_
  rintro m _ ⟨hm, p, rfl, hw⟩
  have hdist : m ≤ 32768 := by omega
  have hrange : IUnit.InRange { ({ u with dsym := d } : IUnit).seek p with mdist := m } :=
    { hw.inRange with mdist := hdist }
  split
  · exact Res.meets_raise hrange
  · obtain ⟨hrun, hphase⟩ := copyMatch_running (n := u.mlen) { hw with inRange := hrange }
    exact .ok (hrun.body_runInv (hphase.trans hp))

theorem distance_meets {u : IUnit} (h : u.Running) (hp : u.phase = .body) :
    (distance u).Meets fun _ w => w.RunInv := by
  refine Res.meets_bind (decodeSym_meets h h.inRange.dtab) ?_
  rintro d _ ⟨hd, p, rfl, hw⟩
  by_cases hlt : d < 30
  · rw [distSymbol_of_lt hlt]
    exact distElement_meets hw hp hlt
  · rw [distSymbol_reserved (by omega)]
    exact Res.meets_raise (u := { u.seek p with dsym := d }) { hw.inRange with dsym := hd }

theorem lengthOperand_meets {k : Nat} {u : IUnit} (h : u.Running) (hk : k < 29) :
    (lengthOperand k u).Meets fun m w => m ≤ 258 ∧ ∃ p, w = u.seek p ∧ w.Running := by
  obtain ⟨hx, _, hrow⟩ := length_rows k hk
  have hm := basePlusExtra_meets (base := lbase.getD k 0) h (hx.trans (by decide : 5 ≤ 32))
  exact hm.mono fun m w ⟨hm, hw⟩ => ⟨by omega, hw⟩

theorem matchElement_meets {v : Nat} {u : IUnit} (h : u.Running) (hp : u.phase = .body) (hv : 257 ≤ v ∧ v ≤ 285) :
    (matchElement v u).Meets fun _ w => w.RunInv := by
  have hsym : (u.setSym v).Running := { h with inRange := { h.inRange with sym := by show v ≤ 287; omega } }
  refine Res.meets_bind (lengthOperand_meets hsym (by omega)) ?_
  rintro m _ ⟨hm, p, rfl, hw⟩
  exact distance_meets { hw with inRange := { hw.inRange with mlen := hm } } hp

theorem llElement_meets {v : Nat} {u : IUnit} (h : u.Running) (hp : u.phase = .body) (hv : v ≤ 287) :
    (llElement v u).Meets fun _ w => w.RunInv := by
  have hsym : (u.setSym v).Running := { h with inRange := { h.inRange with sym := hv } }
  unfold llElement
  split
  · exact .ok ((hsym.append _).body_runInv hp)
  split
  · subst v
    exact .ok hsym.endBlock_runInv
  split
  · exact matchElement_meets h hp (by omega)
  · exact Res.meets_raise hsym.inRange

/-- The next element of a run completes or raises, and either way the unit has the invariant. -/
theorem element_meets {u : IUnit} (h : u.Inv) (hb : u.busy = true) : u.element.Meets fun _ w => w.RunInv := by
  have hr := h.running hb
  unfold IUnit.element
  rcases u.busy_iff.1 hb with hp | hp | hp <;> rw [hp]
  · exact Res.meets_bind (fetchHeader_meets hr) fun w v hw => headerElement_meets hw.1 hw.2
  · obtain ⟨hlit, hdist, hlt⟩ := h.lengths hp
    refine Res.meets_bind (decodeSym_meets hr hr.inRange.cltab) ?_
    rintro v _ ⟨hv, p, rfl, hw⟩
    exact clElement_meets { hw with phase := hp, hlit_ge := hlit, hdist_ge := hdist, lidx_le := hlt.le } hlt hv
  · refine Res.meets_bind (decodeSym_meets hr hr.inRange.ltab) ?_
    rintro v _ ⟨hv, p, rfl, hw⟩
    exact llElement_meets hw hp hv

/-! ## The steps of the two units -/

/-- An element that meets its postcondition has a next state. -/
theorem Res.Meets.onI_next {r : Res IUnit Unit} (h : r.Meets fun _ w => w.RunInv) (s : State) :
    ∃ i, onI s r = .next { s with i := i } ∧ i.RunInv := by
  cases h with
  | ok h => exact ⟨_, rfl, h⟩
  | raised hi hp => exact ⟨_, rfl, hi, by rw [hp]; decide⟩

theorem IUnit.Inv.begin_inv {u : IUnit} (h : u.Inv) : u.begin.RunInv :=
  IUnit.Running.runInv
    { inRange := { h.inRange with }, start := rfl, cursor := Nat.zero_le _, errKind := rfl, outLen := rfl } rfl nofun

/-- While the I-unit has something to do, no chained run reads `OUT` (R394). -/
theorem State.Inv.usesOut_eq_false {s : State} (h : s.Inv) (hr : s.iReady = true) : s.u.usesOut = false := by
  cases hu : s.u.usesOut with
  | false => rfl
  | true =>
    obtain ⟨hp, hs⟩ := h.chain hu
    simp [State.iReady, IUnit.busy, hp, hs] at hr

theorem stepI_inv {s : State} (h : s.Inv) (hr : s.iReady = true) :
    ∃ i, stepI s = .next { s with i := i } ∧ i.RunInv := by
  cases hs : s.i.start with
  | true =>
    have hb := h.i.notRestarted hs
    refine ⟨s.i.begin, ?_, h.i.begin_inv⟩
    simp [stepI, hs, startI, hb, h.usesOut_eq_false hr]
  | false =>
    have hb : s.i.busy = true := by simpa [State.iReady, hs] using hr
    rw [stepI_eq_onI hs]
    exact (element_meets h.i hb).onI_next s

theorem UUnit.busy_iff (u : UUnit) : u.busy = true ↔ u.phase = .rowHdr := by
  unfold UUnit.busy
  cases u.phase <;> decide

theorem UUnit.Inv.start_eq_false {u : UUnit} (h : u.Inv) (hb : u.busy = true) : u.start = false := by
  cases hs : u.start with
  | false => rfl
  | true => rw [h.notRestarted hs] at hb; cases hb

/-- What the byte loop leaves of the unit (R303). -/
theorem unfilterBytes_frame (raw : Memory) (n : Nat) (u : UUnit) :
    ∃ rows, unfilterBytes raw n u = { u with rows := rows, col := u.col + n } := by
  induction n generalizing u with
  | zero => exact ⟨u.rows, rfl⟩
  | succ n ih =>
    obtain ⟨rows, e⟩ := ih
      { u with rows := u.rows.write (u.row * u.stride + u.col) (u.rebuilt raw), col := u.col + 1 }
    exact ⟨rows, e.trans (by simp only [Nat.add_assoc, Nat.add_comm 1])⟩

/-- The unit after a scanline, before the loop test (R303, R300). -/
def UUnit.rowDone (ft : Nat) (rows : Memory) (u : UUnit) : UUnit :=
  { u with ft := ft, col := u.stride, row := u.row + 1, rows := rows }

theorem rowElement_rowDone (ft : Nat) (raw : Memory) (u : UUnit) :
    ∃ rows, rowElement ft raw u = .ok () (u.rowDone ft rows).nextRow := by
  obtain ⟨rows, e⟩ := unfilterBytes_frame raw u.stride { u with ft := ft, col := 0 }
  refine ⟨rows, ?_⟩
  rw [rowElement_eq, e]
  simp only [UUnit.rowDone, Nat.zero_add]

/-- Everything a step of a U-unit run can do (R302, R303, R311): raise with a byte in `FT`, or complete the row. -/
theorem stepU_row {s : State} (h : s.u.Inv) (hb : s.u.busy = true) :
    (∃ ft k, ft ≤ 255 ∧ k ≠ .huffman ∧ stepU s = .next { s with u := { s.u with ft := ft }.raise k }) ∨
    ∃ ft rows, ft ≤ 255 ∧ stepU s = .next { s with u := (s.u.rowDone ft rows).nextRow } := by
  have hs := h.start_eq_false hb
  obtain ⟨_, _, hrow⟩ := h.geometry hb
  have e : stepU s = runU s (fetchRow s.rawSpace s.rawLen s.u) := by simp [stepU, hs, hb, hrow]
  rw [e]
  rcases fetchRow_cases s.rawSpace s.rawLen s.u with ⟨_, hf⟩ | ⟨_, hf⟩ <;> rw [hf]
  · obtain ⟨i, hd, he⟩ := decodeFS_byte (s.rawSpace.read s.u.rowBase)
    have hx : runU s (.ok (.fs, (s.rawSpace.read s.u.rowBase).toNat) s.u) = exec i s := by simp [runU, hd]
    rw [hx]
    obtain ⟨r, hr, ⟨ft, hft, rfl⟩ | ⟨ft, rfl, rfl⟩⟩ := exec_onU (e := i) (by rw [he]) s <;> rw [hr]
    · obtain ⟨rows, hrows⟩ := rowElement_rowDone ft s.rawSpace s.u
      exact .inr ⟨ft, rows, by omega, by rw [hrows]; rfl⟩
    · have hft : ft < 256 := by
        cases he
        exact (s.rawSpace.read s.u.rowBase).isLt
      exact .inl ⟨ft, .format, by omega, by decide, rfl⟩
  · exact .inl ⟨s.u.ft, .truncated, h.ft, by decide, rfl⟩

/-- A raised error leaves the invariant (R350, R340). -/
theorem UUnit.raise_inv {u : UUnit} {k : ErrKind} (hf : u.ft ≤ 255) (hk : k ≠ .huffman) : (u.raise k).Inv where
  notRestarted := fun _ => rfl
  geometry := fun hb => nomatch hb
  ft := hf
  col := fun hb => nomatch hb
  errKind := by simp
  errCause := by simpa using hk
  rowsLen := fun _ => rfl

/-- The loop test leaves the invariant, in a run of a legal geometry (R300). -/
theorem UUnit.nextRow_inv {u : UUnit} (hs : u.start = false) (hp : u.phase = .rowHdr)
    (hg : u.bppLegal = true ∧ u.stride = u.width.toNat * u.bpp.toNat) (hf : u.ft ≤ 255)
    (hc : 0 < u.row → u.col ≤ u.stride) (he : u.errKind = none) (hl : u.rowsLen = 0) : u.nextRow.Inv := by
  rcases u.nextRow_cases with ⟨hlt, e⟩ | ⟨_, e⟩ <;> rw [e]
  · exact ⟨fun h => (by rw [hs] at h; cases h), fun _ => ⟨hg.1, hg.2, hlt⟩, hf, fun _ => hc, by simp [he, hp],
      by simp [he], fun _ => hl⟩
  · exact ⟨fun _ => rfl, fun hb => (nomatch hb), hf, fun hb => (nomatch hb), by simp [he], by simp [he],
      fun hd => absurd rfl hd⟩

/-- Taking `U_CMD.START` leaves the invariant (R300, R301). -/
theorem UUnit.Inv.begin_next {u : UUnit} (h : u.Inv) (s : State) :
    ∃ v, onU s u.begin = .next { s with u := v } ∧ v.Inv ∧ v.start = false ∧ v.chained = u.chainCmd := by
  rcases u.begin_cases with ⟨hl, e⟩ | ⟨_, e⟩ <;> rw [e]
  · refine ⟨_, rfl, UUnit.nextRow_inv rfl rfl ⟨hl, rfl⟩ h.ft (fun h0 => (Nat.lt_irrefl 0 h0).elim) rfl rfl, ?_, ?_⟩
    · exact (UUnit.nextRow_extends _).start
    · exact (UUnit.nextRow_extends _).chained
  · exact ⟨_, rfl, UUnit.raise_inv h.ft (by decide), rfl, rfl⟩

theorem UUnit.rowDone_nextRow_inv {u : UUnit} (h : u.Inv) (hb : u.busy = true) {ft : Nat} (hf : ft ≤ 255)
    (rows : Memory) : (u.rowDone ft rows).nextRow.Inv := by
  obtain ⟨hl, hst, _⟩ := h.geometry hb
  have hp := u.busy_iff.1 hb
  have he : u.errKind = none := by simpa [hp] using h.errKind
  exact UUnit.nextRow_inv (u := u.rowDone ft rows) (h.start_eq_false hb) hp ⟨hl, hst⟩ hf (fun _ => le_refl _) he
    (h.rowsLen (by rw [hp]; decide))

theorem UUnit.rowDone_nextRow_usesOut {u : UUnit} (hb : u.busy = true) {ft : Nat} {rows : Memory}
    (h : (u.rowDone ft rows).nextRow.usesOut = true) : u.usesOut = true := by
  have hx := UUnit.nextRow_extends (u.rowDone ft rows)
  simp only [UUnit.usesOut, hx.start, hx.chainCmd, hx.chained] at h ⊢
  simp only [UUnit.rowDone] at h
  cases hc : u.chained <;> simp_all

/-- A step of the U-unit completes, keeps its invariant, and takes up no `OUT` that it did not use before. -/
theorem stepU_inv {s : State} (h : s.Inv) (hr : s.uReady = true) :
    ∃ u, stepU s = .next { s with u := u } ∧ u.Inv ∧ (u.usesOut = true → s.u.usesOut = true) := by
  cases hs : s.u.start with
  | true =>
    have hb := h.u.notRestarted hs
    have hc : s.u.chainCmd = true → s.i.phase = .done := fun hc => (h.chain (by simp [UUnit.usesOut, hs, hc])).1
    have e : stepU s = onU s s.u.begin := by
      have hcond : ¬((s.u.chainCmd && s.i.phase != .done) = true) := by
        simpa using hc
      simp only [stepU, hs, startU, hb, if_true, if_neg hcond]
      rfl
    obtain ⟨v, hv, hi, hstart, hchain⟩ := h.u.begin_next s
    refine ⟨v, e.trans hv, hi, fun hu => ?_⟩
    simp only [UUnit.usesOut, hstart, hchain, Bool.false_and, Bool.or_false, Bool.and_eq_true] at hu
    simp [UUnit.usesOut, hs, hu.1]
  | false =>
    have hb : s.u.busy = true := by simpa [State.uReady, hs] using hr
    rcases stepU_row h.u hb with ⟨ft, k, hf, hk, e⟩ | ⟨ft, rows, hf, e⟩
    · exact ⟨_, e, UUnit.raise_inv hf hk, fun hu => by simp [UUnit.usesOut, UUnit.busy, hs] at hu⟩
    · exact ⟨_, e, UUnit.rowDone_nextRow_inv h.u hb hf rows, UUnit.rowDone_nextRow_usesOut hb⟩

/-- The invariant says nothing of the draw counter (assumption 8). -/
theorem State.Inv.withTick {s : State} (h : s.Inv) (n : Nat) : State.Inv { s with tick := n } :=
  ⟨h.i, h.u, h.chain⟩

theorem State.Inv.stepI_next_inv {s : State} (h : s.Inv) (hr : s.iReady = true) : ∃ t, stepI s = .next t ∧ t.Inv := by
  obtain ⟨i, e, hinv, _⟩ := stepI_inv h hr
  refine ⟨_, e, hinv, h.u, fun hx => ?_⟩
  rw [h.usesOut_eq_false hr] at hx
  cases hx

theorem State.Inv.stepU_next_inv {s : State} (h : s.Inv) (hr : s.uReady = true) : ∃ t, stepU s = .next t ∧ t.Inv := by
  obtain ⟨u, e, hinv, hout⟩ := stepU_inv h hr
  exact ⟨_, e, h.i, hinv, fun hx => h.chain (hout hx)⟩

/-- Settles O57: by cases of which unit steps, each from the unit's own invariant and the chaining condition. -/
theorem stepCompletesAndKeepsTheInvariant : Obligations.StepCompletesAndKeepsTheInvariant := by
  intro s h
  rcases step_cases s with ⟨hi, _, _, e⟩ | ⟨_, hu, _, e⟩ | ⟨hi, _, e⟩ | ⟨_, hu, e⟩ | ⟨_, _, e⟩ <;> rw [e]
  · exact (h.withTick _).stepI_next_inv hi
  · exact (h.withTick _).stepU_next_inv hu
  · exact h.stepI_next_inv hi
  · exact h.stepU_next_inv hu
  · exact ⟨s, rfl, h⟩

end Sys2Proof.Machine
end

/-! # O59: every run ends -/

section
namespace Sys2Proof.Machine

/-- The run is over (R28, R36). -/
def IUnit.ended (u : IUnit) : Prop := u.phase = .done ∨ u.phase = .error
def UUnit.ended (u : UUnit) : Prop := u.phase = .done ∨ u.phase = .error

theorem IUnit.ended.busy_eq_false {u : IUnit} (h : u.ended) : u.busy = false := by
  rcases h with h | h <;> simp [IUnit.busy, h]

theorem UUnit.ended.busy_eq_false {u : UUnit} (h : u.ended) : u.busy = false := by
  rcases h with h | h <;> simp [UUnit.busy, h]

theorem IUnit.RunInv.busy_or_ended {u : IUnit} (h : u.RunInv) : u.busy = true ∨ u.ended := by
  obtain ⟨_, hne⟩ := h
  unfold IUnit.busy IUnit.ended
  revert hne
  cases u.phase <;> decide

theorem afterSteps_succ {n : Nat} {s t : State} (h : step s = .next t) : s.afterSteps (n + 1) = t.afterSteps n := by
  rw [State.afterSteps, h]

/-- With neither unit ready, the block waits (R346). -/
theorem step_rest {s : State} (hi : s.iReady = false) (hu : s.uReady = false) : step s = .next s := by
  rcases step_cases s with h | h | h | h | h <;> simp_all

theorem afterSteps_rest {s : State} (hi : s.iReady = false) (hu : s.uReady = false) (n : Nat) :
    s.afterSteps n = .next s := by
  induction n with
  | zero => rfl
  | succ n ih => rw [afterSteps_succ (step_rest hi hu), ih]

/-! ## The I-unit: every element consumes a bit of the stream -/

/-- An element that was fetched behind bit `p` ends the run or leaves the cursor behind bit `p`. -/
theorem runI_progress {s t : State} {r : Res IUnit (Format × Nat)} {p : Nat}
    (hok : ∀ w v, r = .ok w v → w.1 ≠ .fs ∧ p < v.bitpos) (hraised : ∀ v, r = .raised v → v.phase = .error)
    (e : runI s r = .next t) : t.i.ended ∨ p < t.i.bitpos := by
  rcases runI_eq_next e with ⟨w, v, i, hr, hd, hx⟩ | ⟨v, hr, rfl⟩
  · obtain ⟨hf, hp⟩ := hok w v hr
    obtain ⟨q, hq, hext⟩ := exec_onI (e := i) (by rw [decode_format hd]; exact hf) { s with i := v }
    rw [hq, onI_eq_next] at hx
    obtain ⟨j, hj, rfl⟩ := hx
    exact .inr (hp.trans_le (hj.elim (hext.1 _ _) (hext.2 _)).bitpos)
  · exact .inl (.inr (hraised v hr))

/-- A symbol of an alphabet has a code of at least one bit (R32, R160). -/
theorem fetchSymbol_progress {f : Format} {t : Table} {u : IUnit} {width top : Nat} (hf : f ≠ .fs)
    (ht : t.wf width top) (hu : u.bitpos ≤ 8 * u.inLen) :
    (∀ w v, fetchSymbol f t u = .ok w v → w.1 ≠ .fs ∧ u.bitpos < v.bitpos) ∧
      ∀ v, fetchSymbol f t u = .raised v → v.phase = .error := by
  rw [fetchSymbol_eq]
  rcases decodeSym_cases ht hu with ⟨e, _, _, hlen, _, hd⟩ | ⟨_, hd⟩ | ⟨_, _, hd⟩ <;> rw [hd]
  · exact ⟨fun _ _ h => by cases h; exact ⟨hf, Nat.lt_add_of_pos_right hlen⟩, fun _ h => nomatch h⟩
  · exact ⟨fun _ _ h => (nomatch h), fun _ h => by cases h; rfl⟩
  · exact ⟨fun _ _ h => (nomatch h), fun _ h => by cases h; rfl⟩

/-- A block header has three bits (R181). -/
theorem fetchHeader_progress (u : IUnit) :
    (∀ w v, fetchHeader u = .ok w v → w.1 ≠ .fs ∧ u.bitpos < v.bitpos) ∧
      ∀ v, fetchHeader u = .raised v → v.phase = .error := by
  rcases fetchHeader_cases u with ⟨_, e⟩ | ⟨_, w, e, _⟩ <;> rw [e]
  · exact ⟨fun _ _ h => by cases h; exact ⟨nofun, Nat.lt_add_of_pos_right (by decide)⟩, fun _ h => nomatch h⟩
  · exact ⟨fun _ _ h => (nomatch h), fun _ h => by cases h; rfl⟩

/-- A step of a run ends it or consumes at least one bit. -/
theorem stepI_progress {s t : State} (h : s.i.Inv) (hb : s.i.busy = true) (e : stepI s = .next t) :
    t.i.ended ∨ s.i.bitpos < t.i.bitpos := by
  have hs := h.start_eq_false hb
  have hc := h.cursor hb
  rcases stepI_cases s with ⟨hs', _⟩ | ⟨_, _, e'⟩ | ⟨_, _, e'⟩ | ⟨_, _, e'⟩ | ⟨_, hb', _⟩
  · rw [hs] at hs'; cases hs'
  · obtain ⟨hok, hr⟩ := fetchHeader_progress s.i
    exact runI_progress hok hr (e' ▸ e)
  · obtain ⟨hok, hr⟩ := fetchSymbol_progress (f := .cl) (by decide) h.inRange.cltab hc
    exact runI_progress hok hr (e' ▸ e)
  · obtain ⟨hok, hr⟩ := fetchSymbol_progress (f := .ll) (by decide) h.inRange.ltab hc
    exact runI_progress hok hr (e' ▸ e)
  · rw [hb] at hb'; cases hb'

/-- A step of a run beside a U-unit at rest: the invariant stays, the run goes on with fewer bits or is over. -/
theorem step_runI {s : State} (h : s.Inv) (hb : s.i.busy = true) (hu : s.uReady = false) :
    ∃ t, step s = .next t ∧ t.Inv ∧ t.uReady = false ∧ t.i.start = false ∧ t.i.inLen = s.i.inLen ∧
      (t.i.ended ∨ t.i.busy = true ∧ s.i.bitpos < t.i.bitpos) := by
  have hs := h.i.start_eq_false hb
  have hr : s.iReady = true := by simp [State.iReady, hb]
  obtain ⟨i, e, hinv⟩ := stepI_inv h hr
  have hstep : step s = .next { s with i := i } := (step_iAlone ⟨hr, hu⟩).trans e
  obtain ⟨t, e', ht⟩ := stepCompletesAndKeepsTheInvariant s h
  rw [hstep] at e'
  cases e'
  refine ⟨_, hstep, ht, hu, ?_⟩
  rcases stepI_next e with ⟨hs', _⟩ | ⟨_, j, hj, hext⟩
  · rw [hs] at hs'; cases hs'
  · cases hj
    refine ⟨hext.start.trans hs, hext.inLen, ?_⟩
    rcases hinv.busy_or_ended with hbusy | hend
    · exact (stepI_progress h.i hb e).imp_right fun hp => ⟨hbusy, hp⟩
    · exact .inl hend

theorem runI_ends {n : Nat} {s : State} (h : s.Inv) (hb : s.i.busy = true) (hu : s.uReady = false)
    (hn : 8 * s.i.inLen < s.i.bitpos + n) : ∃ t, s.afterSteps n = .next t ∧ t.i.ended := by
  induction n generalizing s with
  | zero =>
    have := h.i.cursor hb
    omega
  | succ n ih =>
    obtain ⟨t, e, ht, htu, hts, htl, hend | ⟨htb, hp⟩⟩ := step_runI h hb hu <;> rw [afterSteps_succ e]
    · exact ⟨t, afterSteps_rest (by simp [State.iReady, hts, hend.busy_eq_false]) htu n, hend⟩
    · exact ih ht htb htu (by rw [htl]; omega)

/-! ## The U-unit: every step completes a row -/

/-- A step of a U-unit run beside an I-unit at rest: the invariant stays, the run goes on with the next row or is over. -/
theorem step_runU {s : State} (h : s.Inv) (hb : s.u.busy = true) (hi : s.iReady = false) :
    ∃ t, step s = .next t ∧ t.Inv ∧ t.iReady = false ∧ t.u.start = false ∧ t.u.height = s.u.height ∧
      (t.u.ended ∨ t.u.busy = true ∧ t.u.row = s.u.row + 1) := by
  have hs := h.u.start_eq_false hb
  have hstep := step_uAlone ⟨hi, by simp [State.uReady, hb]⟩
  obtain ⟨t, e, ht⟩ := stepCompletesAndKeepsTheInvariant s h
  rcases stepU_row h.u hb with ⟨ft, k, _, _, e'⟩ | ⟨ft, rows, _, e'⟩ <;> rw [hstep, e'] at e <;> cases e
  · exact ⟨_, hstep.trans e', ht, hi, hs, rfl, .inl (.inr rfl)⟩
  · refine ⟨_, hstep.trans e', ht, hi, ?_⟩
    rcases (s.u.rowDone ft rows).nextRow_cases with ⟨_, hn⟩ | ⟨_, hn⟩ <;> rw [hn]
    · exact ⟨hs, rfl, .inr ⟨hb, rfl⟩⟩
    · exact ⟨hs, rfl, .inl (.inl rfl)⟩

theorem runU_ends {n : Nat} {s : State} (h : s.Inv) (hb : s.u.busy = true) (hi : s.iReady = false)
    (hn : s.u.height.toNat ≤ s.u.row + n) : ∃ t, s.afterSteps n = .next t ∧ t.u.ended := by
  induction n generalizing s with
  | zero =>
    have := (h.u.geometry hb).2.2
    omega
  | succ n ih =>
    obtain ⟨t, e, ht, hti, hts, hth, hend | ⟨htb, hr⟩⟩ := step_runU h hb hi <;> rw [afterSteps_succ e]
    · exact ⟨t, afterSteps_rest hti (by simp [State.uReady, hts, hend.busy_eq_false]) n, hend⟩
    · exact ih ht htb hti (by rw [hth, hr]; omega)

/-- Settles O59: every element consumes a bit and every scanline a row, by induction on what is left. -/
theorem everyRunEnds : Obligations.EveryRunEnds :=
  ⟨fun _ h hb hu => runI_ends h hb hu (by omega), fun _ h hb hi => runU_ends h hb hi (by omega)⟩

end Sys2Proof.Machine
end

/-! # O60: a run does not depend on what the machine held before

Two machines that started on the same inputs stay related: the registers a run reads later agree, and `OUT` agrees below
`OUTLEN`. Which working registers are read later depends on the phase (R23). -/

section
namespace Sys2Proof.Machine

/-! ## The relation between two runs on the same inputs -/

/-- Two I-units agree on all that any element reads, but for the working registers. -/
structure IUnit.Agree (x y : IUnit) : Prop where
  start : x.start = y.start
  nlenCheck : x.nlenCheck = y.nlenCheck
  strictPeek : x.strictPeek = y.strictPeek
  inLen : x.inLen = y.inLen
  inp : ∀ a < x.inLen, x.inp.read a = y.inp.read a
  errKind : x.errKind = y.errKind
  outLen : x.outLen = y.outLen
  phase : x.phase = y.phase
  bitpos : x.bitpos = y.bitpos
  outlen : x.outlen = y.outlen
  out : ∀ a < x.outlen, x.out.read a = y.out.read a
  wf : x.out.wf ∧ y.out.wf
  llen : x.llen.length = y.llen.length

/-- Two I-units agree on all that the rest of their runs reads: with the working registers that are live in the phase. -/
structure IUnit.Twins (x y : IUnit) : Prop extends x.Agree y where
  bfinal : x.phase = .clen ∨ x.phase = .body → x.bfinal = y.bfinal
  counts : x.phase = .clen → x.hlit = y.hlit ∧ x.hdist = y.hdist ∧ x.lidx = y.lidx ∧ x.cltab = y.cltab
  lens : x.phase = .clen → x.llen.take x.lidx = y.llen.take x.lidx
  tables : x.phase = .body → x.ltab = y.ltab ∧ x.dtab = y.dtab

section
variable {x y : IUnit}

theorem IUnit.Agree.seek (h : x.Agree y) (p : Nat) : (x.seek p).Agree (y.seek p) :=
  { h with bitpos := rfl }

theorem IUnit.Twins.seek (h : x.Twins y) (p : Nat) : (x.seek p).Twins (y.seek p) :=
  { h with toAgree := h.toAgree.seek p }

theorem IUnit.Agree.raise (h : x.Agree y) (k : ErrKind) : (x.raise k).Agree (y.raise k) :=
  { h with errKind := rfl, outLen := rfl, phase := rfl }

theorem IUnit.Agree.append (h : x.Agree y) (b : Byte) : (x.append b).Agree (y.append b) :=
  { h with
    outlen := congrArg (· + 1) h.outlen
    out := fun a ha => by
      rw [IUnit.append_out_read h.wf.1, IUnit.append_out_read h.wf.2, h.outlen]
      split
      · rfl
      · refine h.out a ?_
        simp only [IUnit.append_outlen] at ha
        have := h.outlen
        omega
    wf := ⟨IUnit.append_out_wf h.wf.1 b, IUnit.append_out_wf h.wf.2 b⟩ }

theorem IUnit.Twins.append (h : x.Twins y) (b : Byte) : (x.append b).Twins (y.append b) :=
  { h with toAgree := h.toAgree.append b }

/-- In a run that is over, no working register is live. -/
theorem IUnit.Agree.twins_of_phase (h : x.Agree y) (hp : x.phase ≠ .clen ∧ x.phase ≠ .body) : x.Twins y :=
  { h with
    bfinal := fun hx => absurd hx (by simp [hp])
    counts := fun hx => absurd hx hp.1
    lens := fun hx => absurd hx hp.1
    tables := fun hx => absurd hx hp.2 }

/-- The two units read the same stream bits, as far as the buffer goes. -/
theorem IUnit.Agree.inBit (h : x.Agree y) {k : Nat} (hk : k < 8 * x.inLen) : x.inBit k = y.inBit k := by
  unfold IUnit.inBit
  rw [h.inp _ (by omega)]

theorem IUnit.Agree.avail (h : x.Agree y) : x.avail = y.avail := by
  unfold IUnit.avail
  rw [h.inLen, h.bitpos]

theorem IUnit.Agree.peekBits (h : x.Agree y) (n : Nat) : peekBits n x = peekBits n y := by
  unfold Machine.peekBits
  rw [h.bitpos]
  refine bitField_congr fun i _ => ?_
  unfold IUnit.paddedBit
  rw [← h.inLen]
  split
  · exact h.inBit (by assumption)
  · rfl

end

/-! ## Results of the same operation in the two units -/

/-- Both complete with the same value and in related states, or both raise alike, or both stop. -/
inductive Res.Agree {α : Type} (Q : α → IUnit → IUnit → Prop) : Res IUnit α → Res IUnit α → Prop
  | ok {a : α} {x y : IUnit} (h : Q a x y) : Res.Agree Q (.ok a x) (.ok a y)
  | raised {x y : IUnit} (h : x.Agree y) (hp : x.phase = .error) : Res.Agree Q (.raised x) (.raised y)
  | fault (e : Fault) : Res.Agree Q (.fault e) (.fault e)
  | refused (e : Refusal) : Res.Agree Q (.refused e) (.refused e)

section
variable {α β : Type} {P : α → IUnit → IUnit → Prop} {Q : β → IUnit → IUnit → Prop} {x y : IUnit}

theorem Res.agree_bind {r r' : Res IUnit α} {f g : α → IUnit → Res IUnit β} (h : Res.Agree P r r')
    (k : ∀ a x y, P a x y → Res.Agree Q (f a x) (g a y)) : Res.Agree Q (r.bind f) (r'.bind g) := by
  cases h with
  | ok h => exact k _ _ _ h
  | raised h hp => exact .raised h hp
  | fault e => exact .fault e
  | refused e => exact .refused e

theorem Res.agree_raise (h : x.Agree y) (k : ErrKind) : Res.Agree P (.raised (x.raise k)) (.raised (y.raise k)) :=
  .raised (h.raise k) rfl

end

/-- The two units have moved to the same place of the stream and changed nothing else. -/
def IUnit.Sought (x y x' y' : IUnit) : Prop := ∃ p, x' = x.seek p ∧ y' = y.seek p

/-! ## The Bit Reader and the tables -/

section
variable {x y : IUnit}

theorem readBits_agree (h : x.Agree y) (n : Nat) :
    Res.Agree (fun _ => IUnit.Sought x y) (readBits n x) (readBits n y) := by
  by_cases hn : 1 ≤ n ∧ n ≤ 32
  · have hpos := h.bitpos
    have hlen := h.inLen
    rcases readBits_cases (u := x) hn with ⟨hx, ex⟩ | ⟨hx, ex⟩ <;>
      rcases readBits_cases (u := y) hn with ⟨hy, ey⟩ | ⟨hy, ey⟩ <;> rw [ex, ey]
    · have hv : bitField x.inBit n x.bitpos = bitField y.inBit n y.bitpos := by
        rw [← hpos]
        exact bitField_congr fun i hi => h.inBit (by omega)
      rw [hv]
      exact .ok ⟨_, rfl, by rw [hpos]⟩
    · omega
    · omega
    · exact Res.agree_raise h _
  · have e : ∀ u : IUnit, readBits n u = .fault .readWidth := fun u => if_pos (by omega)
    rw [e, e]
    exact .fault _

theorem basePlusExtra_agree (h : x.Agree y) (base n : Nat) :
    Res.Agree (fun v x' y' => base ≤ v ∧ IUnit.Sought x y x' y') (basePlusExtra base n x) (basePlusExtra base n y) := by
  have hr : Res.Agree (fun _ => IUnit.Sought x y) (readExtra n x) (readExtra n y) := by
    unfold readExtra
    split
    · exact .ok ⟨x.bitpos, rfl, by rw [h.bitpos]; rfl⟩
    · exact readBits_agree h n
  exact Res.agree_bind hr fun v x' y' hs => .ok ⟨Nat.le_add_right _ _, hs⟩

theorem skipBits_agree (h : x.Agree y) (n : Nat) :
    Res.Agree (fun _ => IUnit.Sought x y) (skipBits n x) (skipBits n y) := by
  unfold skipBits
  rw [h.bitpos, h.inLen]
  split
  · exact .ok ⟨_, rfl, rfl⟩
  · exact .fault _

theorem decodeSym_agree (h : x.Agree y) (t : Table) :
    Res.Agree (fun _ => IUnit.Sought x y) (decodeSym t x) (decodeSym t y) := by
  unfold decodeSym
  rw [h.strictPeek, h.avail, h.peekBits]
  split
  · exact Res.agree_raise h _
  · split
    · split <;> exact Res.agree_raise h _
    · split
      · exact Res.agree_raise h _
      · exact Res.agree_bind (skipBits_agree h _) fun _ x' y' hs => .ok hs

theorem buildTable_agree (h : x.Agree y) (lens : List Nat) :
    Res.Agree (fun _ x' y' => x' = x ∧ y' = y) (buildTable lens x) (buildTable lens y) := by
  unfold buildTable
  split
  · exact .ok ⟨rfl, rfl⟩
  · exact Res.agree_raise h _

/-! ## Block headers -/

/-- The end of a block leaves only `BFINAL` to have been read (R183). -/
theorem endBlock_twins (h : x.Agree y) (hf : x.bfinal = y.bfinal) : (endBlock x).Twins (endBlock y) := by
  unfold endBlock
  rw [← hf]
  split
  · exact IUnit.Agree.twins_of_phase { h with outLen := h.outlen, phase := rfl } ⟨nofun, nofun⟩
  · exact IUnit.Agree.twins_of_phase { h with phase := rfl } ⟨nofun, nofun⟩

theorem copyStored_agree {n : Nat} (h : x.Agree y) (hf : x.bfinal = y.bfinal) :
    Res.Agree (fun _ x' y' => x'.Agree y' ∧ x'.bfinal = y'.bfinal) (copyStored n x) (copyStored n y) := by
  induction n generalizing x y with
  | zero => exact .ok ⟨h, hf⟩
  | succ n ih =>
    refine Res.agree_bind (readBits_agree h 8) ?_
    rintro b _ _ ⟨p, rfl, rfl⟩
    exact ih ((h.seek p).append _) hf

theorem storedLengths_agree (h : x.Agree y) (hf : x.bfinal = y.bfinal) :
    Res.Agree (fun _ x' y' => x'.Agree y' ∧ x'.bfinal = y'.bfinal ∧ x'.slen = y'.slen ∧ x'.snlen = y'.snlen)
      (storedLengths x) (storedLengths y) := by
  have ha : (alignCursor x).Agree (alignCursor y) := by
    unfold alignCursor
    rw [h.bitpos]
    exact h.seek _
  refine Res.agree_bind (readBits_agree ha 16) ?_
  rintro len _ _ ⟨p, rfl, rfl⟩
  refine Res.agree_bind (readBits_agree (by exact { ha.seek p with }) 16) ?_
  rintro nlen _ _ ⟨q, rfl, rfl⟩
  exact .ok ⟨{ ha.seek q with }, hf, rfl, rfl⟩

theorem storedBody_agree (h : x.Agree y) (hf : x.bfinal = y.bfinal) :
    Res.Agree (fun _ => IUnit.Twins) (storedBody x) (storedBody y) := by
  refine Res.agree_bind (storedLengths_agree h hf) ?_
  rintro _ v w ⟨hv, hf, hs, hn⟩
  have hc : storedCheckFails v = storedCheckFails w := by
    unfold storedCheckFails
    rw [hv.nlenCheck, hs, hn]
  rw [hc, hs]
  split
  · exact Res.agree_raise hv _
  · exact Res.agree_bind (copyStored_agree hv hf) fun _ x' y' ⟨ha, hb⟩ => .ok (endBlock_twins ha hb)

/-- Two units in a dynamic header that agree on what it has written so far (R193). -/
structure IUnit.HeaderAgree (x y : IUnit) : Prop extends x.Agree y where
  bfinal : x.bfinal = y.bfinal
  hlit : x.hlit = y.hlit
  hdist : x.hdist = y.hdist

theorem dynCounts_agree (h : x.Agree y) (hf : x.bfinal = y.bfinal) :
    Res.Agree (fun _ x' y' => x'.HeaderAgree y' ∧ x'.hclen = y'.hclen) (dynCounts x) (dynCounts y) := by
  refine Res.agree_bind (readBits_agree h 5) ?_
  rintro a _ _ ⟨p, rfl, rfl⟩
  refine Res.agree_bind (readBits_agree (by exact { h.seek p with }) 5) ?_
  rintro b _ _ ⟨q, rfl, rfl⟩
  refine Res.agree_bind (readBits_agree (by exact { h.seek q with }) 4) ?_
  rintro c _ _ ⟨r, rfl, rfl⟩
  exact .ok ⟨{ h.seek r with bfinal := hf, hlit := rfl, hdist := rfl }, rfl⟩

theorem readClLens_agree {l : List Nat} (h : x.HeaderAgree y) (hc : x.cllen = y.cllen) :
    Res.Agree (fun _ x' y' => x'.HeaderAgree y' ∧ x'.cllen = y'.cllen) (readClLens l x) (readClLens l y) := by
  induction l generalizing x y with
  | nil => exact .ok ⟨h, hc⟩
  | cons s l ih =>
    refine Res.agree_bind (readBits_agree h.toAgree 3) ?_
    rintro v _ _ ⟨p, rfl, rfl⟩
    exact ih { h with toAgree := { h.toAgree.seek p with } } (congrArg (List.set · s v) hc)

theorem dynHeader_agree (h : x.Agree y) (hf : x.bfinal = y.bfinal) :
    Res.Agree (fun _ => IUnit.Twins) (dynHeader x) (dynHeader y) := by
  refine Res.agree_bind (dynCounts_agree h hf) ?_
  rintro _ v w ⟨hv, hn⟩
  rw [hn]
  refine Res.agree_bind (readClLens_agree { hv with } rfl) ?_
  rintro _ v w ⟨hv, hc⟩
  rw [hc]
  refine Res.agree_bind (buildTable_agree hv.toAgree _) ?_
  rintro t _ _ ⟨rfl, rfl⟩
  exact .ok { hv with
    phase := rfl
    bfinal := fun _ => hv.bfinal
    counts := fun _ => ⟨hv.hlit, hv.hdist, rfl, rfl⟩
    lens := fun _ => rfl
    tables := nofun }

theorem fetchHeader_agree (h : x.Agree y) :
    Res.Agree (fun _ => IUnit.Agree) (fetchHeader x) (fetchHeader y) := by
  refine Res.agree_bind (readBits_agree h 1) ?_
  rintro f _ _ ⟨p, rfl, rfl⟩
  refine Res.agree_bind (readBits_agree (by exact { h.seek p with }) 2) ?_
  rintro t _ _ ⟨q, rfl, rfl⟩
  exact .ok { h.seek q with }

theorem headerElement_agree (h : x.Agree y) (v : Nat) :
    Res.Agree (fun _ => IUnit.Twins) (headerElement v x) (headerElement v y) := by
  have set : ∀ f t, (x.setHeader f t).Agree (y.setHeader f t) := fun f t => { h with }
  unfold headerElement
  split
  · exact storedBody_agree (set _ 0) rfl
  · exact .ok { set (v % 2 == 1) 1 with
      phase := rfl
      bfinal := fun _ => rfl
      counts := nofun
      lens := nofun
      tables := fun _ => ⟨rfl, rfl⟩ }
  · exact dynHeader_agree (set _ 2) rfl
  · exact Res.agree_raise (set _ 3) _
  · exact .refused _

/-! ## Code-length symbols -/

theorem take_succ_set {l l' : List Nat} {i v : Nat} (hlen : l.length = l'.length) (h : l.take i = l'.take i) :
    (l.set i v).take (i + 1) = (l'.set i v).take (i + 1) := by
  rw [List.take_add_one, List.take_add_one, List.take_set_of_le (le_refl _), List.take_set_of_le (le_refl _), h,
    List.getElem?_set_self', List.getElem?_set_self']
  congr 2
  by_cases hi : i < l.length
  · rw [List.getElem?_eq_getElem hi, List.getElem?_eq_getElem (hlen ▸ hi)]
    rfl
  · rw [List.getElem?_eq_none (by omega), List.getElem?_eq_none (by omega)]

/-- The same lengths are filled in on both sides (R195-R198). -/
theorem pushLens_twins {n v : Nat} (h : x.Twins y) (hp : x.phase = .clen) :
    (pushLens n v x).Twins (pushLens n v y) ∧ (pushLens n v x).phase = .clen := by
  induction n generalizing x y with
  | zero => exact ⟨h, hp⟩
  | succ n ih =>
    obtain ⟨hlit, hdist, hlidx, hct⟩ := h.counts hp
    refine ih { h with llen := ?_, counts := fun _ => ⟨hlit, hdist, congrArg (· + 1) hlidx, hct⟩, lens := fun _ => ?_ } hp
    · simpa using h.llen
    · show (x.llen.set x.lidx v).take (x.lidx + 1) = (y.llen.set y.lidx v).take (x.lidx + 1)
      rw [← hlidx]
      exact take_succ_set h.llen (h.lens hp)

theorem litLens_eq_take (u : IUnit) : u.litLens = (u.llen.take (u.hlit + u.hdist)).take u.hlit := by
  rw [IUnit.litLens, List.take_take, Nat.min_eq_left (Nat.le_add_right _ _)]

theorem distLens_eq_drop (u : IUnit) : u.distLens = (u.llen.take (u.hlit + u.hdist)).drop u.hlit := by
  rw [IUnit.distLens, List.drop_take, Nat.add_sub_cancel_left]

/-- The tables are built from lengths of this header only (R194). -/
theorem endCodeLength_agree (h : x.Twins y) (hp : x.phase = .clen) :
    Res.Agree (fun _ => IUnit.Twins) (endCodeLength x) (endCodeLength y) := by
  obtain ⟨hlit, hdist, hlidx, hct⟩ := h.counts hp
  unfold endCodeLength
  rw [← hlit, ← hdist, ← hlidx]
  split
  · rename_i hend
    have htake : x.llen.take (x.hlit + x.hdist) = y.llen.take (y.hlit + y.hdist) := by
      rw [← hlit, ← hdist, ← hend]
      exact h.lens hp
    have hxl : x.litLens = y.litLens := by rw [litLens_eq_take, litLens_eq_take, htake, hlit]
    have hxd : x.distLens = y.distLens := by rw [distLens_eq_drop, distLens_eq_drop, htake, hlit]
    rw [hxl]
    refine Res.agree_bind (buildTable_agree h.toAgree _) ?_
    rintro lt v w ⟨rfl, rfl⟩
    rw [hxd]
    refine Res.agree_bind (buildTable_agree (by exact { h.toAgree with }) _) ?_
    rintro dt _ _ ⟨rfl, rfl⟩
    exact .ok { h with
      phase := rfl
      bfinal := fun _ => h.bfinal (.inl hp)
      counts := nofun
      lens := nofun
      tables := fun _ => ⟨rfl, rfl⟩ }
  · exact .ok h

theorem repeatLen_agree (h : x.Twins y) (hp : x.phase = .clen) (rep v : Nat) :
    Res.Agree (fun _ => IUnit.Twins) (repeatLen rep v x) (repeatLen rep v y) := by
  obtain ⟨hlit, hdist, hlidx, _⟩ := h.counts hp
  unfold repeatLen
  rw [← hlit, ← hdist, ← hlidx]
  split
  · exact Res.agree_raise h.toAgree _
  · obtain ⟨ht, hphase⟩ := pushLens_twins (n := rep) (v := v) h hp
    exact endCodeLength_agree ht hphase

/-- Extra bits and then copies of a length, the form of all repeat symbols (R196-R198). -/
theorem repeatExtra_agree {len : IUnit → Nat} (h : x.Twins y) (hp : x.phase = .clen) (base n : Nat)
    (hl : ∀ p, len (x.seek p) = len (y.seek p)) :
    Res.Agree (fun _ => IUnit.Twins) ((basePlusExtra base n x).bind fun rep u => repeatLen rep (len u) u)
      ((basePlusExtra base n y).bind fun rep u => repeatLen rep (len u) u) := by
  refine Res.agree_bind (basePlusExtra_agree h.toAgree base n) ?_
  rintro rep _ _ ⟨_, p, rfl, rfl⟩
  rw [hl]
  exact repeatLen_agree (h.seek p) hp rep _

/-- The previous length is one this header has written (R196). -/
theorem IUnit.Twins.prevLen (h : x.Twins y) (hp : x.phase = .clen) (h0 : x.lidx ≠ 0) : x.prevLen = y.prevLen := by
  have hlidx := (h.counts hp).2.2.1
  have hlt : x.lidx - 1 < x.lidx := by omega
  unfold IUnit.prevLen
  rw [← hlidx, List.getD_eq_getElem?_getD, List.getD_eq_getElem?_getD, ← List.getElem?_take_of_lt hlt, h.lens hp,
    List.getElem?_take_of_lt hlt]

theorem clElement_agree (h : x.Twins y) (hp : x.phase = .clen) (v : Nat) :
    Res.Agree (fun _ => IUnit.Twins) (clElement v x) (clElement v y) := by
  have hlidx := (h.counts hp).2.2.1
  unfold clElement
  split
  · obtain ⟨ht, hphase⟩ := pushLens_twins (n := 1) (v := v) h hp
    exact endCodeLength_agree ht hphase
  split
  · rw [← hlidx]
    split
    · exact Res.agree_raise h.toAgree _
    · exact repeatExtra_agree h hp 3 2 fun p => h.prevLen hp (by assumption)
  split
  · exact repeatExtra_agree (len := fun _ => 0) h hp 3 3 fun _ => rfl
  split
  · exact repeatExtra_agree (len := fun _ => 0) h hp 11 7 fun _ => rfl
  · exact .refused _

/-! ## Literal/length symbols -/

/-- A match copies bytes of this run only: its distance reaches no further than `OUT[0]` (R260, R292). -/
theorem copyMatch_twins {n : Nat} (h : x.Twins y) (hm : x.mdist = y.mdist) (hd : 1 ≤ x.mdist ∧ x.mdist ≤ x.outlen) :
    (copyMatch n x).Twins (copyMatch n y) := by
  induction n generalizing x y with
  | zero => exact h
  | succ n ih =>
    have hb : x.out.read (x.outlen - x.mdist) = y.out.read (y.outlen - y.mdist) := by
      rw [← hm, ← h.outlen]
      exact h.out _ (by omega)
    unfold copyMatch
    rw [← hb]
    exact ih (h.append _) hm ⟨hd.1, Nat.le_succ_of_le hd.2⟩

/-- The check of a distance and the copy (R260). -/
theorem copyOrRaise_agree (h : x.Twins y) (hl : x.mlen = y.mlen) (hm : x.mdist = y.mdist) (h1 : 1 ≤ x.mdist) :
    Res.Agree (fun _ => IUnit.Twins)
      (if x.outlen < x.mdist then .raised (x.raise .format) else .ok () (copyMatch x.mlen x))
      (if y.outlen < y.mdist then .raised (y.raise .format) else .ok () (copyMatch y.mlen y)) := by
  rw [← h.outlen, ← hm, ← hl]
  split
  · exact Res.agree_raise h.toAgree _
  · exact .ok (copyMatch_twins h hm ⟨h1, Nat.le_of_not_lt (by assumption)⟩)

theorem distElement_agree {d : Nat} (h : x.Twins y) (hd : d < 30) (hm : x.mlen = y.mlen) :
    Res.Agree (fun _ => IUnit.Twins) (distElement d x) (distElement d y) := by
  have hbase := (distance_rows d hd).2.1
  refine Res.agree_bind (basePlusExtra_agree (by exact { h.toAgree with }) _ _) ?_
  rintro m _ _ ⟨hle, p, rfl, rfl⟩
  exact copyOrRaise_agree (x := { ({ x with dsym := d } : IUnit).seek p with mdist := m })
    (y := { ({ y with dsym := d } : IUnit).seek p with mdist := m }) { h.seek p with } hm rfl (hbase.trans hle)

theorem distSymbol_agree (h : x.Twins y) (hm : x.mlen = y.mlen) (d : Nat) :
    Res.Agree (fun _ => IUnit.Twins) (distSymbol d x) (distSymbol d y) := by
  by_cases hlt : d < 30
  · rw [distSymbol_of_lt hlt, distSymbol_of_lt hlt]
    exact distElement_agree h hlt hm
  · by_cases hr : d = 30 ∨ d = 31
    · rw [distSymbol_reserved hr, distSymbol_reserved hr]
      exact Res.agree_raise (x := { x with dsym := d }) (y := { y with dsym := d }) { h.toAgree with } _
    · rw [distSymbol_of_gt (by omega), distSymbol_of_gt (by omega)]
      exact .refused _

theorem distance_agree (h : x.Twins y) (hp : x.phase = .body) (hm : x.mlen = y.mlen) :
    Res.Agree (fun _ => IUnit.Twins) (distance x) (distance y) := by
  unfold distance
  rw [← (h.tables hp).2]
  refine Res.agree_bind (decodeSym_agree h.toAgree _) ?_
  rintro d _ _ ⟨p, rfl, rfl⟩
  exact distSymbol_agree (h.seek p) hm d

theorem matchElement_agree (h : x.Twins y) (hp : x.phase = .body) (v : Nat) :
    Res.Agree (fun _ => IUnit.Twins) (matchElement v x) (matchElement v y) := by
  refine Res.agree_bind (basePlusExtra_agree (by exact { h.toAgree with }) _ _) ?_
  rintro m _ _ ⟨_, p, rfl, rfl⟩
  exact distance_agree (by exact { h.seek p with }) hp rfl

theorem llElement_agree (h : x.Twins y) (hp : x.phase = .body) (v : Nat) :
    Res.Agree (fun _ => IUnit.Twins) (llElement v x) (llElement v y) := by
  have hsym : (x.setSym v).Twins (y.setSym v) := { h with }
  unfold llElement
  split
  · exact .ok (hsym.append _)
  split
  · subst v
    exact .ok (endBlock_twins hsym.toAgree (h.bfinal (.inr hp)))
  split
  · exact matchElement_agree h hp v
  split
  · exact Res.agree_raise hsym.toAgree _
  · exact .refused _

/-- The next element of both runs is the same and does the same. -/
theorem element_agree (h : x.Twins y) : Res.Agree (fun _ => IUnit.Twins) x.element y.element := by
  unfold IUnit.element
  rw [← h.phase]
  split
  case h_1 => exact Res.agree_bind (fetchHeader_agree h.toAgree) fun w _ _ hw => headerElement_agree hw w.2
  case h_2 hp =>
    rw [← (h.counts hp).2.2.2]
    refine Res.agree_bind (decodeSym_agree h.toAgree _) ?_
    rintro v _ _ ⟨p, rfl, rfl⟩
    exact clElement_agree (h.seek p) hp v
  case h_3 hp =>
    rw [← (h.tables hp).1]
    refine Res.agree_bind (decodeSym_agree h.toAgree _) ?_
    rintro v _ _ ⟨p, rfl, rfl⟩
    exact llElement_agree (h.seek p) hp v
  all_goals exact .ok h

end

/-! ## The two machines -/

/-- Two machines after the same number of steps of a run on the same inputs, their U-units at rest. -/
structure State.Paired (x y : State) : Prop where
  inv : x.Inv
  uRest : x.uReady = false ∧ y.uReady = false
  started : x.i.start = false
  twins : x.i.Twins y.i

/-- Beside a U-unit at rest, with no `START` pending, the step of the block is the element. -/
theorem step_eq_element {s : State} (hu : s.uReady = false) (hs : s.i.start = false) : step s = onI s s.i.element := by
  rw [← stepI_eq_onI hs]
  cases hr : s.iReady with
  | true => exact step_iAlone ⟨hr, hu⟩
  | false =>
    rw [step_rest hr hu]
    have hb : s.i.busy = false := by simpa [State.iReady, hs] using hr
    rcases stepI_cases s with ⟨h, _⟩ | ⟨_, h, _⟩ | ⟨_, h, _⟩ | ⟨_, h, _⟩ | ⟨_, _, e⟩
    · rw [hs] at h; cases h
    · simp [IUnit.busy, h] at hb
    · simp [IUnit.busy, h] at hb
    · simp [IUnit.busy, h] at hb
    · exact e.symm

theorem State.Paired.step {x y x' y' : State} (h : x.Paired y) (ex : step x = .next x') (ey : step y = .next y') :
    x'.Paired y' := by
  obtain ⟨hux, huy⟩ := h.uRest
  obtain ⟨t, et, hinv⟩ := stepCompletesAndKeepsTheInvariant x h.inv
  rw [ex] at et
  cases et
  have hys : y.i.start = false := h.twins.start ▸ h.started
  rw [step_eq_element hux h.started] at ex
  rw [step_eq_element huy hys] at ey
  have hstart : x'.i.start = false := by
    rcases stepI_next ((stepI_eq_onI h.started).trans ex) with ⟨hs, _⟩ | ⟨_, i, rfl, hext⟩
    · rw [h.started] at hs; cases hs
    · exact hext.start.trans h.started
  have ha := element_agree h.twins
  generalize x.i.element = r at ex ha
  generalize y.i.element = r' at ey ha
  cases ha with
  | ok hq => cases ex; cases ey; exact ⟨hinv, ⟨hux, huy⟩, hstart, hq⟩
  | raised hq hp =>
    cases ex; cases ey
    exact ⟨hinv, ⟨hux, huy⟩, hstart, hq.twins_of_phase (by rw [hp]; decide)⟩
  | fault e => cases ex
  | refused e => cases ex

theorem afterSteps_succ_eq_next {n : Nat} {s t : State} (h : s.afterSteps (n + 1) = .next t) :
    ∃ v, step s = .next v ∧ v.afterSteps n = .next t := by
  unfold State.afterSteps at h
  split at h
  · exact ⟨_, by assumption, h⟩
  · cases h
  · cases h

theorem State.Paired.afterSteps {n : Nat} {x y x' y' : State} (h : x.Paired y) (ex : x.afterSteps n = .next x')
    (ey : y.afterSteps n = .next y') : x'.Paired y' := by
  induction n generalizing x y with
  | zero => cases ex; cases ey; exact h
  | succ n ih =>
    obtain ⟨v, hv, ex⟩ := afterSteps_succ_eq_next ex
    obtain ⟨w, hw, ey⟩ := afterSteps_succ_eq_next ey
    exact ih (h.step hv hw) ex ey

/-- The host sees the same of both (R29, R362). -/
theorem State.Paired.sameResult {x y : State} (h : x.Paired y) : x.i.sameResult y.i := by
  have ha := h.twins
  refine ⟨?_, ha.errKind, ha.outLen, fun hp a hlt => ha.out a ?_⟩
  · unfold IUnit.status
    rw [ha.start, ha.phase]
  · rwa [h.inv.i.outLen, if_pos hp] at hlt

/-- Taking `START` on the same inputs pairs two machines (R38, R382). -/
theorem paired_of_start {x y x' y' : State} (hx : x.Inv) (hy : y.Inv) (mx : x.MemoryCanonical) (my : y.MemoryCanonical)
    (ax : x.iAlone) (ay : y.iAlone) (sx : x.i.start = true) (sy : y.i.start = true) (hin : x.i.sameInputs y.i)
    (ex : step x = .next x') (ey : step y = .next y') : x'.Paired y' := by
  have begun : ∀ {s t : State}, s.iAlone → s.i.start = true → step s = .next t → t = { s with i := s.i.begin } := by
    intro s t ha hs e
    rw [step_iAlone ha] at e
    rcases stepI_next e with ⟨_, _, _, ht⟩ | ⟨hs', _⟩
    · exact ht
    · rw [hs] at hs'; cases hs'
  obtain ⟨hlen, hnlen, hstrict, hinp⟩ := hin
  obtain ⟨t, et, hinv⟩ := stepCompletesAndKeepsTheInvariant x hx
  rw [ex] at et
  cases et
  obtain rfl := begun ax sx ex
  obtain rfl := begun ay sy ey
  have hagree : x.i.begin.Agree y.i.begin :=
    { start := rfl, nlenCheck := hnlen, strictPeek := hstrict, inLen := hlen, inp := hinp, errKind := rfl,
      outLen := rfl, phase := rfl, bitpos := rfl, outlen := rfl, out := fun a ha => absurd ha (Nat.not_lt_zero a),
      wf := ⟨mx.out, my.out⟩, llen := hx.i.inRange.llen.1.trans hy.i.inRange.llen.1.symm }
  exact ⟨hinv, ⟨ax.2, ay.2⟩, rfl, hagree.twins_of_phase ⟨nofun, nofun⟩⟩

/-- Settles O60: the first step pairs the two machines, every later one keeps them paired. -/
theorem runIsIndependentOfHistory : Obligations.RunIsIndependentOfHistory := by
  intro n x y x' y' hx hy mx my ax ay sx sy hin hn ex ey
  obtain ⟨m, rfl⟩ : ∃ m, n = m + 1 := ⟨n - 1, by omega⟩
  obtain ⟨v, hv, ex⟩ := afterSteps_succ_eq_next ex
  obtain ⟨w, hw, ey⟩ := afterSteps_succ_eq_next ey
  exact ((paired_of_start hx hy mx my ax ay sx sy hin hv hw).afterSteps ex ey).sameResult

end Sys2Proof.Machine
end

/-! # What a host action does

O42, O45, O55, O56 and O58: the reset state, the writes of the host to an unlocked unit, and what they keep. -/

section
namespace Sys2Proof.Machine

/-- The I-unit after a host write to its side (R29, R35). -/
inductive IUnit.HostWritten (u : IUnit) : IUnit → Prop
  | mk (start nlen strict : Bool) (inLen : Nat) (inp : Memory) (h : u.inp.wf → inp.wf) :
      HostWritten u { u with start := start, nlenCheck := nlen, strictPeek := strict, inLen := inLen, inp := inp }

/-- The U-unit after a host write to its side (R30, R35): to a configuration register or `RAW`, or the command `START`. -/
inductive UUnit.HostWritten (u : UUnit) : UUnit → Prop
  | config (width height : BitVec 32) (bpp : BitVec 3) (rawLen : Nat) (raw : Memory) (h : u.raw.wf → raw.wf) :
      HostWritten u { u with width := width, height := height, bpp := bpp, rawLen := rawLen, raw := raw }
  | command (chain : Bool) : HostWritten u { u with start := true, chainCmd := chain }

theorem hostToI_unlocked {s : State} (h : s.iLocked = false) (i : IUnit) : hostToI s i = .next { s with i := i } := by
  rw [hostToI, h]
  rfl

theorem hostToU_unlocked {s : State} (h : s.uLocked = false) (u : UUnit) : hostToU s u = .next { s with u := u } := by
  rw [hostToU, h]
  rfl

theorem hostToI_eq_next {s t : State} {i : IUnit} :
    hostToI s i = .next t ↔ s.iLocked = false ∧ { s with i := i } = t := by
  rcases hostToI_cases s i with ⟨h, e⟩ | ⟨h, e⟩ <;> simp [h, e]

theorem hostToU_eq_next {s t : State} {u : UUnit} :
    hostToU s u = .next t ↔ s.uLocked = false ∧ { s with u := u } = t := by
  rcases hostToU_cases s u with ⟨h, e⟩ | ⟨h, e⟩ <;> simp [h, e]

/-- Nothing runs and nothing is about to run on an unlocked I-unit, and no chained run reads its `OUT` (R362, R385). -/
theorem State.iLocked_eq_false {s : State} :
    s.iLocked = false ↔ s.i.busy = false ∧ s.i.start = false ∧ s.u.usesOut = false := by
  simp [State.iLocked, and_assoc]

theorem State.uLocked_eq_false {s : State} : s.uLocked = false ↔ s.u.busy = false ∧ s.u.start = false := by
  simp [State.uLocked]

/-- Everything a host action can do (R362): reset the block, write to an unlocked unit's side, or give the U-unit a command,
with `CHAIN` only where the I-unit has a result (R77). -/
theorem hostAct_next {a : HostAct} {s t : State} (h : hostAct a s = .next t) :
    t = { State.reset with tick := s.tick } ∨
    (s.iLocked = false ∧ ∃ i, s.i.HostWritten i ∧ t = { s with i := i }) ∨
    (s.uLocked = false ∧ ∃ u, s.u.HostWritten u ∧ t = { s with u := u } ∧
      (u.start = true → u.chainCmd = true → s.i.phase = .done ∧ s.i.start = false)) := by
  have toI : ∀ {i}, s.i.HostWritten i → hostToI s i = .next t →
      s.iLocked = false ∧ ∃ i, s.i.HostWritten i ∧ t = { s with i := i } := fun hi e =>
    ⟨(hostToI_eq_next.1 e).1, _, hi, (hostToI_eq_next.1 e).2.symm⟩
  have toU : ∀ {u}, s.u.HostWritten u → hostToU s u = .next t →
      (s.uLocked = false → u.start = true → u.chainCmd = true → s.i.phase = .done ∧ s.i.start = false) →
      s.uLocked = false ∧ ∃ u, s.u.HostWritten u ∧ t = { s with u := u } ∧
        (u.start = true → u.chainCmd = true → s.i.phase = .done ∧ s.i.start = false) := fun hu e hc =>
    ⟨(hostToU_eq_next.1 e).1, _, hu, (hostToU_eq_next.1 e).2.symm, hc (hostToU_eq_next.1 e).1⟩
  have notStarted : s.uLocked = false → s.u.start = true → s.u.chainCmd = true →
      s.i.phase = .done ∧ s.i.start = false := fun hl hs => by
    rw [(State.uLocked_eq_false.1 hl).2] at hs
    cases hs
  rw [hostAct_eq] at h
  cases a with
  | hardReset => cases h; exact .inl rfl
  | writeIn a b => exact .inr (.inl (toI (.mk _ _ _ _ _ fun hw => Memory.write_wf hw a b) h))
  | writeInLen n => exact .inr (.inl (toI (.mk _ _ _ _ _ id) h))
  | writeICfg nlen strict => exact .inr (.inl (toI (.mk _ _ _ _ _ id) h))
  | writeICmd start => exact .inr (.inl (toI (.mk _ _ _ _ _ id) h))
  | writeRaw a b => exact .inr (.inr (toU (.config _ _ _ _ _ fun hw => Memory.write_wf hw a b) h notStarted))
  | writeRawLen n => exact .inr (.inr (toU (.config _ _ _ _ _ id) h notStarted))
  | writeWidth w => exact .inr (.inr (toU (.config _ _ _ _ _ id) h notStarted))
  | writeHeight w => exact .inr (.inr (toU (.config _ _ _ _ _ id) h notStarted))
  | writeBpp b => exact .inr (.inr (toU (.config _ _ _ _ _ id) h notStarted))
  | writeUCmd start chain =>
    simp only [hostActUnits] at h
    split at h
    · cases h
    · rename_i hresult
      cases start with
      | false => exact .inr (.inr (toU (.config _ _ _ _ _ id) h notStarted))
      | true =>
        refine .inr (.inr (toU (.command chain) h fun _ _ hchain => ?_))
        have hchain : chain = true := hchain
        simpa [hchain] using hresult

/-! ## O55: canonical spaces -/

theorem State.reset_canonical (n : Nat) : State.MemoryCanonical { State.reset with tick := n } :=
  ⟨Memory.wf_nil, Memory.wf_nil, Memory.wf_nil, Memory.wf_nil⟩

theorem stepI_canonical {s t : State} (hm : s.MemoryCanonical) (h : stepI s = .next t) : t.MemoryCanonical := by
  rcases stepI_next h with ⟨_, _, _, rfl⟩ | ⟨_, i, rfl, hi⟩
  · exact { hm with }
  · exact { hm with inp := hi.inp ▸ hm.inp, out := hi.out_wf hm.out }

theorem stepU_canonical {s t : State} (hm : s.MemoryCanonical) (h : stepU s = .next t) : t.MemoryCanonical := by
  obtain ⟨u, rfl, hraw, _, _, _, _, hrows⟩ := stepU_next h
  exact { hm with raw := hraw ▸ hm.raw, rows := hrows hm.rows }

theorem step_canonical {s t : State} (hm : s.MemoryCanonical) (h : step s = .next t) : t.MemoryCanonical := by
  have ticked : State.MemoryCanonical { s with tick := s.tick + 1 } := { hm with }
  rcases step_cases s with ⟨_, _, _, e⟩ | ⟨_, _, _, e⟩ | ⟨_, _, e⟩ | ⟨_, _, e⟩ | ⟨_, _, e⟩ <;> rw [e] at h
  · exact stepI_canonical ticked h
  · exact stepU_canonical ticked h
  · exact stepI_canonical hm h
  · exact stepU_canonical hm h
  · cases h; exact hm

theorem hostAct_canonical {a : HostAct} {s t : State} (hm : s.MemoryCanonical) (h : hostAct a s = .next t) :
    t.MemoryCanonical := by
  rcases hostAct_next h with rfl | ⟨_, i, hi, rfl⟩ | ⟨_, u, hu, rfl, _⟩
  · exact State.reset_canonical _
  · cases hi with
    | mk start nlen strict inLen inp hw => exact { hm with inp := hw hm.inp }
  · cases hu with
    | config width height bpp rawLen raw hw => exact { hm with raw := hw hm.raw }
    | command chain => exact { hm with }

/-- Settles O55: by cases of which unit steps, and of what a host action can do. -/
theorem everyStepKeepsMemoryCanonical : Obligations.EveryStepKeepsMemoryCanonical :=
  ⟨fun _ _ => step_canonical, fun _ _ _ => hostAct_canonical⟩

/-! ## O56 and O58: the invariant -/

theorem IUnit.reset_inRange : IUnit.reset.InRange := by
  have zeros : ∀ {n m : Nat}, ∀ l ∈ List.replicate n 0, l ≤ m := fun l hl => by
    rw [List.eq_of_mem_replicate hl]
    exact Nat.zero_le _
  constructor
  case cllen => exact ⟨List.length_replicate, zeros⟩
  case llen => exact ⟨List.length_replicate, zeros⟩
  case cltab | ltab | dtab => exact Table.empty_wf _ _
  all_goals exact Nat.zero_le _

theorem State.reset_inv (n : Nat) : State.Inv { State.reset with tick := n } where
  i :=
    { inRange := IUnit.reset_inRange, notRestarted := nofun, cursor := nofun, lengths := nofun,
      errKind := ⟨nofun, nofun⟩, errCause := nofun, outLen := rfl }
  u :=
    { notRestarted := nofun, geometry := nofun, ft := Nat.zero_le _, col := nofun,
      errKind := ⟨nofun, nofun⟩, errCause := nofun, rowsLen := fun _ => rfl }
  chain := nofun

/-- Settles O56: the reset state's registers are zero, its tables and spaces empty. -/
theorem resetHasTheInvariant : Obligations.ResetHasTheInvariant :=
  ⟨State.reset_inv 0, State.reset_canonical 0⟩

/-- What a host write to the I-unit's side can break is promised only for a run in progress. -/
theorem IUnit.Inv.hostWritten {u w : IUnit} (h : u.Inv) (hb : u.busy = false) (hw : u.HostWritten w) : w.Inv := by
  cases hw with
  | mk start nlen strict inLen inp =>
    exact { h with
      inRange := { h.inRange with }
      notRestarted := fun _ => hb
      cursor := fun hb' => absurd (hb.symm.trans hb') nofun }

/-- What a host write to the U-unit's side can break is promised only for a run in progress. -/
theorem UUnit.Inv.hostWritten {u w : UUnit} (h : u.Inv) (hb : u.busy = false) (hw : u.HostWritten w) : w.Inv := by
  cases hw with
  | config width height bpp rawLen raw =>
    exact { h with
      notRestarted := fun _ => hb
      geometry := fun hb' => absurd (hb.symm.trans hb') nofun }
  | command chain => exact { h with notRestarted := fun _ => hb }

/-- A host write leaves a U-unit at rest, which uses `OUT` only for a chained command (R77). -/
theorem UUnit.HostWritten.usesOut {u w : UUnit} (hw : u.HostWritten w) (hb : u.busy = false) (ho : w.usesOut = true) :
    w.start = true ∧ w.chainCmd = true := by
  have hb' : w.busy = false := by cases hw <;> exact hb
  simpa [UUnit.usesOut, hb'] using ho

/-- Settles O58: by cases of what a host action can do; a chained command is given only to a result. -/
theorem hostActionsKeepTheInvariant : Obligations.HostActionsKeepTheInvariant := by
  intro a s t hs h
  rcases hostAct_next h with rfl | ⟨hl, i, hi, rfl⟩ | ⟨hl, u, hu, rfl, hchain⟩
  · exact State.reset_inv _
  · obtain ⟨hb, _, ho⟩ := State.iLocked_eq_false.1 hl
    exact ⟨hs.i.hostWritten hb hi, hs.u, fun ho' => absurd (ho.symm.trans ho') nofun⟩
  · obtain ⟨hb, _⟩ := State.uLocked_eq_false.1 hl
    refine ⟨hs.i, hs.u.hostWritten hb hu, fun ho => ?_⟩
    obtain ⟨hstart, hcmd⟩ := hu.usesOut hb ho
    exact hchain hstart hcmd

/-! ## O45: host writes are read back -/

theorem hostAct_writeInLen_within {b : Bounds} {s : State} {n : Nat} (hl : s.iLocked = false) (hb : s.within b) :
    ((∀ m ∈ b.inMax, n ≤ m) → hostActWithin b (.writeInLen n) s = .next { s with i := { s.i with inLen := n } }) ∧
      ∀ m ∈ b.inMax, m < n → hostActWithin b (.writeInLen n) s = .refused .overCapacity := by
  have e : hostActUnits (.writeInLen n) s = .next { s with i := { s.i with inLen := n } } := hostToI_unlocked hl _
  rw [hostActWithin, e]
  refine ⟨fun hn => bounded_eq_next.2 ⟨rfl, hn, hb.2⟩, fun m hm hlt => ?_⟩
  refine if_neg fun hf => ?_
  have hle : n ≤ m := ((State.fits_iff _ b).1 hf).1 m hm
  omega

/-- Settles O45: each write is one to an unlocked unit's side, and what it writes is what the register or the byte reads
as. -/
theorem hostWritesAreReadBack : Obligations.HostWritesAreReadBack := by
  intro s hm
  refine ⟨fun hl => ?_, fun hl => ?_⟩
  · have write : ∀ {a i}, hostActUnits a s = hostToI s i → hostAct a s = .next { s with i := i } := fun e =>
      (hostAct_eq _ s).trans (e.trans (hostToI_unlocked hl _))
    obtain ⟨_, hstart, _⟩ := State.iLocked_eq_false.1 hl
    refine ⟨fun a b => ⟨_, write rfl, Memory.read_write hm.inp a b⟩, fun n => ⟨write rfl, rfl⟩,
      fun b n hb => hostAct_writeInLen_within hl hb, fun nlen strict => ⟨write rfl, rfl⟩, write rfl, ?_⟩
    have idle : ({ s.i with start := false } : IUnit) = s.i := by rw [← hstart]
    rw [write (a := .writeICmd false) rfl, idle]
  · have write : ∀ {a u}, hostActUnits a s = hostToU s u → hostAct a s = .next { s with u := u } := fun e =>
      (hostAct_eq _ s).trans (e.trans (hostToU_unlocked hl _))
    exact ⟨fun a b => ⟨_, write rfl, Memory.read_write hm.raw a b⟩, fun n => ⟨write rfl, rfl⟩,
      fun w => ⟨write rfl, rfl⟩, fun h => ⟨write rfl, rfl⟩, fun b => ⟨write rfl, rfl⟩, write rfl, fun c => write rfl⟩

/-! ## O42: reset values and `START` -/

theorem stepI_of_start {s : State} (h : s.i.start = true) : stepI s = startI s := if_pos h

/-- Settles O42: the reset values by definition, and `START` is the only step of a unit that has one pending. -/
theorem resetValuesAndStart : Obligations.ResetValuesAndStart := by
  refine ⟨⟨rfl, rfl, rfl, rfl, rfl, rfl, rfl, rfl, rfl⟩, fun s ha hs hb ho => ?_⟩
  rw [step_iAlone ha, stepI_of_start hs, startI, hb, ho]
  rfl

end Sys2Proof.Machine
end

/-! # What a step moves

O50, O51 and O52: which unit goes, `PHASE` and the cursor. -/

section
namespace Sys2Proof.Machine

/-- Settles O50: by cases of which unit goes. -/
theorem restingBlockStaysAndOneUnitStepsAtATime : Obligations.RestingBlockStaysAndOneUnitStepsAtATime := by
  refine ⟨fun s hi hu hib hub => step_rest (by simp [State.iReady, hi, hib]) (by simp [State.uReady, hu, hub]),
    fun s hi hu => ?_⟩
  rcases step_cases s with ⟨_, _, _, e⟩ | ⟨_, _, _, e⟩ | ⟨_, hu', _⟩ | ⟨hi', _⟩ | ⟨hi', _⟩
  · exact .inl e
  · exact .inr e
  · exact absurd (hu.symm.trans hu') nofun
  · exact absurd (hi.symm.trans hi') nofun
  · exact absurd (hi.symm.trans hi') nofun

/-- Settles O52: a step takes the command, or extends the run. -/
theorem cursorMovesForwardInTheBuffer : Obligations.CursorMovesForwardInTheBuffer := by
  intro s t h hc
  rcases stepI_next h with ⟨hs, _, _, rfl⟩ | ⟨hs, i, rfl, hi⟩
  · rw [if_pos hs]
    rfl
  · rw [if_neg (by simp [hs])]
    exact ⟨hi.bitpos, hi.cursor hc⟩

/-! ## O51: the transitions of `PHASE` -/

/-- Where an operation leaves `PHASE`: what it completes with satisfies `P`, and it raises only into `ERROR`. -/
inductive Res.LeavesPhase {α : Type} (P : Phase → Prop) : Res IUnit α → Prop
  | ok {a : α} {w : IUnit} (h : P w.phase) : Res.LeavesPhase P (.ok a w)
  | raised {w : IUnit} (h : w.phase = .error) : Res.LeavesPhase P (.raised w)
  | fault (e : Fault) : Res.LeavesPhase P (.fault e)
  | refused (e : Refusal) : Res.LeavesPhase P (.refused e)

section
variable {α β : Type} {P Q : Phase → Prop}

theorem Res.leavesPhase_bind {r : Res IUnit α} {f : α → IUnit → Res IUnit β} (h : r.LeavesPhase P)
    (k : ∀ a w, P w.phase → (f a w).LeavesPhase Q) : (r.bind f).LeavesPhase Q := by
  cases h with
  | ok h => exact k _ _ h
  | raised h => exact .raised h
  | fault e => exact .fault e
  | refused e => exact .refused e

theorem Res.LeavesPhase.mono {r : Res IUnit α} (h : r.LeavesPhase P) (k : ∀ p, P p → Q p) : r.LeavesPhase Q := by
  cases h with
  | ok h => exact .ok (k _ h)
  | raised h => exact .raised h
  | fault e => exact .fault e
  | refused e => exact .refused e

theorem Res.LeavesPhase.onI_next {r : Res IUnit Unit} {s t : State} (h : r.LeavesPhase P) (e : onI s r = .next t) :
    P t.i.phase ∨ t.i.phase = .error := by
  cases h with
  | ok h => cases e; exact .inl h
  | raised h => cases e; exact .inr h
  | fault f => cases e
  | refused f => cases e

end

theorem readBits_leavesPhase (n : Nat) (u : IUnit) : (readBits n u).LeavesPhase (· = u.phase) := by
  unfold readBits
  split
  · exact .fault _
  split
  · exact .raised rfl
  · exact .ok rfl

theorem basePlusExtra_leavesPhase (base n : Nat) (u : IUnit) :
    (basePlusExtra base n u).LeavesPhase (· = u.phase) := by
  refine Res.leavesPhase_bind (P := (· = u.phase)) ?_ fun _ _ hw => .ok hw
  unfold readExtra
  split
  · exact .ok rfl
  · exact readBits_leavesPhase n u

theorem decodeSym_leavesPhase (t : Table) (u : IUnit) : (decodeSym t u).LeavesPhase (· = u.phase) := by
  unfold decodeSym
  split
  · exact .raised rfl
  split
  · split <;> exact .raised rfl
  split
  · exact .raised rfl
  · refine Res.leavesPhase_bind (P := (· = u.phase)) ?_ fun _ _ hw => .ok hw
    unfold skipBits
    split
    · exact .ok rfl
    · exact .fault _

theorem buildTable_leavesPhase (lens : List Nat) (u : IUnit) : (buildTable lens u).LeavesPhase (· = u.phase) := by
  unfold buildTable
  split
  · exact .ok rfl
  · exact .raised rfl

theorem fetchHeader_leavesPhase (u : IUnit) : (fetchHeader u).LeavesPhase (· = u.phase) :=
  Res.leavesPhase_bind (readBits_leavesPhase 1 u) fun _ _ hw =>
    Res.leavesPhase_bind (readBits_leavesPhase 2 _) fun _ _ hv => .ok (hv.trans hw)

theorem copyStored_leavesPhase (n : Nat) (u : IUnit) : (copyStored n u).LeavesPhase (· = u.phase) := by
  induction n generalizing u with
  | zero => exact .ok rfl
  | succ n ih => exact Res.leavesPhase_bind (readBits_leavesPhase 8 u) fun _ w hw => (ih _).mono fun _ h => h.trans hw

theorem storedLengths_leavesPhase (u : IUnit) : (storedLengths u).LeavesPhase (· = u.phase) :=
  Res.leavesPhase_bind (readBits_leavesPhase 16 _) fun _ _ hw =>
    Res.leavesPhase_bind (readBits_leavesPhase 16 _) fun _ _ hv => .ok (hv.trans hw)

/-- The end of a block is another header or the end of the run (R183). -/
theorem endBlock_phase (u : IUnit) : (endBlock u).phase = .hdr ∨ (endBlock u).phase = .done := by
  unfold endBlock
  split
  · exact .inr rfl
  · exact .inl rfl

theorem storedBody_leavesPhase (u : IUnit) : (storedBody u).LeavesPhase fun p => p = .hdr ∨ p = .done := by
  refine Res.leavesPhase_bind (storedLengths_leavesPhase u) fun _ w _ => ?_
  split
  · exact .raised rfl
  · exact Res.leavesPhase_bind (copyStored_leavesPhase _ w) fun _ v _ => .ok (endBlock_phase v)

theorem dynCounts_leavesPhase (u : IUnit) : (dynCounts u).LeavesPhase (· = u.phase) :=
  Res.leavesPhase_bind (readBits_leavesPhase 5 u) fun _ _ hw =>
    Res.leavesPhase_bind (readBits_leavesPhase 5 _) fun _ _ hv =>
      Res.leavesPhase_bind (readBits_leavesPhase 4 _) fun _ _ hx => .ok (hx.trans (hv.trans hw))

theorem readClLens_leavesPhase (l : List Nat) (u : IUnit) : (readClLens l u).LeavesPhase (· = u.phase) := by
  induction l generalizing u with
  | nil => exact .ok rfl
  | cons s l ih => exact Res.leavesPhase_bind (readBits_leavesPhase 3 u) fun _ w hw => (ih _).mono fun _ h => h.trans hw

theorem dynHeader_leavesPhase (u : IUnit) : (dynHeader u).LeavesPhase (· = .clen) :=
  Res.leavesPhase_bind (dynCounts_leavesPhase u) fun _ _ _ =>
    Res.leavesPhase_bind (readClLens_leavesPhase _ _) fun _ _ _ =>
      Res.leavesPhase_bind (buildTable_leavesPhase _ _) fun _ _ _ => .ok rfl

theorem pushLens_phase (n v : Nat) (u : IUnit) : (pushLens n v u).phase = u.phase := by
  induction n generalizing u with
  | zero => rfl
  | succ n ih => exact ih _

theorem endCodeLength_leavesPhase (u : IUnit) : (endCodeLength u).LeavesPhase fun p => p = u.phase ∨ p = .body := by
  unfold endCodeLength
  split
  · exact Res.leavesPhase_bind (buildTable_leavesPhase _ u) fun _ _ _ =>
      Res.leavesPhase_bind (buildTable_leavesPhase _ _) fun _ _ _ => .ok (.inr rfl)
  · exact .ok (.inl rfl)

theorem repeatLen_leavesPhase (rep v : Nat) (u : IUnit) :
    (repeatLen rep v u).LeavesPhase fun p => p = u.phase ∨ p = .body := by
  unfold repeatLen
  split
  · exact .raised rfl
  · rw [← pushLens_phase rep v u]
    exact endCodeLength_leavesPhase _

theorem repeatExtra_leavesPhase (base n : Nat) (len : IUnit → Nat) (u : IUnit) :
    ((basePlusExtra base n u).bind fun rep w => repeatLen rep (len w) w).LeavesPhase
      fun p => p = u.phase ∨ p = .body :=
  Res.leavesPhase_bind (basePlusExtra_leavesPhase base n u) fun rep w hw => hw ▸ repeatLen_leavesPhase rep (len w) w

theorem copyMatch_phase (n : Nat) (u : IUnit) : (copyMatch n u).phase = u.phase := by
  induction n generalizing u with
  | zero => rfl
  | succ n ih => exact ih _

theorem distElement_leavesPhase (d : Nat) (u : IUnit) : (distElement d u).LeavesPhase (· = u.phase) := by
  refine Res.leavesPhase_bind (basePlusExtra_leavesPhase _ _ _) fun m w hw => ?_
  split
  · exact .raised rfl
  · exact .ok ((copyMatch_phase _ _).trans hw)

theorem distance_leavesPhase (u : IUnit) : (distance u).LeavesPhase (· = u.phase) := by
  refine Res.leavesPhase_bind (decodeSym_leavesPhase _ u) fun d w hw => ?_
  by_cases hlt : d < 30
  · rw [distSymbol_of_lt hlt, ← hw]
    exact distElement_leavesPhase d w
  by_cases hres : d = 30 ∨ d = 31
  · rw [distSymbol_reserved hres]
    exact .raised rfl
  · rw [distSymbol_of_gt (by omega)]
    exact .refused _

theorem matchElement_leavesPhase (v : Nat) (u : IUnit) : (matchElement v u).LeavesPhase (· = u.phase) :=
  Res.leavesPhase_bind (basePlusExtra_leavesPhase _ _ _) fun _ _ hw =>
    (distance_leavesPhase _).mono fun _ h => h.trans hw

theorem headerElement_leavesPhase (h : Nat) (u : IUnit) :
    (headerElement h u).LeavesPhase fun p => p = .hdr ∨ p = .done ∨ p = .body ∨ p = .clen := by
  unfold headerElement
  split
  · exact (storedBody_leavesPhase _).mono fun _ hp => hp.imp_right .inl
  · exact .ok (.inr (.inr (.inl rfl)))
  · exact (dynHeader_leavesPhase _).mono fun _ hp => .inr (.inr (.inr hp))
  · exact .raised rfl
  · exact .refused _

theorem clElement_leavesPhase (v : Nat) (u : IUnit) :
    (clElement v u).LeavesPhase fun p => p = u.phase ∨ p = .body := by
  unfold clElement
  split
  · rw [← pushLens_phase 1 v u]
    exact endCodeLength_leavesPhase _
  split
  · split
    · exact .raised rfl
    · exact repeatExtra_leavesPhase 3 2 IUnit.prevLen u
  split
  · exact repeatExtra_leavesPhase 3 3 (fun _ => 0) u
  split
  · exact repeatExtra_leavesPhase 11 7 (fun _ => 0) u
  · exact .refused _

theorem llElement_leavesPhase (v : Nat) (u : IUnit) :
    (llElement v u).LeavesPhase fun p => p = u.phase ∨ p = .hdr ∨ p = .done := by
  unfold llElement
  split
  · exact .ok (.inl rfl)
  split
  · exact .ok (.inr (endBlock_phase _))
  split
  · exact (matchElement_leavesPhase v u).mono fun _ hp => .inl hp
  split
  · exact .raised rfl
  · exact .refused _

/-- The phases an element fetched in a phase completes in (R28). -/
def Phase.successors : Phase → List Phase
  | .hdr => [.hdr, .done, .body, .clen]
  | .clen => [.clen, .body]
  | .body => [.body, .hdr, .done]
  | .idle | .done | .error => []

theorem element_leavesPhase {u : IUnit} (hb : u.busy = true) : u.element.LeavesPhase (· ∈ u.phase.successors) := by
  unfold IUnit.element
  rcases u.busy_iff.1 hb with hp | hp | hp <;> rw [hp]
  · exact Res.leavesPhase_bind (fetchHeader_leavesPhase u) fun w v _ =>
      (headerElement_leavesPhase w.2 v).mono fun _ h => by simpa [Phase.successors] using h
  · refine Res.leavesPhase_bind (decodeSym_leavesPhase _ u) fun v w hw => ?_
    exact (clElement_leavesPhase v w).mono fun _ h => by simpa [Phase.successors, hw, hp] using h
  · refine Res.leavesPhase_bind (decodeSym_leavesPhase _ u) fun v w hw => ?_
    exact (llElement_leavesPhase v w).mono fun _ h => by simpa [Phase.successors, hw, hp] using h

/-- Settles O51: a pending `START` is taken outside a run, and each phase's elements leave the phases R28 names. -/
theorem phaseTransitionsAreThoseOfR28 : Obligations.PhaseTransitionsAreThoseOfR28 := by
  intro s t hr h
  rcases stepI_next h with ⟨hs, hb, _, rfl⟩ | ⟨hs, _⟩
  · refine .inl ⟨hs, ?_, rfl⟩
    revert hb
    unfold IUnit.busy
    cases s.i.phase <;> decide
  · refine .inr ⟨hs, ?_⟩
    have hb : s.i.busy = true := by simpa [State.iReady, hs] using hr
    rw [stepI_eq_onI hs] at h
    have ht := (element_leavesPhase hb).onI_next h
    rcases s.i.busy_iff.1 hb with hp | hp | hp <;> simpa [hp, Phase.successors, or_assoc] using ht

end Sys2Proof.Machine
end

/-! # What a step writes

O47 and O53: what a chained run reads, and how far a step extends `OUT`. -/

section
namespace Sys2Proof.Machine

/-! ## O47: a chained start -/

/-- A `START` latches `CHAIN` for the run, whatever the geometry (R77, R300, R301). -/
theorem onU_begin_chained (s : State) :
    ∃ u, onU s s.u.begin = .next { s with u := u } ∧ u.chained = s.u.chainCmd := by
  rcases s.u.begin_cases with ⟨_, e⟩ | ⟨_, e⟩ <;> rw [e]
  · exact ⟨_, rfl, (UUnit.nextRow_extends _).chained⟩
  · exact ⟨_, rfl, rfl⟩

/-- A command the U-unit may take is its next step (R300), a chained one where the I-unit has a result (R77). -/
theorem stepU_of_start {s : State} (hs : s.u.start = true) (hb : s.u.busy = false)
    (hc : s.u.chainCmd = true → s.i.phase = .done) : stepU s = onU s s.u.begin := by
  rw [stepU, if_pos hs, startU, if_neg (by simp [hb]), if_neg (by simpa using hc)]

theorem hostAct_chainedStart_refused {s : State} (h : s.i.phase ≠ .done ∨ s.i.start = true) :
    hostAct (.writeUCmd true true) s = .refused .chainWithoutResult := by
  rw [hostAct_eq]
  exact if_pos (by simpa using h)

theorem hostAct_chainedStart {s : State} (hl : s.uLocked = false) (hs : s.i.start = false) (hp : s.i.phase = .done) :
    hostAct (.writeUCmd true true) s = .next { s with u := { s.u with start := true, chainCmd := true } } := by
  rw [hostAct_eq]
  exact (if_neg (by simp [hs, hp])).trans (hostToU_unlocked hl _)

/-- A chained start that is taken begins a run on `OUT` up to `I_OUT_LEN`, and the I-unit keeps everything (R77). -/
theorem step_chainedStart {s : State} (ha : s.uAlone) (hs : s.u.start = true) (hb : s.u.busy = false)
    (hc : s.u.chainCmd = true) (hp : s.i.phase = .done) :
    ∃ v, step s = .next v ∧ v.u.chained = true ∧ v.rawSpace = s.i.out ∧ v.rawLen = s.i.outLen ∧ v.i = s.i := by
  obtain ⟨u, hu, hchain⟩ := onU_begin_chained s
  have chained : u.chained = true := hchain.trans hc
  refine ⟨{ s with u := u }, ?_, chained, if_pos chained, if_pos chained, rfl⟩
  rw [step_uAlone ha, stepU_of_start hs hb fun _ => hp, hu]

/-- Settles O47: the host's write is refused or sets the command, and the unit takes it in the next step. -/
theorem chainedRunReadsTheOutput : Obligations.ChainedRunReadsTheOutput := by
  intro s
  refine ⟨hostAct_chainedStart_refused, fun hl hs hp => ⟨hostAct_chainedStart hl hs hp, ?_⟩⟩
  have rests : s.iReady = false := by simp [State.iReady, IUnit.busy, hs, hp]
  obtain ⟨hb, _⟩ := State.uLocked_eq_false.1 hl
  exact step_chainedStart ⟨rests, rfl⟩ rfl hb rfl hp

/-! ## How far an element extends `OUT` -/

/-- The operation leaves `OUTLEN` at most `m`, whether it completes or raises. -/
inductive Res.OutlenAtMost {α : Type} (m : Nat) : Res IUnit α → Prop
  | ok {a : α} {w : IUnit} (h : w.outlen ≤ m) : Res.OutlenAtMost m (.ok a w)
  | raised {w : IUnit} (h : w.outlen ≤ m) : Res.OutlenAtMost m (.raised w)
  | fault (e : Fault) : Res.OutlenAtMost m (.fault e)
  | refused (e : Refusal) : Res.OutlenAtMost m (.refused e)

section
variable {α β : Type} {m n : Nat} {u : IUnit}

theorem Res.OutlenAtMost.mono {r : Res IUnit α} (h : r.OutlenAtMost m) (hmn : m ≤ n) : r.OutlenAtMost n := by
  cases h with
  | ok h => exact .ok (h.trans hmn)
  | raised h => exact .raised (h.trans hmn)
  | fault e => exact .fault e
  | refused e => exact .refused e

theorem Res.outlenAtMost_bind {r : Res IUnit α} {f : α → IUnit → Res IUnit β} (h : r.OutlenAtMost m) (hmn : m ≤ n)
    (k : ∀ a w, r = .ok a w → w.outlen ≤ m → (f a w).OutlenAtMost n) : (r.bind f).OutlenAtMost n := by
  cases h with
  | ok h => exact k _ _ rfl h
  | raised h => exact .raised (h.trans hmn)
  | fault e => exact .fault e
  | refused e => exact .refused e

theorem Res.OutlenAtMost.onI_next {r : Res IUnit Unit} {s t : State} (h : r.OutlenAtMost m) (e : onI s r = .next t) :
    t.i.outlen ≤ m := by
  cases h with
  | ok h => cases e; exact h
  | raised h => cases e; exact h
  | fault f => cases e
  | refused f => cases e

/-! ### Operations that append nothing -/

theorem readBits_outlenAtMost (n : Nat) (h : u.outlen ≤ m) : (readBits n u).OutlenAtMost m := by
  unfold readBits
  split
  · exact .fault _
  split
  · exact .raised h
  · exact .ok h

theorem basePlusExtra_outlenAtMost (base n : Nat) (h : u.outlen ≤ m) : (basePlusExtra base n u).OutlenAtMost m := by
  refine Res.outlenAtMost_bind ?_ le_rfl fun _ _ _ hw => .ok hw
  unfold readExtra
  split
  · exact .ok h
  · exact readBits_outlenAtMost n h

theorem decodeSym_outlenAtMost (t : Table) (h : u.outlen ≤ m) : (decodeSym t u).OutlenAtMost m := by
  unfold decodeSym
  split
  · exact .raised h
  split
  · split <;> exact .raised h
  split
  · exact .raised h
  · refine Res.outlenAtMost_bind ?_ le_rfl fun _ _ _ hw => .ok hw
    unfold skipBits
    split
    · exact .ok h
    · exact .fault _

theorem buildTable_outlenAtMost (lens : List Nat) (h : u.outlen ≤ m) : (buildTable lens u).OutlenAtMost m := by
  unfold buildTable
  split
  · exact .ok h
  · exact .raised h

theorem fetchHeader_outlenAtMost (h : u.outlen ≤ m) : (fetchHeader u).OutlenAtMost m :=
  Res.outlenAtMost_bind (readBits_outlenAtMost 1 h) le_rfl fun _ _ _ hw =>
    Res.outlenAtMost_bind (readBits_outlenAtMost 2 hw) le_rfl fun _ _ _ hv => .ok hv

theorem storedLengths_outlenAtMost (h : u.outlen ≤ m) : (storedLengths u).OutlenAtMost m :=
  Res.outlenAtMost_bind (readBits_outlenAtMost 16 h) le_rfl fun _ _ _ hw =>
    Res.outlenAtMost_bind (readBits_outlenAtMost 16 hw) le_rfl fun _ _ _ hv => .ok hv

theorem dynCounts_outlenAtMost (h : u.outlen ≤ m) : (dynCounts u).OutlenAtMost m :=
  Res.outlenAtMost_bind (readBits_outlenAtMost 5 h) le_rfl fun _ _ _ hw =>
    Res.outlenAtMost_bind (readBits_outlenAtMost 5 hw) le_rfl fun _ _ _ hv =>
      Res.outlenAtMost_bind (readBits_outlenAtMost 4 hv) le_rfl fun _ _ _ hx => .ok hx

theorem readClLens_outlenAtMost (l : List Nat) (h : u.outlen ≤ m) : (readClLens l u).OutlenAtMost m := by
  induction l generalizing u with
  | nil => exact .ok h
  | cons s l ih => exact Res.outlenAtMost_bind (readBits_outlenAtMost 3 h) le_rfl fun _ _ _ hw => ih hw

theorem dynHeader_outlenAtMost (h : u.outlen ≤ m) : (dynHeader u).OutlenAtMost m :=
  Res.outlenAtMost_bind (dynCounts_outlenAtMost h) le_rfl fun _ _ _ hw =>
    Res.outlenAtMost_bind (readClLens_outlenAtMost _ hw) le_rfl fun _ _ _ hv =>
      Res.outlenAtMost_bind (buildTable_outlenAtMost _ hv) le_rfl fun _ _ _ hx => .ok hx

theorem pushLens_outlen (n v : Nat) (u : IUnit) : (pushLens n v u).outlen = u.outlen := by
  induction n generalizing u with
  | zero => rfl
  | succ n ih => exact ih _

theorem endCodeLength_outlenAtMost (h : u.outlen ≤ m) : (endCodeLength u).OutlenAtMost m := by
  unfold endCodeLength
  split
  · exact Res.outlenAtMost_bind (buildTable_outlenAtMost _ h) le_rfl fun _ _ _ hw =>
      Res.outlenAtMost_bind (buildTable_outlenAtMost _ hw) le_rfl fun _ _ _ hv => .ok hv
  · exact .ok h

theorem repeatLen_outlenAtMost (rep v : Nat) (h : u.outlen ≤ m) : (repeatLen rep v u).OutlenAtMost m := by
  unfold repeatLen
  split
  · exact .raised h
  · exact endCodeLength_outlenAtMost ((pushLens_outlen rep v u).trans_le h)

theorem clElement_outlenAtMost (v : Nat) (h : u.outlen ≤ m) : (clElement v u).OutlenAtMost m := by
  have repeated : ∀ base n (len : IUnit → Nat),
      ((basePlusExtra base n u).bind fun rep w => repeatLen rep (len w) w).OutlenAtMost m := fun base n len =>
    Res.outlenAtMost_bind (basePlusExtra_outlenAtMost base n h) le_rfl fun rep w _ hw =>
      repeatLen_outlenAtMost rep (len w) hw
  unfold clElement
  split
  · exact endCodeLength_outlenAtMost ((pushLens_outlen 1 v u).trans_le h)
  split
  · split
    · exact .raised h
    · exact repeated 3 2 IUnit.prevLen
  split
  · exact repeated 3 3 fun _ => 0
  split
  · exact repeated 11 7 fun _ => 0
  · exact .refused _

theorem endBlock_outlen (u : IUnit) : (endBlock u).outlen = u.outlen := by
  unfold endBlock
  split <;> rfl

/-! ### Stored blocks: a length of sixteen bits -/

theorem copyStored_outlenAtMost (h : u.outlen + n ≤ m) : (copyStored n u).OutlenAtMost m := by
  induction n generalizing u with
  | zero => exact .ok h
  | succ n ih =>
    refine Res.outlenAtMost_bind (readBits_outlenAtMost 8 le_rfl) (by omega) fun b w _ hw => ih ?_
    show w.outlen + 1 + n ≤ m
    omega

theorem storedLengths_slen {w : IUnit} (h : storedLengths u = .ok () w) : w.slen < 2 ^ 16 := by
  obtain ⟨len, v, hlen, h⟩ := Res.bind_eq_ok.1 h
  obtain ⟨nlen, x, hnlen, h⟩ := Res.bind_eq_ok.1 h
  cases h
  obtain ⟨_, _, _, _, hlt, _⟩ := readBits_eq_ok hlen
  obtain ⟨_, _, _, _, _, rfl⟩ := readBits_eq_ok hnlen
  exact hlt

/-- A stored block appends at most 65535 bytes (R190). -/
theorem storedBody_outlenAtMost (h : u.outlen + 65535 ≤ m) : (storedBody u).OutlenAtMost m := by
  refine Res.outlenAtMost_bind (storedLengths_outlenAtMost le_rfl) (by omega) fun _ w e hw => ?_
  have hslen := storedLengths_slen e
  split
  · exact .raised (show w.outlen ≤ m by omega)
  · exact Res.outlenAtMost_bind (copyStored_outlenAtMost (by omega)) le_rfl fun _ v _ hv =>
      .ok ((endBlock_outlen v).trans_le hv)

theorem headerElement_outlenAtMost (v : Nat) (h : u.outlen + 65535 ≤ m) : (headerElement v u).OutlenAtMost m := by
  have h0 : u.outlen ≤ m := by omega
  unfold headerElement
  split
  · exact storedBody_outlenAtMost h
  · exact .ok h0
  · exact dynHeader_outlenAtMost h0
  · exact .raised h0
  · exact .refused _

/-! ### Matches: a length of at most 258 -/

theorem copyMatch_outlen (n : Nat) (u : IUnit) : (copyMatch n u).outlen = u.outlen + n := by
  induction n generalizing u with
  | zero => rfl
  | succ n ih =>
    refine (ih _).trans ?_
    show u.outlen + 1 + n = u.outlen + (n + 1)
    omega

theorem distElement_outlenAtMost {d : Nat} (hd : d < 30) (h : u.outlen + u.mlen ≤ m) :
    (distElement d u).OutlenAtMost m := by
  have h0 : u.outlen ≤ m := by omega
  obtain ⟨hx, _⟩ := distance_rows d hd
  rcases distElement_cases (u := u) (hx.trans (by decide)) with ⟨_, _, e⟩ | ⟨_, ⟨_, e⟩ | ⟨_, e⟩⟩ <;> rw [e]
  · exact .raised h0
  · exact .raised h0
  · exact .ok ((copyMatch_outlen _ _).trans_le h)

/-- A decode that completes has moved the cursor and nothing else (R160). -/
theorem decodeSym_eq_ok {t : Table} {v : Nat} {w : IUnit} (h : decodeSym t u = .ok v w) : ∃ p, w = u.seek p := by
  unfold decodeSym at h
  split at h
  · cases h
  split at h
  · split at h <;> cases h
  split at h
  · cases h
  · obtain ⟨_, x, hskip, h⟩ := Res.bind_eq_ok.1 h
    cases h
    unfold skipBits at hskip
    split at hskip <;> cases hskip
    exact ⟨_, rfl⟩

theorem distance_outlenAtMost (h : u.outlen + u.mlen ≤ m) : (distance u).OutlenAtMost m := by
  refine Res.outlenAtMost_bind (decodeSym_outlenAtMost _ le_rfl) (by omega) fun d w e _ => ?_
  obtain ⟨p, rfl⟩ := decodeSym_eq_ok e
  by_cases hlt : d < 30
  · rw [distSymbol_of_lt hlt]
    exact distElement_outlenAtMost hlt h
  by_cases hres : d = 30 ∨ d = 31
  · rw [distSymbol_reserved hres]
    exact .raised (show u.outlen ≤ m by omega)
  · rw [distSymbol_of_gt (by omega)]
    exact .refused _

/-- A match appends at most 258 bytes (R104, R223). -/
theorem matchElement_outlenAtMost {v : Nat} (hv : v ≤ 285) (h : u.outlen + 258 ≤ m) :
    (matchElement v u).OutlenAtMost m := by
  obtain ⟨hx, _, hrow⟩ := length_rows (v - 257) (by omega)
  rcases matchElement_cases (u := u) (hx.trans (by decide)) with ⟨_, _, e⟩ | ⟨_, e⟩ <;> rw [e]
  · exact .raised (show u.outlen ≤ m by omega)
  · refine distance_outlenAtMost ?_
    have hbits := bitField_lt u.inBit_lt (lextra.getD (v - 257) 0) u.bitpos
    simp only [IUnit.lengthRead]
    omega

theorem llElement_outlenAtMost (v : Nat) (h : u.outlen + 258 ≤ m) : (llElement v u).OutlenAtMost m := by
  have h0 : u.outlen ≤ m := by omega
  unfold llElement
  split
  · exact .ok (show u.outlen + 1 ≤ m by omega)
  split
  · exact .ok ((endBlock_outlen _).trans_le h0)
  split
  · rename_i hv
    exact matchElement_outlenAtMost hv h
  split
  · exact .raised h0
  · exact .refused _

end

/-- The next element of a run appends at most 65535 bytes (R397): the longest is a stored block. -/
theorem element_outlenAtMost (u : IUnit) : u.element.OutlenAtMost (u.outlen + 65535) := by
  have h0 : u.outlen ≤ u.outlen + 65535 := by omega
  unfold IUnit.element
  split
  · exact Res.outlenAtMost_bind (fetchHeader_outlenAtMost le_rfl) h0 fun w v _ hv =>
      headerElement_outlenAtMost w.2 (by omega)
  · exact Res.outlenAtMost_bind (decodeSym_outlenAtMost _ h0) le_rfl fun v w _ hw => clElement_outlenAtMost v hw
  · exact Res.outlenAtMost_bind (decodeSym_outlenAtMost _ le_rfl) h0 fun v w _ hw =>
      llElement_outlenAtMost v (by omega)
  all_goals exact .ok h0

/-! ## O53: the frame of a step -/

/-- Everything a step of the block can do to the I-unit: take its command, or extend its run by at most 65535 bytes. -/
theorem step_iUnit {s t : State} (h : step s = .next t) :
    (s.i.start = true ∧ t.i = s.i.begin) ∨ (s.i.Extends t.i ∧ t.i.outlen ≤ s.i.outlen + 65535) := by
  rcases step_next h with ⟨hi, _⟩ | ⟨_, s', hi, _, h'⟩
  · rw [hi]
    exact .inr ⟨.refl _, by omega⟩
  · rw [← hi]
    rcases stepI_next h' with ⟨hs, _, _, rfl⟩ | ⟨hs, i, rfl, hext⟩
    · exact .inl ⟨hs, rfl⟩
    · rw [stepI_eq_onI hs] at h'
      exact .inr ⟨hext, (element_outlenAtMost s'.i).onI_next h'⟩

/-- A step never writes `RAW` or a register of the U-unit that the host writes (R30, R35). -/
theorem step_keepsRaw {s t : State} (h : step s = .next t) :
    t.u.raw = s.u.raw ∧ t.u.rawLen = s.u.rawLen ∧ t.u.width = s.u.width ∧ t.u.height = s.u.height ∧
      t.u.bpp = s.u.bpp := by
  rcases step_next h with ⟨_, hu | ⟨s', _, hu, h'⟩⟩ | ⟨hu, _⟩
  · rw [hu]
    exact ⟨rfl, rfl, rfl, rfl, rfl⟩
  · rw [← hu]
    obtain ⟨u, rfl, hraw, hlen, hwidth, hheight, hbpp, _⟩ := stepU_next h'
    exact ⟨hraw, hlen, hwidth, hheight, hbpp⟩
  · rw [hu]
    exact ⟨rfl, rfl, rfl, rfl, rfl⟩

/-- The step of a bounded implementation is the step where its result is within the bounds, and refused elsewhere (U4). -/
theorem stepWithin_of_step {s t : State} (h : step s = .next t) (b : Bounds) :
    (t.within b → stepWithin b s = .next t) ∧ (¬ t.within b → stepWithin b s = .refused .overCapacity) := by
  rw [step_eq] at h
  rw [stepWithin, h]
  exact ⟨fun hw => bounded_eq_next.2 ⟨rfl, hw⟩, fun hw => if_neg fun hf => hw ((t.fits_iff b).1 hf)⟩

/-- A step never writes `IN` or a register of the I-unit that the host writes (R29, R35). -/
theorem step_keepsInputs {s t : State} (h : step s = .next t) :
    t.i.inp = s.i.inp ∧ t.i.inLen = s.i.inLen ∧ t.i.nlenCheck = s.i.nlenCheck ∧ t.i.strictPeek = s.i.strictPeek := by
  rcases step_iUnit h with ⟨_, e⟩ | ⟨hext, _⟩
  · rw [e]
    exact ⟨rfl, rfl, rfl, rfl⟩
  · exact ⟨hext.inp, hext.inLen, hext.nlenCheck, hext.strictPeek⟩

theorem step_outlen_le {s t : State} (h : step s = .next t) : t.i.outlen ≤ s.i.outlen + 65535 := by
  rcases step_iUnit h with ⟨_, e⟩ | ⟨_, hlen⟩
  · rw [e]
    exact Nat.zero_le _
  · exact hlen

/-- A step with `IN_LEN` in bounds and 65535 bytes of `OUT_MAX` left stays within the bounds (R397). -/
theorem step_within {s t : State} (h : step s = .next t) {b : Bounds} (hin : ∀ m ∈ b.inMax, s.i.inLen ≤ m)
    (hout : ∀ m ∈ b.outMax, s.i.outlen + 65535 ≤ m) : t.within b := by
  obtain ⟨_, hlen, _⟩ := step_keepsInputs h
  exact ⟨fun m hm => hlen.trans_le (hin m hm), fun m hm => (step_outlen_le h).trans (hout m hm)⟩

/-- A step changes no byte of `OUT` but those it appends, and only a `START` shortens the output (R65, R75). -/
theorem step_onlyAppends {s t : State} (hw : s.i.out.wf) (h : step s = .next t) :
    (∀ a, t.i.out.read a ≠ s.i.out.read a → s.i.outlen ≤ a ∧ a < t.i.outlen) ∧
      (s.i.start = false → s.i.outlen ≤ t.i.outlen) := by
  rcases step_iUnit h with ⟨hs, e⟩ | ⟨hext, _⟩
  · rw [e]
    exact ⟨fun _ hne => absurd rfl hne, fun hs' => absurd (hs.symm.trans hs') nofun⟩
  · exact ⟨hext.out_read hw, fun _ => hext.outlen⟩

/-- Settles O53: what a step does to each unit, and that a bounded step differs only where its result is out of bounds. -/
theorem stepOnlyAppendsAndNeverWritesInputs : Obligations.StepOnlyAppendsAndNeverWritesInputs := by
  intro s t hw h
  obtain ⟨hbytes, hgrows⟩ := step_onlyAppends hw h
  refine ⟨hbytes, hgrows, step_outlen_le h, step_keepsInputs h, step_keepsRaw h, fun b => ?_⟩
  obtain ⟨hwithin, hbeyond⟩ := stepWithin_of_step h b
  exact ⟨hwithin, hbeyond, fun hin hout => hwithin (step_within h hin hout)⟩

end Sys2Proof.Machine
end

/-! # The encoding of the stream elements

O1, O2, O3 and O4: what the decoder of each format can do, the rows of the opcode table, and the fixed codes. -/

section
namespace Sys2Proof

/-! ## The decoder and the encoder (R101, R102, R105, R106, R108, R112) -/

/-- The element is well formed, and its word is the value `v` of format `f`. -/
def Instr.HasWord (i : Instr) (f : Format) (v : Nat) : Prop := i.wf = true ∧ encode i = (f, v)

/-- How many values the selecting field of a format can take (R112). -/
def Format.values : Format → Nat
  | .bh => 8
  | .cl => 19
  | .ll => 288
  | .ds => 32
  | .fs => 256

/-- A list of elements whose words are the values from `a` on, in order. -/
theorem hasWord_of_getElem? {l : List Instr} {f : Format} {a k : Nat} {i : Instr}
    (words : l.map encode = (List.range l.length).map fun k => (f, a + k)) (wf : ∀ i ∈ l, i.wf = true)
    (h : l[k]? = some i) : i.HasWord f (a + k) := by
  obtain ⟨hk, rfl⟩ := List.getElem?_eq_some_iff.1 h
  have word := congrArg (·[k]?) words
  exact ⟨wf _ (List.getElem_mem hk), by simpa [hk] using word⟩

theorem lenInstrs_hasWord {k : Nat} {i : Instr} (h : lenInstrs[k]? = some i) : i.HasWord .ll (257 + k) :=
  hasWord_of_getElem? rfl (by decide) h

theorem distInstrs_hasWord {k : Nat} {i : Instr} (h : distInstrs[k]? = some i) : i.HasWord .ds k :=
  Nat.zero_add k ▸ hasWord_of_getElem? rfl (by decide) h

/-- Everything the decoder of format `BH` can do (R101). -/
theorem decodeBH_cases (h : Nat) : (h < 8 ∧ ∃ i, decodeBH h = .ok i ∧ i.HasWord .bh h) ∨
    (8 ≤ h ∧ decodeBH h = .error (.noHeader h)) := by
  have bit : (h % 2 == 1).toNat = h % 2 := by rcases Nat.mod_two_eq_zero_or_one h with e | e <;> simp [e]
  have word (btype : Nat) (e : h / 2 = btype) : (Format.bh, (h % 2 == 1).toNat + 2 * btype) = (Format.bh, h) := by
    rw [bit, ← e, Nat.mod_add_div]
  unfold decodeBH
  split
  case h_5 _ h0 h1 h2 h3 =>
    have past : h / 2 ≠ 0 ∧ h / 2 ≠ 1 ∧ h / 2 ≠ 2 ∧ h / 2 ≠ 3 := ⟨h0, h1, h2, h3⟩
    exact .inr ⟨by omega, rfl⟩
  all_goals exact .inl ⟨by omega, _, rfl, rfl, word _ ‹_›⟩

/-- Everything the decoder of format `CL` can do (R106). -/
theorem decodeCL_cases (v : Nat) : (v < 19 ∧ ∃ i, decodeCL v = .ok i ∧ i.HasWord .cl v) ∨
    (19 ≤ v ∧ decodeCL v = .error (.noCodeLengthSymbol v)) := by
  unfold decodeCL
  split_ifs with h15 h16 h17 h18
  · exact .inl ⟨by omega, _, rfl, decide_eq_true h15, rfl⟩
  · exact .inl ⟨by omega, _, rfl, rfl, by rw [h16]; rfl⟩
  · exact .inl ⟨by omega, _, rfl, rfl, by rw [h17]; rfl⟩
  · exact .inl ⟨by omega, _, rfl, rfl, by rw [h18]; rfl⟩
  · exact .inr ⟨by omega, rfl⟩

/-- Everything the decoder of format `LL` can do (R102). -/
theorem decodeLL_cases (v : Nat) : (v < 288 ∧ ∃ i, decodeLL v = .ok i ∧ i.HasWord .ll v) ∨
    (288 ≤ v ∧ decodeLL v = .error (.noLitLenSymbol v)) := by
  unfold decodeLL
  by_cases h255 : v ≤ 255
  · rw [if_pos h255]
    refine .inl ⟨by omega, _, rfl, rfl, Prod.ext rfl ?_⟩
    exact Nat.mod_eq_of_lt (by omega)
  by_cases h256 : v = 256
  · rw [if_neg h255, if_pos h256]
    exact .inl ⟨by omega, _, rfl, rfl, by rw [h256]; rfl⟩
  · rw [if_neg h255, if_neg h256]
    split
    next i hi =>
      have word := lenInstrs_hasWord hi
      obtain ⟨hlt, -⟩ := List.getElem?_eq_some_iff.1 hi
      have hlt : v - 257 < 29 := hlt
      rw [show 257 + (v - 257) = v by omega] at word
      exact .inl ⟨by omega, i, rfl, word⟩
    next hnone =>
      have hge : 29 ≤ v - 257 := List.getElem?_eq_none_iff.1 hnone
      split_ifs with h287
      · exact .inl ⟨by omega, _, rfl, decide_eq_true ⟨by omega, h287⟩, rfl⟩
      · exact .inr ⟨by omega, rfl⟩

/-- Everything the decoder of format `DS` can do (R105). -/
theorem decodeDS_cases (v : Nat) : (v < 32 ∧ ∃ i, decodeDS v = .ok i ∧ i.HasWord .ds v) ∨
    (32 ≤ v ∧ decodeDS v = .error (.noDistanceSymbol v)) := by
  unfold decodeDS
  split
  next i hi =>
    obtain ⟨hlt, -⟩ := List.getElem?_eq_some_iff.1 hi
    have hlt : v < 30 := hlt
    exact .inl ⟨by omega, i, rfl, distInstrs_hasWord hi⟩
  next hnone =>
    have hge : 30 ≤ v := List.getElem?_eq_none_iff.1 hnone
    split_ifs with h31
    · exact .inl ⟨by omega, _, rfl, decide_eq_true ⟨hge, h31⟩, rfl⟩
    · exact .inr ⟨by omega, rfl⟩

/-- Everything the decoder of format `FS` can do (R108). -/
theorem decodeFS_cases (v : Nat) : (v < 256 ∧ ∃ i, decodeFS v = .ok i ∧ i.HasWord .fs v) ∨
    (256 ≤ v ∧ decodeFS v = .error (.noSelector v)) := by
  unfold decodeFS
  split
  case h_6 _ h0 h1 h2 h3 h4 =>
    have past : v ≠ 0 ∧ v ≠ 1 ∧ v ≠ 2 ∧ v ≠ 3 ∧ v ≠ 4 := ⟨h0, h1, h2, h3, h4⟩
    split_ifs with h255
    · exact .inl ⟨by omega, _, rfl, decide_eq_true ⟨by omega, h255⟩, rfl⟩
    · exact .inr ⟨by omega, rfl⟩
  all_goals exact .inl ⟨by decide, _, rfl, rfl, rfl⟩

/-- Everything the decoder can do (R112): a value of the field has an element with that word, any other is rejected. -/
theorem decode_cases (f : Format) (v : Nat) : (v < f.values ∧ ∃ i, decode f v = .ok i ∧ i.HasWord f v) ∨
    (f.values ≤ v ∧ ∃ e, decode f v = .error e) := by
  cases f with
  | bh => exact (decodeBH_cases v).imp_right (And.imp_right (⟨_, ·⟩))
  | cl => exact (decodeCL_cases v).imp_right (And.imp_right (⟨_, ·⟩))
  | ll => exact (decodeLL_cases v).imp_right (And.imp_right (⟨_, ·⟩))
  | ds => exact (decodeDS_cases v).imp_right (And.imp_right (⟨_, ·⟩))
  | fs => exact (decodeFS_cases v).imp_right (And.imp_right (⟨_, ·⟩))

theorem decode_sound {f : Format} {v : Nat} {i : Instr} (h : decode f v = .ok i) : i.HasWord f v := by
  rcases decode_cases f v with ⟨-, j, hj, word⟩ | ⟨-, e, he⟩
  · cases hj.symm.trans h
    exact word
  · cases he.symm.trans h

theorem decode_encode {i : Instr} (h : i.wf = true) : decode (encode i).1 (encode i).2 = .ok i := by
  cases i with
  | stored bfin | fixed bfin | dynamic bfin | btype3 bfin => cases bfin <;> rfl
  | cllit len => exact if_pos (of_decide_eq_true h)
  | lit b =>
    have hb : b.toNat ≤ 255 := Nat.le_of_lt_succ b.isLt
    have low : BitVec.ofNat 8 b.toNat = b := BitVec.eq_of_toNat_eq (Nat.mod_eq_of_lt b.isLt)
    exact (if_pos hb).trans (congrArg (fun b => Except.ok (Instr.lit b)) low)
  | rsvl sym =>
    obtain ⟨h1, h2⟩ : 286 ≤ sym ∧ sym ≤ 287 := of_decide_eq_true h
    interval_cases sym <;> rfl
  | rsvd sym =>
    obtain ⟨h1, h2⟩ : 30 ≤ sym ∧ sym ≤ 31 := of_decide_eq_true h
    interval_cases sym <;> rfl
  | rsvf ft =>
    obtain ⟨h1, h2⟩ : 5 ≤ ft ∧ ft ≤ 255 := of_decide_eq_true h
    obtain ⟨n, rfl⟩ := Nat.exists_eq_add_of_le' h1
    exact if_pos h2
  | _ => rfl

/-- Settles O1: the decoder is sound by its inversion per format, and complete by cases over the element. -/
theorem decodeInvertsEncode : Obligations.DecodeInvertsEncode := by
  intro f v i
  refine ⟨decode_sound, fun ⟨wf, word⟩ => ?_⟩
  have h := decode_encode wf
  rwa [word] at h

/-- Settles O3: each word is the one of its element, but 288, which is past the last symbol (R112). -/
theorem wordsOfEachFormatDecode : Obligations.WordsOfEachFormatDecode :=
  ⟨rfl, rfl, rfl, rfl, rfl, rfl, rfl, rfl, rfl, rfl, rfl, rfl, rfl⟩

/-! ## The rows of the opcode table (R112) -/

/-- Two rows that, if of one format, disagree on a bit that both of them fix. -/
def OpcodeRow.Apart (r q : OpcodeRow) : Prop :=
  r.format = q.format → r.matchBits &&& q.mask ≠ q.matchBits &&& r.mask

theorem OpcodeRow.Apart.symm {r q : OpcodeRow} (h : r.Apart q) : q.Apart r := fun hf => (h hf.symm).symm

theorem OpcodeRow.Apart.not_both_select {r q : OpcodeRow} (h : r.Apart q) (hf : r.format = q.format) {v : Nat}
    (hr : r.selects v = true) : q.selects v ≠ true := by
  intro hq
  have bitsr : v &&& r.mask = r.matchBits := eq_of_beq hr
  have bitsq : v &&& q.mask = q.matchBits := eq_of_beq hq
  refine h hf ?_
  rw [← bitsr, ← bitsq, Nat.and_assoc, Nat.and_assoc, Nat.and_comm r.mask]

/-- The rows of each format are apart: a check of the table alone, over no field value. -/
theorem opcodeTable_pairwise_apart : opcodeTable.Pairwise OpcodeRow.Apart := by
  unfold OpcodeRow.Apart
  decide +kernel

/-- At most one row of a format selects a value. -/
theorem eq_of_selects {r q : OpcodeRow} {v : Nat} (hr : r ∈ opcodeTable) (hq : q ∈ opcodeTable)
    (hf : q.format = r.format) (sr : r.selects v = true) (sq : q.selects v = true) : q = r := by
  by_contra hne
  have : Std.Symm OpcodeRow.Apart := ⟨fun _ _ => OpcodeRow.Apart.symm⟩
  exact (opcodeTable_pairwise_apart.forall hq hr hne).not_both_select hf sq sr

open Sys2Proof.Laws.OpcodeRow in
/-- Every well-formed element's word is selected by a row of the element's format and mnemonic. -/
theorem exists_row (i : Instr) : Statement i := by
  cases i
  exacts [stored _, fixed _, dynamic _, btype3 _, cllit _, cl16, cl17, cl18, lit _, eob, len257, len258, len259, len260,
    len261, len262, len263, len264, len265, len266, len267, len268, len269, len270, len271, len272, len273, len274,
    len275, len276, len277, len278, len279, len280, len281, len282, len283, len284, len285, rsvl _, dist0, dist1, dist2,
    dist3, dist4, dist5, dist6, dist7, dist8, dist9, dist10, dist11, dist12, dist13, dist14, dist15, dist16, dist17,
    dist18, dist19, dist20, dist21, dist22, dist23, dist24, dist25, dist26, dist27, dist28, dist29, rsvd _, filterNone,
    filterSub, filterUp, filterAvg, filterPaeth, rsvf _]

/-- Settles O2: the decoder is total on the field, the element's row selects its word, and no other row does. -/
theorem exactlyOneOpcodeRowSelectsEachValue : Obligations.ExactlyOneOpcodeRowSelectsEachValue := by
  intro f v hv
  have hv : v < f.values := by cases f <;> exact hv
  rcases decode_cases f v with ⟨-, i, hi, wf, word⟩ | ⟨hge, -⟩
  · obtain ⟨r, hr, mnemonic, format, selects⟩ := exists_row i wf
    rw [word] at format selects
    exact ⟨i, r, hi, hr, format, mnemonic, selects,
      fun q hq hqf hqs => eq_of_selects hr hq (hqf.trans format.symm) selects hqs⟩
  · omega

end Sys2Proof

namespace Sys2Proof.Machine

/-! ## The fixed codes (R107) -/

/-- A bit of a number below bit `len` is that bit of the number's low `len` bits. -/
theorem mod_two_pow_bit {k len : Nat} (h : k < len) (code : Nat) :
    code % 2 ^ len / 2 ^ k % 2 = code / 2 ^ k % 2 := by
  rw [← Nat.add_sub_of_le h.le, Nat.pow_add, Nat.mod_mul_right_div_self,
    Nat.mod_mod_of_dvd _ (dvd_pow_self 2 (Nat.sub_ne_zero_of_lt h))]

/-- The first bit of a field is the leading bit of its reversal. -/
theorem rev_bitField_succ {bit : Nat → Nat} {n pos : Nat} (h : bit pos < 2) :
    rev (bitField bit (n + 1) pos) (n + 1) = 2 ^ n * bit pos + rev (bitField bit n (pos + 1)) n := by
  have first : bitField bit (n + 1) pos % 2 = bit pos := by simp only [bitField]; omega
  have rest : bitField bit (n + 1) pos / 2 = bitField bit n (pos + 1) := by simp only [bitField]; omega
  rw [rev, first, rest]

/-- A code stands in the stream most significant bit first, so it is the leading bits of the reversed field. -/
theorem rev_bitField_div {bit : Nat → Nat} {len code pos : Nat} (m : Nat) (hc : code < 2 ^ len)
    (h : ∀ j < len, bit (pos + j) = code / 2 ^ (len - 1 - j) % 2) :
    rev (bitField bit (len + m) pos) (len + m) / 2 ^ m = code := by
  induction len generalizing code pos with
  | zero =>
    have hc : code = 0 := by simpa using hc
    rw [hc, Nat.zero_add, Nat.div_eq_of_lt (rev_lt _ _)]
  | succ len ih =>
    have hlt : code / 2 ^ len < 2 := Nat.div_lt_of_lt_mul (by rwa [Nat.pow_succ] at hc)
    have high : bit pos = code / 2 ^ len := by simpa [Nat.mod_eq_of_lt hlt] using h 0 (by omega)
    have low : rev (bitField bit (len + m) (pos + 1)) (len + m) / 2 ^ m = code % 2 ^ len :=
      ih (Nat.mod_lt _ (Nat.two_pow_pos len)) fun j hj => by
        have hbit := h (j + 1) (by omega)
        rw [show len + 1 - 1 - (j + 1) = len - 1 - j by omega] at hbit
        rw [Nat.add_right_comm, Nat.add_assoc, hbit, mod_two_pow_bit (by omega)]
    calc rev (bitField bit (len + 1 + m) pos) (len + 1 + m) / 2 ^ m
      _ = (2 ^ (len + m) * bit pos + rev (bitField bit (len + m) (pos + 1)) (len + m)) / 2 ^ m := by
        rw [Nat.add_right_comm, rev_bitField_succ (high ▸ hlt)]
      _ = 2 ^ len * bit pos + code % 2 ^ len := by
        rw [Nat.pow_add, Nat.mul_comm (2 ^ len), Nat.mul_assoc, Nat.mul_add_div (Nat.two_pow_pos m), low]
      _ = code := by rw [high, Nat.div_add_mod]

/-- Where the stream spells a code, it is the leading bits of the reversed look-ahead, whatever follows. -/
theorem IUnit.spells.rev_peekBits_div {u : IUnit} {len code : Nat} (h : u.spells len code) (hc : code < 2 ^ len)
    (m : Nat) : rev (peekBits (len + m) u) (len + m) / 2 ^ m = code := by
  obtain ⟨inside, bits⟩ := h
  refine rev_bitField_div m hc fun j hj => ?_
  rw [IUnit.paddedBit, if_pos (by omega), bits j hj]

/-- A decode that finds an entry whose code lies in the buffer (R160, R161, R162). -/
theorem decodeSym_of_lookup {t : Table} {u : IUnit} {e : Entry} (hl : t.lookup (peekBits t.maxbits u) = some e)
    (hfit : u.bitpos + e.len ≤ 8 * u.inLen) (hs : u.strictPeek = false ∨ t.maxbits ≤ u.avail) :
    decodeSym t u = .ok e.sym (u.seek (u.bitpos + e.len)) := by
  have lenient : ¬(u.strictPeek = true ∧ u.avail < t.maxbits) := by
    rintro ⟨strict, short⟩
    rcases hs with off | enough
    · cases strict.symm.trans off
    · omega
  have present : ¬(u.avail < t.maxbits ∧ u.avail < e.len) := by
    unfold IUnit.avail
    omega
  simp [decodeSym, lenient, hl, present, skipBits_of_le hfit]

theorem fixedLTab_lookup {idx : Nat} (h : idx < 512) : fixedLTab.lookup idx = some (fixedLEntry idx) := by
  simp [Table.lookup, fixedLTab, h]

theorem fixedDTab_lookup {idx : Nat} (h : idx < 32) : fixedDTab.lookup idx = some ⟨rev idx 5, 5⟩ := by
  simp [Table.lookup, fixedDTab, h]

/-- `code`, of `len` bits, is the fixed code of the literal/length symbol `sym`: the four ranges of R107. -/
def FixedCode (sym len code : Nat) : Prop :=
  sym ≤ 143 ∧ len = 8 ∧ code = 48 + sym ∨
    144 ≤ sym ∧ sym ≤ 255 ∧ len = 9 ∧ code = 400 + (sym - 144) ∨
    256 ≤ sym ∧ sym ≤ 279 ∧ len = 7 ∧ code = sym - 256 ∨
    280 ≤ sym ∧ sym ≤ 287 ∧ len = 8 ∧ code = 192 + (sym - 280)

theorem FixedCode.bounds {sym len code : Nat} (h : FixedCode sym len code) : len ≤ 9 ∧ code < 2 ^ len := by
  rcases h with ⟨_, rfl, _⟩ | ⟨_, _, rfl, _⟩ | ⟨_, _, rfl, _⟩ | ⟨_, _, rfl, _⟩ <;> omega

/-- The closed form of `FIXED_LTAB` (R165) gives a symbol at the indices whose reversal begins with its code. -/
theorem FixedCode.fixedLEntry_eq {sym len code idx : Nat} (h : FixedCode sym len code)
    (hr : rev idx 9 / 2 ^ (9 - len) = code) : fixedLEntry idx = ⟨sym, len⟩ := by
  unfold fixedLEntry
  generalize rev idx 9 = r at hr
  dsimp only
  rcases h with ⟨_, rfl, _⟩ | ⟨_, _, rfl, _⟩ | ⟨_, _, rfl, _⟩ | ⟨_, _, rfl, _⟩
  · rw [if_neg (by omega), if_pos (by omega), show r / 2 - 48 = sym by omega]
  · rw [if_neg (by omega), if_neg (by omega), if_neg (by omega), show 144 + (r - 400) = sym by omega]
  · rw [if_pos (by omega), show 256 + r / 4 = sym by omega]
  · rw [if_neg (by omega), if_neg (by omega), if_pos (by omega), show 280 + (r / 2 - 192) = sym by omega]

/-- Settles O4: the look-ahead reversed begins with the code, and there the closed forms of R165 hold its symbol. -/
theorem fixedCodesDecodeToTheirSymbols : Obligations.FixedCodesDecodeToTheirSymbols := by
  refine ⟨fun u sym len code (hcode : FixedCode sym len code) hsp hs => ?_, fun u d hd hsp => ?_⟩
  · obtain ⟨hlen, hlt⟩ := hcode.bounds
    have leading := hsp.rev_peekBits_div hlt (9 - len)
    rw [Nat.add_sub_of_le hlen] at leading
    have hl := (fixedLTab_lookup (peekBits_lt 9 u)).trans (congrArg some (hcode.fixedLEntry_eq leading))
    exact decodeSym_of_lookup hl hsp.1 hs
  · have whole : rev (peekBits 5 u) 5 = d := by simpa using hsp.rev_peekBits_div (m := 0) (by omega)
    have hl := fixedDTab_lookup (peekBits_lt 5 u)
    rw [whole] at hl
    have inside : u.bitpos + 5 ≤ 8 * u.inLen := hsp.1
    exact decodeSym_of_lookup hl inside (.inr (Nat.le_sub_of_add_le' inside))

end Sys2Proof.Machine
end

/-! # The Bit Reader

O5, O6, O7 and O8: the number a field of stream bits stands for, the two outcomes of a `READ`, and the laws of R136. -/

section
namespace Sys2Proof.Machine

/-! ## Fields of stream bits (R61) -/

/-- A field is the sum of its bits, the first one of weight 1 (R61). -/
theorem bitField_eq_sum (bit : Nat → Nat) (n pos : Nat) :
    bitField bit n pos = ∑ i ∈ Finset.range n, bit (pos + i) * 2 ^ i := by
  induction n with
  | zero => rfl
  | succ n ih =>
    have last : bitField bit 1 (pos + n) = bit (pos + n) := rfl
    rw [bitField_add, ih, last, Finset.sum_range_succ, Nat.mul_comm]

/-- The low bits of a field are the shorter field at the same position. -/
theorem bitField_mod {bit : Nat → Nat} (h : ∀ k, bit k < 2) {m n : Nat} (hmn : m ≤ n) (pos : Nat) :
    bitField bit n pos % 2 ^ m = bitField bit m pos := by
  obtain ⟨k, rfl⟩ := Nat.exists_eq_add_of_le hmn
  rw [bitField_add, Nat.add_mul_mod_self_left, Nat.mod_eq_of_lt (bitField_lt h m pos)]

/-- Inside the buffer no bit of a look-ahead is padding (R131). -/
theorem peekBits_of_le {n : Nat} {u : IUnit} (h : u.bitpos + n ≤ 8 * u.inLen) :
    peekBits n u = bitField u.inBit n u.bitpos :=
  bitField_congr fun i hi => if_pos (by omega)

/-! ## The two outcomes of `READ` (R130) -/

/-- `READ(n)` completes where its bits are in the buffer. -/
theorem readBits_of_le {n : Nat} {u : IUnit} (hn : 1 ≤ n ∧ n ≤ 32) (h : u.bitpos + n ≤ 8 * u.inLen) :
    readBits n u = .ok (bitField u.inBit n u.bitpos) (u.seek (u.bitpos + n)) := by
  rcases readBits_cases (u := u) hn with ⟨_, completes⟩ | ⟨short, _⟩
  · exact completes
  · omega

/-- `READ(n)` raises where the buffer ends before its last bit. -/
theorem readBits_of_lt {n : Nat} {u : IUnit} (hn : 1 ≤ n ∧ n ≤ 32) (h : 8 * u.inLen < u.bitpos + n) :
    readBits n u = .raised (u.raise .truncated) := by
  rcases readBits_cases (u := u) hn with ⟨inside, _⟩ | ⟨_, raises⟩
  · omega
  · exact raises

/-- Settles O5: the two outcomes of `READ`, the field written as the sum of its bits. -/
theorem readReturnsTheNextBits : Obligations.ReadReturnsTheNextBits := by
  intro u n h1 h32
  split
  next short => exact readBits_of_lt ⟨h1, h32⟩ short
  next inside =>
    rw [← bitField_eq_sum]
    exact readBits_of_le ⟨h1, h32⟩ (Nat.le_of_not_lt inside)

/-- Settles O6: a look-ahead is a field of padded bits. -/
theorem peekPadsWithZeros : Obligations.PeekPadsWithZeros :=
  fun u n => bitField_eq_sum u.paddedBit n u.bitpos

/-! ## `SKIP`, `UNREAD`, `ALIGN` and `READ_EXTRA` (R132 to R135) -/

/-- `UNREAD(n)` behind a `READ(m)` puts back the last `n` of its bits (R133). -/
theorem unreadBits_seek {m n : Nat} (u : IUnit) (hnm : n ≤ m) (hn : n ≤ 14) :
    unreadBits n (u.seek (u.bitpos + m)) = .ok () (u.seek (u.bitpos + m - n)) :=
  unreadBits_of_le hn (by rw [IUnit.seek_bitpos]; omega)

/-- `ALIGN()` stays in a buffer, which ends at a byte boundary (R134). -/
theorem alignCursor_le {u : IUnit} (h : u.bitpos ≤ 8 * u.inLen) : (alignCursor u).bitpos ≤ 8 * u.inLen := by
  obtain ⟨_, boundary, _, within⟩ := alignCursor_spec u
  omega

/-- `ALIGN()` at a byte boundary does nothing (R134). -/
theorem alignCursor_of_aligned {u : IUnit} (h : u.bitpos % 8 = 0) : (alignCursor u).bitpos = u.bitpos := by
  obtain ⟨_, boundary, forward, within⟩ := alignCursor_spec u
  omega

/-- `READ_EXTRA(n)` of some bits is a `READ(n)` (R135). -/
theorem readExtra_of_pos {n : Nat} (h : 1 ≤ n) (u : IUnit) : readExtra n u = readBits n u :=
  if_neg (Nat.one_le_iff_ne_zero.1 h)

/-- Settles O7, one lemma per operation. -/
theorem skipUnreadAlignAndReadExtra : Obligations.SkipUnreadAlignAndReadExtra := by
  refine ⟨fun u n h => skipBits_of_le h, fun u w m n v hread hnm hn => ?_,
    fun u => ⟨rfl, alignCursor_le, alignCursor_of_aligned⟩, fun u => ⟨rfl, fun n h => readExtra_of_pos h u⟩⟩
  obtain ⟨_, _, _, _, _, rfl⟩ := readBits_eq_ok hread
  exact unreadBits_seek u hnm hn

/-! ## The laws of R136 -/

/-- R136 (a): a field splits into two. -/
theorem readBits_split {u : IUnit} {a b : Nat} (ha : 1 ≤ a) (hb : 1 ≤ b) (hab : a + b ≤ 32)
    (h : u.bitpos + a + b ≤ 8 * u.inLen) :
    ∃ x y, readBits a u = .ok x (u.seek (u.bitpos + a)) ∧
      readBits b (u.seek (u.bitpos + a)) = .ok y (u.seek (u.bitpos + a + b)) ∧
      readBits (a + b) u = .ok (x + 2 ^ a * y) (u.seek (u.bitpos + a + b)) := by
  refine ⟨bitField u.inBit a u.bitpos, bitField u.inBit b (u.bitpos + a), readBits_of_le (by omega) (by omega),
    readBits_of_le (u := u.seek (u.bitpos + a)) (by omega) h, ?_⟩
  rw [readBits_of_le (by omega) (by omega), bitField_add, Nat.add_assoc]

/-- R136 (b): a look-ahead inside the buffer sees what a read returns. -/
theorem readBits_eq_peekBits {u : IUnit} {n : Nat} (hn : 1 ≤ n ∧ n ≤ 32) (h : u.bitpos + n ≤ 8 * u.inLen) :
    readBits n u = .ok (peekBits n u) (u.seek (u.bitpos + n)) := by
  rw [readBits_of_le hn h, peekBits_of_le h]

/-- R136 (b): to read `n` bits and put back all but the first `len` of them is to skip `len`. -/
theorem unreadBits_eq_skipBits {u : IUnit} {n len : Nat} (h : u.bitpos + n ≤ 8 * u.inLen) (hlen : len ≤ n)
    (hback : n - len ≤ 14) : unreadBits (n - len) (u.seek (u.bitpos + n)) = skipBits len u := by
  have kept : u.bitpos + n - (n - len) = u.bitpos + len := by omega
  rw [unreadBits_seek u (Nat.sub_le n len) hback, kept, skipBits_of_le (by omega)]

/-- R136 (e): a read raises exactly when it asks for more bits than there are. -/
theorem readBits_raises_iff {u : IUnit} {n : Nat} (hn : 1 ≤ n ∧ n ≤ 32) (hu : u.bitpos ≤ 8 * u.inLen) :
    (∃ w, readBits n u = .raised w) ↔ u.avail < n := by
  have avail : u.avail < n ↔ 8 * u.inLen < u.bitpos + n := by
    unfold IUnit.avail
    omega
  rw [avail]
  constructor
  · rintro ⟨w, raises⟩
    exact (readBits_eq_raised raises).1
  · exact fun short => ⟨_, readBits_of_lt hn short⟩

/-- Settles O8: the laws (a), (b), (c) and (e) of R136, a shorter look-ahead being the shorter field of padded bits. -/
theorem bitReaderLaws : Obligations.BitReaderLaws :=
  ⟨fun _ _ _ ha hb hab h => readBits_split ha hb hab h,
    fun _ _ _ h1 h32 h hlen hback => ⟨readBits_eq_peekBits ⟨h1, h32⟩ h, unreadBits_eq_skipBits h hlen hback⟩,
    fun u _ _ hmn => (bitField_mod u.paddedBit_lt hmn u.bitpos).symm,
    fun _ _ h1 h32 hu => readBits_raises_iff ⟨h1, h32⟩ hu⟩

end Sys2Proof.Machine
end

/-! # Huffman tables

O9 to O14: the canonical codes of `ASSIGN`, the sum that `BUILD` checks, and what `DECODE` finds in a built table. A
code is read in the reversed index, whose leading bits it is; no canonical code begins with another one, so that at most
one of them leads an index. -/

section
namespace Sys2Proof.Machine

/-! ## Reversal (R9) -/

/-- A reversal is the field whose bits are the number's, the most significant one first. -/
theorem rev_eq_bitField (c n : Nat) : rev c n = bitField (fun i => c / 2 ^ (n - 1 - i) % 2) n 0 := by
  induction n generalizing c with
  | zero => rfl
  | succ n ih =>
    have top : bitField (fun i => c / 2 ^ (n + 1 - 1 - i) % 2) 1 (0 + n) = c % 2 := by simp [bitField]
    have low : bitField (fun i => c / 2 / 2 ^ (n - 1 - i) % 2) n 0 =
        bitField (fun i => c / 2 ^ (n + 1 - 1 - i) % 2) n 0 :=
      bitField_congr fun i hi => by
        rw [Nat.div_div_eq_div_mul, ← Nat.pow_succ', show (n - 1 - (0 + i)).succ = n + 1 - 1 - (0 + i) by omega]
    rw [bitField_add, top, ← low, ← ih (c / 2)]
    exact Nat.add_comm _ _

/-- Bit `i` of a reversal is bit `n - 1 - i` of the number. -/
theorem rev_bit {i n : Nat} (h : i < n) (c : Nat) : rev c n / 2 ^ i % 2 = c / 2 ^ (n - 1 - i) % 2 := by
  rw [rev_eq_bitField, bitField_bit (fun _ => Nat.mod_lt _ (by decide)) h, Nat.zero_add]

theorem rev_rev {c n : Nat} (h : c < 2 ^ n) : rev (rev c n) n = c := by
  have := rev_bitField_div (bit := fun i => c / 2 ^ (n - 1 - i) % 2) (pos := 0) 0 h fun j _ => by rw [Nat.zero_add]
  rwa [Nat.add_zero, ← rev_eq_bitField, Nat.pow_zero, Nat.div_one] at this

/-- The leading bits of a reversal are the low bits reversed. -/
theorem rev_div (j len k : Nat) : rev j (len + k) / 2 ^ k = rev (j % 2 ^ len) len := by
  induction len generalizing j with
  | zero => rw [Nat.zero_add, Nat.div_eq_of_lt (rev_lt _ _), rev]
  | succ len ih =>
    have first : j % 2 ^ (len + 1) % 2 = j % 2 := Nat.mod_mod_of_dvd _ (Dvd.intro_left _ rfl)
    have rest : j % 2 ^ (len + 1) / 2 = j / 2 % 2 ^ len := by
      rw [Nat.pow_succ', Nat.mod_mul_right_div_self]
    rw [Nat.add_right_comm, rev, rev, first, rest, ← ih, Nat.pow_add, Nat.mul_comm (2 ^ len), Nat.mul_assoc,
      Nat.mul_add_div (Nat.two_pow_pos k)]

/-- The low bits of an index are a reversed code exactly when the code leads the reversed index (R154). -/
theorem mod_eq_rev_iff {j len m code : Nat} (hlen : len ≤ m) (hc : code < 2 ^ len) :
    j % 2 ^ len = rev code len ↔ rev j m / 2 ^ (m - len) = code := by
  have leading : rev j m / 2 ^ (m - len) = rev (j % 2 ^ len) len := by
    simpa [Nat.add_sub_of_le hlen] using rev_div j len (m - len)
  rw [leading]
  constructor
  · intro h
    rw [h, rev_rev hc]
  · rintro rfl
    rw [rev_rev (Nat.mod_lt _ (Nat.two_pow_pos len))]

/-! ## `ASSIGN` (R151, R152) -/

theorem maxBits_eq_foldr (lens : List Nat) : maxBits lens = lens.foldr max 0 := List.foldl_eq_foldr

/-- A symbol takes `next` of its length and raises it by one. -/
theorem getD_set_succ {next : List Nat} {l : Nat} (hl : l < next.length) (b : Nat) :
    (next.set l (next.getD l 0 + 1)).getD b 0 = next.getD b 0 + if l = b then 1 else 0 := by
  by_cases h : l = b
  · subst h
    simp [hl]
  · simp [h]

/-- The codes of the symbol loop, symbol `s + i` being the `i`-th: `next` of its length plus the number of symbols of
that length the loop has passed. -/
theorem mem_assignFrom_iff {next lens : List Nat} (s : Nat) (c : CodeWord) (hn : ∀ l ∈ lens, l < next.length) :
    c ∈ assignFrom next s lens ↔ ∃ i, c.sym = s + i ∧ lens[i]? = some c.len ∧ c.len ≠ 0 ∧
      c.code = next.getD c.len 0 + (lens.take i).count c.len := by
  induction lens generalizing next s with
  | nil => simp [assignFrom]
  | cons l ls ih =>
    obtain ⟨hl, hls⟩ := List.forall_mem_cons.1 hn
    rw [assignFrom, ← Nat.or_exists_add_one]
    simp only [List.take_succ_cons, List.getElem?_cons_succ, List.count_cons]
    split
    next unused =>
      rw [ih _ hls, or_iff_right (by grind)]
      exact exists_congr fun i => by grind
    next used =>
      rw [List.mem_cons, ih _ (by simpa using hls)]
      simp only [getD_set_succ hl]
      refine or_congr ?_ (exists_congr fun i => by grind)
      obtain ⟨sym, len, code⟩ := c
      grind

/-- R152: the code words of `ASSIGN`. -/
theorem mem_assign_iff {lens : List Nat} {c : CodeWord} :
    c ∈ assign lens ↔
      lens[c.sym]? = some c.len ∧ c.len ≠ 0 ∧ c.code = firstCode lens c.len + (lens.take c.sym).count c.len := by
  have inside : ∀ l ∈ lens, l < ((List.range (maxBits lens + 1)).map (firstCode lens)).length := fun l hl => by
    simpa using Nat.lt_succ_of_le (le_maxBits hl)
  rw [assign, mem_assignFrom_iff 0 c inside]
  have next : lens[c.sym]? = some c.len →
      ((List.range (maxBits lens + 1)).map (firstCode lens)).getD c.len 0 = firstCode lens c.len := fun hc => by
    simp [Nat.lt_succ_of_le (le_maxBits (List.mem_of_getElem? hc))]
  simp only [Nat.zero_add, exists_eq_left']
  exact and_congr_right fun hc => by rw [next hc]

/-- Settles O9: the recurrence is the definition of `firstCode`, and the codes are those of the symbol loop. -/
theorem canonicalCodeAssignment : Obligations.CanonicalCodeAssignment :=
  fun _ => ⟨⟨rfl, fun _ => rfl⟩, fun _ => mem_assign_iff⟩

/-! ## `CHECK_SUBSCRIPTION` (R153) -/

theorem lenCount_of_pos {b : Nat} (h : b ≠ 0) (lens : List Nat) : lenCount lens b = lens.count b := if_neg h

theorem lenCount_eq_count_filter (lens : List Nat) (b : Nat) : lenCount lens b = (lens.filter (· ≠ 0)).count b := by
  by_cases h : b = 0
  · subst h
    exact (List.count_eq_zero.2 (by simp)).symm
  · rw [lenCount_of_pos h, List.count_filter (by simpa using h)]

/-- The codes up to a length, counted as codes of that length. -/
theorem firstCode_add_lenCount (lens : List Nat) (n : Nat) :
    firstCode lens n + lenCount lens n = ∑ b ∈ Finset.range (n + 1), lenCount lens b * 2 ^ (n - b) := by
  induction n with
  | zero => simp [firstCode]
  | succ n ih =>
    have longer : ∀ b ∈ Finset.range (n + 1), lenCount lens b * 2 ^ (n + 1 - b) = lenCount lens b * 2 ^ (n - b) * 2 :=
      fun b hb => by
        rw [Nat.mul_assoc, ← Nat.pow_succ, ← Nat.succ_sub (Nat.le_of_lt_succ (Finset.mem_range.1 hb))]
    rw [Finset.sum_range_succ, Finset.sum_congr rfl longer, ← Finset.sum_mul, ← ih, firstCode, Nat.sub_self,
      Nat.pow_zero, Nat.mul_one]

/-- `K` counts all codes as codes of `maxbits` bits. -/
theorem kraft_eq_firstCode (lens : List Nat) :
    kraft lens = firstCode lens (maxBits lens) + lenCount lens (maxBits lens) := by
  rw [firstCode_add_lenCount]
  rfl

/-- `K` is the sum over the used symbols. -/
theorem kraft_eq_sum (lens : List Nat) :
    kraft lens = ((lens.filter (· ≠ 0)).map fun l => 2 ^ (maxBits lens - l)).sum := by
  have used : (lens.filter (· ≠ 0)).toFinset ⊆ Finset.range (maxBits lens + 1) := fun l hl => by
    simp only [List.mem_toFinset, List.mem_filter] at hl
    exact Finset.mem_range.2 (Nat.lt_succ_of_le (le_maxBits hl.1))
  calc kraft lens
    _ = ∑ b ∈ Finset.range (maxBits lens + 1), (lens.filter (· ≠ 0)).count b * 2 ^ (maxBits lens - b) := by
      simp only [← lenCount_eq_count_filter]
      rfl
    _ = ∑ b ∈ (lens.filter (· ≠ 0)).toFinset, (lens.filter (· ≠ 0)).count b * 2 ^ (maxBits lens - b) :=
      (Finset.sum_subset used fun b _ hb => by
        rw [List.count_eq_zero_of_not_mem (fun h => hb (List.mem_toFinset.2 h)), Nat.zero_mul]).symm
    _ = _ := by simp only [Finset.sum_list_map_count, smul_eq_mul]

/-- Settles O10: the sum over the used symbols is the `K` that `BUILD` checks. -/
theorem buildRefusesOversubscribedLengths : Obligations.BuildRefusesOversubscribedLengths := by
  intro lens u
  simp only [← maxBits_eq_foldr, ← kraft_eq_sum]
  rcases build_cases lens with ⟨fits, built⟩ | ⟨excess, refused⟩
  · rw [if_neg (Nat.not_lt.2 fits), buildTable, built]
    exact ⟨_, rfl, rfl, by simp [fillTable]⟩
  · rw [if_pos excess, buildTable, refused]

/-! ## No canonical code begins with another one (R153, R163) -/

theorem len_le_maxBits {lens : List Nat} {c : CodeWord} (hc : c ∈ assign lens) : c.len ≤ maxBits lens := by
  obtain ⟨-, -, hle, -⟩ := mem_assign hc
  exact hle

/-- An occurrence is counted from the next place on. -/
theorem count_take_lt {xs : List Nat} {a i j : Nat} (h : xs[i]? = some a) (hij : i < j) :
    (xs.take i).count a < (xs.take j).count a := by
  calc (xs.take i).count a
    _ < (xs.take (i + 1)).count a := by simp [List.take_add_one, h]
    _ ≤ (xs.take j).count a := (List.take_sublist_take_left hij).count_le a

/-- The codes of a length lie above all extensions of shorter codes. -/
theorem firstCode_ge {lens : List Nat} {a b : Nat} (h : a < b) :
    (firstCode lens a + lenCount lens a) * 2 ^ (b - a) ≤ firstCode lens b := by
  induction b, h using Nat.le_induction with
  | base => simp [firstCode]
  | succ b hab ih =>
    rw [Nat.succ_sub (Nat.le_of_succ_le hab), Nat.pow_succ, ← Nat.mul_assoc, firstCode]
    exact Nat.mul_le_mul_right 2 (ih.trans (Nat.le_add_right _ _))

/-- The codes of a length are consecutive from its first code on. -/
theorem code_bounds {lens : List Nat} {c : CodeWord} (hc : c ∈ assign lens) :
    firstCode lens c.len ≤ c.code ∧ c.code < firstCode lens c.len + lenCount lens c.len := by
  obtain ⟨hlen, used, hcode⟩ := mem_assign_iff.1 hc
  have bound : c.sym < lens.length := (List.getElem?_eq_some_iff.1 hlen).1
  have earlier := count_take_lt hlen bound
  rw [List.take_length] at earlier
  rw [lenCount_of_pos used]
  omega

/-- A code that is not over-subscribed fits its length. -/
theorem code_lt {lens : List Nat} {c : CodeWord} (hk : kraft lens ≤ 2 ^ maxBits lens) (hc : c ∈ assign lens) :
    c.code < 2 ^ c.len := by
  obtain ⟨-, below⟩ := code_bounds hc
  have hle := len_le_maxBits hc
  refine below.trans_le (Nat.le_of_mul_le_mul_right ?_ (Nat.two_pow_pos (maxBits lens - c.len)))
  rw [← Nat.pow_add, Nat.add_sub_of_le hle]
  refine le_trans ?_ (kraft_eq_firstCode lens ▸ hk)
  rcases hle.eq_or_lt with longest | shorter
  · rw [← longest, Nat.sub_self, Nat.pow_zero, Nat.mul_one]
  · exact (firstCode_ge shorter).trans (Nat.le_add_right _ _)

/-- A canonical code that begins with a canonical code is that code. -/
theorem eq_of_code_extends {lens : List Nat} {c d : CodeWord} (hc : c ∈ assign lens) (hd : d ∈ assign lens)
    (hle : c.len ≤ d.len) (h : d.code / 2 ^ (d.len - c.len) = c.code) : c = d := by
  rcases hle.eq_or_lt with same | shorter
  · obtain ⟨clen, -, ccode⟩ := mem_assign_iff.1 hc
    obtain ⟨dlen, -, dcode⟩ := mem_assign_iff.1 hd
    rw [same, Nat.sub_self, Nat.pow_zero, Nat.div_one] at h
    rw [same] at clen ccode
    have sym : c.sym = d.sym := by
      rcases Nat.lt_trichotomy c.sym d.sym with before | equal | after
      · have := count_take_lt clen before
        omega
      · exact equal
      · have := count_take_lt dlen after
        omega
    calc c = ⟨c.sym, c.len, c.code⟩ := rfl
      _ = d := by rw [sym, same, ← h]
  · have above : firstCode lens c.len + lenCount lens c.len ≤ d.code / 2 ^ (d.len - c.len) :=
      (Nat.le_div_iff_mul_le (Nat.two_pow_pos _)).2 ((firstCode_ge shorter).trans (code_bounds hd).1)
    have := (code_bounds hc).2
    omega

/-! ## The entries of a built table (R154) -/

/-- The code is the leading bits of the `m`-bit index `j` reversed. -/
def CodeWord.Leads (m j : Nat) (c : CodeWord) : Prop := rev j m / 2 ^ (m - c.len) = c.code

/-- At most one canonical code leads an index. -/
theorem CodeWord.Leads.unique {lens : List Nat} {j : Nat} {c d : CodeWord} (hc : c ∈ assign lens)
    (hd : d ∈ assign lens) (hcj : c.Leads (maxBits lens) j) (hdj : d.Leads (maxBits lens) j) : c = d := by
  wlog hle : c.len ≤ d.len generalizing c d
  · exact (this hd hc hdj hcj (Nat.le_of_not_le hle)).symm
  have hlen := len_le_maxBits hd
  refine eq_of_code_extends hc hd hle ?_
  rw [← hdj, ← hcj, Nat.div_div_eq_div_mul, ← Nat.pow_add]
  congr 2
  omega

/-- Everything an entry of a built table can hold: the symbol whose code leads the index, or nothing where none does. -/
theorem entryAt_cases {lens : List Nat} (hk : kraft lens ≤ 2 ^ maxBits lens) (j : Nat) :
    (∃ c ∈ assign lens, c.Leads (maxBits lens) j ∧ entryAt (assign lens) j = some ⟨c.sym, c.len⟩) ∨
    (∀ c ∈ assign lens, ¬c.Leads (maxBits lens) j) ∧ entryAt (assign lens) j = none := by
  have leads : ∀ c ∈ assign lens, (j % 2 ^ c.len == rev c.code c.len) = true ↔ c.Leads (maxBits lens) j :=
      fun c hc => by
    rw [beq_iff_eq, mod_eq_rev_iff (len_le_maxBits hc) (code_lt hk hc), CodeWord.Leads]
  unfold entryAt
  cases found : (assign lens).find? fun c => j % 2 ^ c.len == rev c.code c.len with
  | some c =>
    have hc := List.mem_of_find?_eq_some found
    have low := List.find?_some found
    exact .inl ⟨c, hc, (leads c hc).1 low, rfl⟩
  | none => exact .inr ⟨fun c hc h => List.find?_eq_none.1 found c hc ((leads c hc).2 h), rfl⟩

/-- The entry at an index that a code leads. -/
theorem entryAt_of_leads {lens : List Nat} {j : Nat} {c : CodeWord} (hk : kraft lens ≤ 2 ^ maxBits lens)
    (hc : c ∈ assign lens) (h : c.Leads (maxBits lens) j) : entryAt (assign lens) j = some ⟨c.sym, c.len⟩ := by
  rcases entryAt_cases hk j with ⟨d, hd, hdj, found⟩ | ⟨none, -⟩
  · rwa [CodeWord.Leads.unique hc hd h hdj]
  · exact absurd h (none c hc)

/-- What `BUILD` gives where it does not raise. -/
theorem build_of_le {lens : List Nat} (hk : kraft lens ≤ 2 ^ maxBits lens) :
    build lens = some ⟨maxBits lens, fillTable (assign lens) (maxBits lens)⟩ := if_neg (Nat.not_lt.2 hk)

/-- A built table, entry by entry. -/
theorem build_eq_some {lens : List Nat} {t : Table} (h : build lens = some t) :
    kraft lens ≤ 2 ^ maxBits lens ∧ t.maxbits = maxBits lens ∧
      ∀ j < 2 ^ maxBits lens, t.lookup j = entryAt (assign lens) j := by
  rcases build_cases lens with ⟨hk, built⟩ | ⟨-, refused⟩
  · cases h.symm.trans built
    exact ⟨hk, rfl, fun j hj => by simp [Table.lookup, fillTable, hj]⟩
  · cases h.symm.trans refused

/-! ## `DECODE` without the table (R163) -/

/-- The stream spells a code exactly when the code is in the buffer and leads the look-ahead. -/
theorem IUnit.spells_iff {u : IUnit} {m : Nat} {c : CodeWord} (hlen : c.len ≤ m) (hc : c.code < 2 ^ c.len) :
    u.spells c.len c.code ↔ u.bitpos + c.len ≤ 8 * u.inLen ∧ c.Leads m (peekBits m u) := by
  constructor
  · intro h
    refine ⟨h.1, ?_⟩
    have := h.rev_peekBits_div hc (m - c.len)
    rwa [Nat.add_sub_of_le hlen] at this
  · rintro ⟨inside, leads⟩
    refine ⟨inside, fun i hi => ?_⟩
    have low : peekBits m u % 2 ^ c.len = bitField u.paddedBit c.len u.bitpos := bitField_mod u.paddedBit_lt hlen _
    rw [CodeWord.Leads, ← mod_eq_rev_iff hlen hc, low] at leads
    calc u.inBit (u.bitpos + i)
      _ = u.paddedBit (u.bitpos + i) := (if_pos (by omega)).symm
      _ = rev c.code c.len / 2 ^ i % 2 := by rw [← leads, bitField_bit u.paddedBit_lt hi]
      _ = c.code / 2 ^ (c.len - 1 - i) % 2 := rev_bit hi _

/-- Under `STRICT_PEEK` a look-ahead past the end is an error at once (R162). -/
theorem decodeSym_strict {t : Table} {u : IUnit} (h : u.strictPeek = true ∧ u.avail < t.maxbits) :
    decodeSym t u = .raised (u.raise .truncated) := if_pos h

/-- Settles O11: a code that is spelled leads the look-ahead, and there the table has its symbol; an entry found
otherwise is that of a code which ends beyond the buffer. -/
theorem decodeReadsTheCanonicalCode : Obligations.DecodeReadsTheCanonicalCode := by
  intro lens t u hb hu
  obtain ⟨hk, hm, lookup⟩ := build_eq_some hb
  have entry : t.lookup (peekBits t.maxbits u) = entryAt (assign lens) (peekBits (maxBits lens) u) := by
    rw [hm, lookup _ (peekBits_lt _ u)]
  have spells : ∀ c ∈ assign lens,
      u.spells c.len c.code ↔ u.bitpos + c.len ≤ 8 * u.inLen ∧ c.Leads (maxBits lens) (peekBits (maxBits lens) u) :=
    fun c hc => IUnit.spells_iff (len_le_maxBits hc) (code_lt hk hc)
  split
  next strict => exact decodeSym_strict strict
  next lenient =>
    refine ⟨fun c hc h => ?_, fun none => ?_⟩
    · obtain ⟨inside, leads⟩ := (spells c hc).1 h
      refine decodeSym_of_lookup (entry.trans (entryAt_of_leads hk hc leads)) inside ?_
      simpa [or_iff_not_imp_left] using lenient
    · have wf : t.wf (maxBits lens) lens.length := build_wf hb (fun _ => le_maxBits) (Nat.le_succ _)
      rcases decodeSym_cases wf hu with ⟨e, found, inside, -⟩ | ⟨short, truncated⟩ | ⟨enough, -, huffman⟩
      · rcases entryAt_cases hk (peekBits (maxBits lens) u) with ⟨c, hc, leads, hit⟩ | ⟨-, miss⟩
        · cases (entry.symm.trans found).symm.trans hit
          exact absurd ((spells c hc).2 ⟨inside, leads⟩) (none c hc)
        · cases (entry.symm.trans found).symm.trans miss
      · rw [if_pos short, truncated]
      · rw [if_neg (Nat.not_lt.2 enough), huffman]

/-! ## The empty and the single code (R156, R157) -/

theorem rev_zero (n : Nat) : rev 0 n = 0 := by
  induction n with
  | zero => rfl
  | succ n ih => simp [rev, ih]

/-- The symbol loop passes over unused symbols. -/
theorem assignFrom_replicate_zero (next : List Nat) (s n : Nat) (lens : List Nat) :
    assignFrom next s (List.replicate n 0 ++ lens) = assignFrom next (s + n) lens := by
  induction n generalizing s with
  | zero => rfl
  | succ n ih =>
    rw [List.replicate_succ, List.cons_append, assignFrom, if_pos rfl, ih, Nat.add_right_comm, Nat.add_assoc]

theorem assignFrom_unused (next : List Nat) (s n : Nat) : assignFrom next s (List.replicate n 0) = [] := by
  simpa [assignFrom] using assignFrom_replicate_zero next s n []

theorem assignFrom_single (next : List Nat) (m n : Nat) {l : Nat} (hl : 1 ≤ l) :
    assignFrom next 0 (List.replicate m 0 ++ [l] ++ List.replicate n 0) = [⟨m, l, next.getD l 0⟩] := by
  rw [List.append_assoc, assignFrom_replicate_zero, List.singleton_append, assignFrom,
    if_neg (Nat.one_le_iff_ne_zero.1 hl), assignFrom_unused, Nat.zero_add]

/-- No symbol of a shorter length: the codes of a length start at 0. -/
theorem firstCode_eq_zero {lens : List Nat} {b : Nat} (h : ∀ l ∈ lens, l ≠ 0 → b ≤ l) : firstCode lens b = 0 := by
  induction b with
  | zero => rfl
  | succ b ih =>
    have none : lenCount lens b = 0 := by
      by_cases hb : b = 0
      · exact if_pos hb
      · rw [lenCount_of_pos hb, List.count_eq_zero]
        exact fun hmem => Nat.not_succ_le_self b (h b hmem hb)
    rw [firstCode, none, ih fun l hl used => Nat.le_of_succ_le (h l hl used)]

/-- R156: no used symbol. -/
theorem build_unused (n : Nat) : build (List.replicate n 0) = some ⟨0, [none]⟩ := by
  have hm : maxBits (List.replicate n 0) = 0 := Nat.le_zero.1 (maxBits_le fun l hl => (List.eq_of_mem_replicate hl).le)
  have hk : kraft (List.replicate n 0) ≤ 2 ^ maxBits (List.replicate n 0) := by simp [kraft_eq_sum]
  rw [build_of_le hk, hm, assign, assignFrom_unused]
  rfl

/-- A decode of no code fails whatever is left of the stream. -/
theorem decodeSym_empty (u : IUnit) : decodeSym ⟨0, [none]⟩ u = .raised (u.raise .huffman) := by
  simp [decodeSym, Table.lookup, peekBits, bitField]

/-- The table of a single code of zeros holds it in the first entry only. -/
theorem fillTable_zero_code (m l : Nat) :
    fillTable [⟨m, l, 0⟩] l = some ⟨m, l⟩ :: List.replicate (2 ^ l - 1) none := by
  obtain ⟨k, hk⟩ : ∃ k, 2 ^ l = k + 1 := Nat.exists_eq_add_one.2 (Nat.two_pow_pos l)
  have first : entryAt [⟨m, l, 0⟩] 0 = some ⟨m, l⟩ := by simp [entryAt, rev_zero]
  have other : ∀ j < k, entryAt [⟨m, l, 0⟩] (j + 1) = none := fun j hj => by
    have : (j + 1) % 2 ^ l ≠ 0 := by
      rw [hk, Nat.mod_eq_of_lt (by omega)]
      omega
    simp [entryAt, rev_zero, this]
  rw [fillTable, hk, List.range_succ_eq_map, List.map_cons, first, List.map_map, Nat.add_sub_cancel]
  congr 1
  exact List.eq_replicate_iff.2 ⟨by simp, by simpa using other⟩

/-- R157: one used symbol. -/
theorem build_single (m n : Nat) {l : Nat} (hl : 1 ≤ l) :
    build (List.replicate m 0 ++ [l] ++ List.replicate n 0) =
      some ⟨l, some ⟨m, l⟩ :: List.replicate (2 ^ l - 1) none⟩ := by
  have used : ∀ x ∈ List.replicate m 0 ++ [l] ++ List.replicate n 0, x = 0 ∨ x = l := by simp; omega
  generalize hlens : List.replicate m 0 ++ [l] ++ List.replicate n 0 = lens at used
  have hm : maxBits lens = l :=
    (maxBits_le fun x hx => by have := used x hx; omega).antisymm (le_maxBits (by simp [← hlens]))
  have hk : kraft lens ≤ 2 ^ maxBits lens := by
    rw [kraft_eq_sum, hm, ← hlens]
    simp [Nat.one_le_iff_ne_zero.1 hl, Nat.one_le_two_pow]
  have codes : assign lens = [⟨m, l, 0⟩] := by
    have start : firstCode lens l = 0 := firstCode_eq_zero fun x hx h => by have := used x hx; omega
    rw [assign, hm, ← hlens, assignFrom_single _ m n hl, hlens]
    simp [start]
  rw [build_of_le hk, hm, codes, fillTable_zero_code]

/-- Settles O14, one lemma for each kind of table. -/
theorem emptyAndSingleCodes : Obligations.EmptyAndSingleCodes :=
  ⟨build_unused, decodeSym_empty, fun m n _ hl => build_single m n hl⟩

/-! ## The fixed tables (R165) -/

/-- A table is known from the code that leads each of its indices. -/
theorem build_eq_of_leads {lens : List Nat} {m : Nat} {e : Nat → Entry} (hm : maxBits lens = m)
    (hk : kraft lens ≤ 2 ^ m)
    (h : ∀ j < 2 ^ m, ⟨(e j).sym, (e j).len, rev j m / 2 ^ (m - (e j).len)⟩ ∈ assign lens) :
    build lens = some ⟨m, (List.range (2 ^ m)).map fun j => some (e j)⟩ := by
  subst hm
  rw [build_of_le hk, fillTable]
  congr 2
  exact List.map_congr_left fun j hj => entryAt_of_leads hk (h j (List.mem_range.1 hj)) rfl

/-- `FIXL` (R34), symbol by symbol. -/
theorem fixl_getElem? (sym : Nat) :
    fixl[sym]? = if sym < 144 then some 8 else if sym < 256 then some 9 else if sym < 280 then some 7
      else if sym < 288 then some 8 else none := by
  simp only [fixl, List.getElem?_append, List.getElem?_replicate, List.length_append, List.length_replicate]
  grind

/-- How many symbols of each length `FIXL` has before a symbol. -/
theorem count_take_fixl (sym : Nat) :
    (fixl.take sym).count 7 = min (sym - 256) 24 ∧ (fixl.take sym).count 8 = min sym 144 + min (sym - 280) 8 ∧
      (fixl.take sym).count 9 = min (sym - 144) 112 := by
  simp [fixl, List.take_append, List.take_replicate, List.count_replicate, -List.reduceReplicate, Nat.sub_sub]

theorem firstCode_fixl : firstCode fixl 7 = 0 ∧ firstCode fixl 8 = 48 ∧ firstCode fixl 9 = 400 := by decide +kernel

/-- The fixed codes of R107 are the canonical codes of the fixed lengths. -/
theorem FixedCode.mem_assign {sym len code : Nat} (h : FixedCode sym len code) : ⟨sym, len, code⟩ ∈ assign fixl := by
  obtain ⟨first7, first8, first9⟩ := firstCode_fixl
  obtain ⟨count7, count8, count9⟩ := count_take_fixl sym
  rw [mem_assign_iff, fixl_getElem?]
  dsimp only
  rcases h with ⟨_, rfl, hcode⟩ | ⟨_, _, rfl, hcode⟩ | ⟨_, _, rfl, hcode⟩ | ⟨_, _, rfl, hcode⟩
  all_goals exact ⟨by grind, by decide, by omega⟩

/-- Each entry of the closed form holds the fixed code that leads its index. -/
theorem fixedLEntry_fixedCode (j : Nat) :
    FixedCode (fixedLEntry j).sym (fixedLEntry j).len (rev j 9 / 2 ^ (9 - (fixedLEntry j).len)) := by
  have h : rev j 9 < 512 := rev_lt j 9
  unfold fixedLEntry FixedCode
  generalize rev j 9 = r at h
  dsimp only
  split_ifs <;> dsimp only <;> omega

theorem build_fixl : build fixl = some fixedLTab :=
  build_eq_of_leads (e := fixedLEntry) (by decide +kernel) (by decide +kernel) fun j _ =>
    (fixedLEntry_fixedCode j).mem_assign

theorem build_fixd : build fixd = some fixedDTab :=
  build_eq_of_leads (m := 5) (e := fun j => ⟨rev j 5, 5⟩) (by decide) (by decide) fun j _ => by
    have hlt : rev j 5 < 32 := rev_lt j 5
    have start : firstCode fixd 5 = 0 := by decide
    rw [mem_assign_iff]
    simp only [start]
    simp [fixd, List.take_replicate, -List.reduceReplicate, hlt, hlt.le]

/-- Settles O12: the built tables are the fixed tables, which have the closed form. -/
theorem fixedTablesInClosedForm : Obligations.FixedTablesInClosedForm :=
  ⟨⟨_, build_fixl, rfl, by simp [fixedLTab], fun _ h => fixedLTab_lookup h⟩,
    ⟨_, build_fixd, rfl, by simp [fixedDTab], fun _ h => fixedDTab_lookup h⟩⟩

/-! ## The worked examples (R166) -/

/-- Settles O13: three closed computations of the model. -/
theorem buildWorkedExamples : Obligations.BuildWorkedExamples := by
  unfold Obligations.BuildWorkedExamples
  decide

end Sys2Proof.Machine
end

/-! # Block headers, code-length symbols and their fetch

O15 to O21: what a block header and a code-length symbol do, each operation by one lemma per outcome; a header that
fails does so within its own registers. O48 and O49: the step fetches the element of its phase. -/

section
namespace Sys2Proof.Machine

/-! ## O16 and O18: the headers that read nothing more -/

/-- Settles O16: the registers of the header and the fixed tables are all that R192 writes. -/
theorem fixedBlockTakesTheFixedTables : Obligations.FixedBlockTakesTheFixedTables := fun _ _ => rfl

/-- Settles O18: `BFINAL` and `BTYPE` are latched, then the error is recorded (R350). -/
theorem invalidBlockTypeRaises : Obligations.InvalidBlockTypeRaises := fun _ _ => rfl

/-! ## O19, O20 and O21: code-length symbols -/

/-- Settles O19: one length is pushed where there is room for it, and the element ends as R194 says. -/
theorem explicitCodeLength : Obligations.ExplicitCodeLength := by
  intro s len _ room
  change onI s (endCodeLength (pushLens 1 len s.i)) = _
  rw [pushLens_eq room, onI_endCodeLength]

/-- Extra bits and then copies of one length, the form of all repeat symbols (R196-R198), as a step. -/
theorem onI_repeatExtra {base n : Nat} {len : IUnit → Nat} (s : State) (hn : 1 ≤ n ∧ n ≤ 32)
    (hl : ∀ p, len (s.i.seek p) = len s.i) (hfit : s.i.hlit + s.i.hdist ≤ s.i.llen.length) :
    onI s ((basePlusExtra base n s.i).bind fun rep u => repeatLen rep (len u) u) =
      .next { s with i := s.i.repeated base n (len s.i) } := by
  unfold IUnit.repeated
  rcases basePlusExtra_cases (base := base) (n := n) (u := s.i) hn.2 with ⟨inside, e⟩ | ⟨_, short, e⟩ <;> rw [e]
  · rw [if_neg (by omega), Res.bind_ok, hl]
    exact onI_repeatLen s _ hfit
  · rw [if_pos short]
    rfl

/-- Settles O20: the check of `LIDX` comes first, and the cursor does not bear on the previous length. -/
theorem repeatPreviousLength : Obligations.RepeatPreviousLength := by
  intro s hfit
  change onI s (if s.i.lidx = 0 then _ else _) = _
  split
  next => rfl
  next => exact onI_repeatExtra (len := IUnit.prevLen) s (by decide) (fun _ => rfl) hfit

/-- Settles O21: both symbols are extra bits and then copies of zero. -/
theorem repeatZeroLength : Obligations.RepeatZeroLength := fun s hfit =>
  ⟨onI_repeatExtra (len := fun _ => 0) s (by decide) (fun _ => rfl) hfit,
    onI_repeatExtra (len := fun _ => 0) s (by decide) (fun _ => rfl) hfit⟩

/-! ## Headers that fail (R350) -/

/-- `w` differs from `u` at most in the registers, the array and the space that a block header writes. -/
def IUnit.InHeader (u w : IUnit) : Prop :=
  w = { u with
    bitpos := w.bitpos, outlen := w.outlen, slen := w.slen, snlen := w.snlen, hlit := w.hlit, hdist := w.hdist,
    hclen := w.hclen, cllen := w.cllen, out := w.out }

/-- The parts of a header write within the header. -/
theorem IUnit.InHeader.trans {u v w : IUnit} (h : u.InHeader v) (k : v.InHeader w) : u.InHeader w :=
  Eq.trans k (by rw [h])

/-- A header that raises within its own registers has failed as a step. -/
theorem onI_headerFailed {k : ErrKind} {u w : IUnit} {r : Res IUnit Unit} (s : State) (hw : u.out.wf)
    (hr : Res.Extends u r) (raises : r = .raised (w.raise k)) (kept : u.InHeader w) :
    ∃ t, onI s r = .next { s with i := t } ∧ IUnit.HeaderFailed k u t := by
  have frame : u.Extends (w.raise k) := hr.2 _ raises
  refine ⟨w.raise k, by rw [raises]; rfl, ?_, frame.bitpos, frame.outlen, frame.out_read hw⟩
  rw [kept]
  rfl

/-! ## O15: stored blocks -/

/-- The end of a block, written out (R183). -/
theorem endBlock_eq (u : IUnit) : endBlock u = u.blockEnded := by
  unfold endBlock IUnit.blockEnded
  cases u.bfinal <;> rfl

/-- The complement check, written out (R190). -/
theorem storedCheckFails_iff (u : IUnit) :
    storedCheckFails u = true ↔ u.nlenCheck = true ∧ u.snlen ≠ u.slen ^^^ 0xFFFF := by
  simp [storedCheckFails]

/-- The two lengths of a stored block in the four bytes from byte `a` on (R190). -/
def IUnit.lengthsAt (a : Nat) (u : IUnit) : IUnit :=
  { u with
    slen := (u.inp.read a).toNat + 256 * (u.inp.read (a + 1)).toNat,
    snlen := (u.inp.read (a + 2)).toNat + 256 * (u.inp.read (a + 3)).toNat,
    bitpos := 8 * (a + 4) }

/-- The length fields of a stored block are two 16-bit fields from the next byte boundary on (R190, R134). -/
theorem storedLengths_of_le {u : IUnit} (h : (u.bitpos + 7) / 8 + 4 ≤ u.inLen) :
    storedLengths u = .ok () (u.lengthsAt ((u.bitpos + 7) / 8)) := by
  unfold storedLengths alignCursor
  generalize (u.bitpos + 7) / 8 = a at h
  have second : 8 * a + 16 = 8 * (a + 2) := by omega
  have past : 8 * (a + 2) + 16 = 8 * (a + 4) := by omega
  refine Res.bind_eq_ok.2 ⟨_, _, readBits_of_le (by decide) ?_,
    Res.bind_eq_ok.2 ⟨_, _, readBits_of_le (by decide) ?_, ?_⟩⟩
  · change 8 * a + 16 ≤ 8 * u.inLen
    omega
  · change 8 * a + 16 + 16 ≤ 8 * u.inLen
    omega
  · change Res.ok () { u with
      slen := bitField u.inBit 16 (8 * a), snlen := bitField u.inBit 16 (8 * a + 16), bitpos := 8 * a + 16 + 16 } = _
    rw [second, past, bitField_two_bytes, bitField_two_bytes]
    rfl

/-- The length fields of a stored block are cut short (R190). -/
theorem storedLengths_of_lt {u : IUnit} (h : u.inLen < (u.bitpos + 7) / 8 + 4) :
    ∃ w, storedLengths u = .raised (w.raise .truncated) ∧ u.InHeader w := by
  unfold storedLengths alignCursor
  generalize (u.bitpos + 7) / 8 = a at h
  by_cases first : 8 * a + 16 ≤ 8 * u.inLen
  · refine ⟨_, Res.bind_eq_raised.2 (.inr ⟨_, _, readBits_of_le (by decide) first,
      Res.bind_eq_raised.2 (.inl (readBits_of_lt (by decide) ?_))⟩), rfl⟩
    change 8 * u.inLen < 8 * a + 16 + 16
    omega
  · exact ⟨_, Res.bind_eq_raised.2 (.inl (readBits_of_lt (by decide) (Nat.lt_of_not_le first))), rfl⟩

/-- The stored copy at a byte boundary appends the bytes from byte `a` on (R190). -/
theorem copyStored_of_le {n a : Nat} {u : IUnit} (hw : u.out.wf) (hp : u.bitpos = 8 * a) (h : a + n ≤ u.inLen) :
    ∃ t, copyStored n u = .ok () t ∧ IUnit.Appended n (fun k => u.inp.read (a + k)) (u.seek (8 * (a + n))) t := by
  have bytes : (fun k => BitVec.ofNat 8 (bitField u.inBit 8 (u.bitpos + 8 * k))) = fun k => u.inp.read (a + k) := by
    funext k
    rw [hp, ← Nat.mul_add, bitField_byte, BitVec.ofNat_toNat, BitVec.setWidth_eq]
  rcases copyStored_cases (n := n) hw with ⟨_, t, completes, _, appended⟩ | ⟨short, _⟩
  · rw [bytes, hp, ← Nat.mul_add] at appended
    exact ⟨t, completes, appended⟩
  · omega

/-- The stored copy at a byte boundary raises where the stream ends before its last byte (R190). -/
theorem copyStored_of_lt {n a : Nat} {u : IUnit} (hw : u.out.wf) (hp : u.bitpos = 8 * a) (ha : a ≤ u.inLen)
    (h : u.inLen < a + n) : ∃ w, copyStored n u = .raised (w.raise .truncated) ∧ u.InHeader w := by
  rcases copyStored_cases (n := n) hw with ⟨inside, _⟩ | ⟨_, m, _, w, raises, _, appended⟩
  · omega
  · refine ⟨w, raises, ?_⟩
    rw [appended.1]
    rfl

/-- A stored block whose lengths are there goes on with the check and the copy (R190). -/
theorem storedBody_of_lengths {u v : IUnit} (h : storedLengths u = .ok () v) :
    storedBody u = if v.nlenCheck = true ∧ v.snlen ≠ v.slen ^^^ 0xFFFF then .raised (v.raise .format)
      else (copyStored v.slen v).bind fun _ w => .ok () w.blockEnded := by
  simp only [storedBody, h, Res.bind_ok, storedCheckFails_iff, endBlock_eq]

/-- Settles O15: the lengths, the check and the copy, each with its own way to fail. -/
theorem storedBlockCopiesItsBytes : Obligations.StoredBlockCopiesItsBytes := by
  intro s bfin hw u a len nlen
  have fails {k : ErrKind} {w : IUnit} (raises : storedBody u = .raised (w.raise k)) (kept : u.InHeader w) :
      ∃ t, exec (.stored bfin) s = .next { s with i := t } ∧ IUnit.HeaderFailed k u t :=
    onI_headerFailed s hw (storedBody_extends u) raises kept
  split
  next short =>
    obtain ⟨w, raises, kept⟩ := storedLengths_of_lt short
    exact fails (Res.bind_eq_raised.2 (.inl raises)) kept
  next lengths =>
    have lengths : a + 4 ≤ u.inLen := Nat.le_of_not_lt lengths
    have body := storedBody_of_lengths (storedLengths_of_le lengths)
    split
    next wrong => exact fails (body.trans (if_pos wrong)) rfl
    next right =>
      replace body := body.trans (if_neg right)
      split
      next short =>
        obtain ⟨w, raises, kept⟩ := copyStored_of_lt (u := u.lengthsAt a) hw rfl lengths short
        exact fails (body.trans (Res.bind_eq_raised.2 (.inl raises))) (.trans (v := u.lengthsAt a) rfl kept)
      next data =>
        obtain ⟨t, completes, appended⟩ := copyStored_of_le (u := u.lengthsAt a) hw rfl (Nat.le_of_not_lt data)
        refine ⟨t, onI_eq_next.2 ⟨_, .inl ?_, rfl⟩, appended⟩
        exact body.trans (Res.bind_eq_ok.2 ⟨_, _, completes, rfl⟩)

/-! ## O17: dynamic headers -/

/-- The three counts of a dynamic header (R193). -/
def IUnit.countsRead (u : IUnit) : IUnit :=
  { u with
    hlit := bitField u.inBit 5 u.bitpos + 257, hdist := bitField u.inBit 5 (u.bitpos + 5) + 1,
    hclen := bitField u.inBit 4 (u.bitpos + 10) + 4, bitpos := u.bitpos + 14 }

/-- A dynamic header announces no more lengths than there are code-length symbols (R21). -/
theorem IUnit.countsRead_hclen_le (u : IUnit) : u.countsRead.hclen ≤ 19 := by
  have : bitField u.inBit 4 (u.bitpos + 10) < 2 ^ 4 := bitField_lt u.inBit_lt _ _
  change bitField u.inBit 4 (u.bitpos + 10) + 4 ≤ 19
  omega

/-- The counts of a dynamic header are fields of 5, 5 and 4 bits (R193). -/
theorem dynCounts_of_le {u : IUnit} (h : u.bitpos + 14 ≤ 8 * u.inLen) : dynCounts u = .ok () u.countsRead := by
  refine Res.bind_eq_ok.2 ⟨_, _, readBits_of_le (by decide) ?_, Res.bind_eq_ok.2 ⟨_, _, readBits_of_le (by decide) ?_,
    Res.bind_eq_ok.2 ⟨_, _, readBits_of_le (by decide) ?_, rfl⟩⟩⟩
  · omega
  · change u.bitpos + 5 + 5 ≤ 8 * u.inLen
    omega
  · exact h

/-- The counts of a dynamic header are cut short in one of the three (R193). -/
theorem dynCounts_of_lt {u : IUnit} (h : 8 * u.inLen < u.bitpos + 14) :
    ∃ w, dynCounts u = .raised (w.raise .truncated) ∧ u.InHeader w := by
  by_cases first : u.bitpos + 5 ≤ 8 * u.inLen
  · by_cases second : u.bitpos + 5 + 5 ≤ 8 * u.inLen
    · exact ⟨_, Res.bind_eq_raised.2 (.inr ⟨_, _, readBits_of_le (by decide) first,
        Res.bind_eq_raised.2 (.inr ⟨_, _, readBits_of_le (by decide) second,
          Res.bind_eq_raised.2 (.inl (readBits_of_lt (by decide) h))⟩)⟩), rfl⟩
    · exact ⟨_, Res.bind_eq_raised.2 (.inr ⟨_, _, readBits_of_le (by decide) first,
        Res.bind_eq_raised.2 (.inl (readBits_of_lt (by decide) (Nat.lt_of_not_le second)))⟩), rfl⟩
  · exact ⟨_, Res.bind_eq_raised.2 (.inl (readBits_of_lt (by decide) (Nat.lt_of_not_le first))), rfl⟩

/-- The places and the values of the code-length code's lengths: the symbols `l`, each with the 3-bit field of its turn
from `pos` on (R193). -/
def clFields (bit : Nat → Nat) (l : List Nat) (pos : Nat) : List (Nat × Nat) :=
  l.zipIdx.map fun p => (p.1, bitField bit 3 (pos + 3 * p.2))

/-- `CLLEN` after `hc` lengths transmitted from `pos` on, along `ORDER` (R193). Irreducible, since no comparison of two
states has to look into it. -/
@[irreducible] def clLengths (bit : Nat → Nat) (hc pos : Nat) : List Nat :=
  (clFields bit (order.take hc) pos).foldl (fun c p => c.set p.1 p.2) (List.replicate 19 0)

theorem clFields_places (bit : Nat → Nat) (l : List Nat) (pos : Nat) : (clFields bit l pos).map Prod.fst = l := by
  simp [clFields, Function.comp_def]

theorem length_setAll (ps : List (Nat × Nat)) (c : List Nat) :
    (ps.foldl (fun c p => c.set p.1 p.2) c).length = c.length := by
  induction ps generalizing c with
  | nil => rfl
  | cons p ps ih => rw [List.foldl_cons, ih, List.length_set]

theorem clLengths_length (bit : Nat → Nat) (hc pos : Nat) : (clLengths bit hc pos).length = 19 := by
  rw [clLengths, length_setAll, List.length_replicate]

/-- Each place that `ORDER` names holds the length transmitted for it, or zero (R193). -/
theorem clLengths_order (bit : Nat → Nat) (hc pos : Nat) {k : Nat} (hk : k < 19) :
    (clLengths bit hc pos).getD (order.getD k 0) 0 = if k < hc then bitField bit 3 (pos + 3 * k) else 0 := by
  obtain ⟨distinct, length, places⟩ := order_nodup
  have hk : k < order.length := length.symm ▸ hk
  rw [List.getD_eq_getElem _ _ hk, clLengths]
  split
  next sent =>
    refine getD_setAll_of_mem ?_ ?_ ?_
    · rw [clFields_places]
      exact distinct.sublist (List.take_sublist _ _)
    · refine List.mem_map.2 ⟨(order[k], k), List.mk_mem_zipIdx_iff_getElem?.2 ?_, rfl⟩
      rw [List.getElem?_take_of_lt sent, List.getElem?_eq_getElem hk]
    · rw [List.length_replicate]
      exact places _ (List.getElem_mem hk)
  next unsent =>
    rw [getD_setAll_of_notMem]
    · exact List.getD_replicate 0 (places _ (List.getElem_mem hk))
    · rw [clFields_places, List.mem_take_iff_idxOf_lt (List.getElem_mem hk), distinct.idxOf_getElem]
      exact unsent

theorem order_take_length {hc : Nat} (h : hc ≤ 19) : (order.take hc).length = hc :=
  List.length_take_of_le h

/-- `CLLEN` cleared, then the lengths of the code-length code (R193). -/
theorem readClLens_order_of_le {u : IUnit} {hc : Nat} (hhc : hc ≤ 19) (h : u.bitpos + 3 * hc ≤ 8 * u.inLen) :
    readClLens (order.take hc) { u with cllen := List.replicate 19 0 } =
      .ok () { u with bitpos := u.bitpos + 3 * hc, cllen := clLengths u.inBit hc u.bitpos } := by
  have count := order_take_length hhc
  rcases readClLens_cases (l := order.take hc) (u := { u with cllen := List.replicate 19 0 }) with
    ⟨_, completes⟩ | ⟨short, _⟩
  · rw [count] at completes
    rw [clLengths]
    exact completes
  · rw [count] at short
    exact absurd h (Nat.not_le_of_lt short)

/-- The lengths of the code-length code are cut short (R193). -/
theorem readClLens_order_of_lt {u : IUnit} {hc : Nat} (hhc : hc ≤ 19) (hu : u.bitpos ≤ 8 * u.inLen)
    (h : 8 * u.inLen < u.bitpos + 3 * hc) :
    ∃ w, readClLens (order.take hc) { u with cllen := List.replicate 19 0 } = .raised (w.raise .truncated) ∧
      u.InHeader w := by
  have count := order_take_length hhc
  rcases readClLens_cases (l := order.take hc) (u := { u with cllen := List.replicate 19 0 }) with
    ⟨inside | none, _⟩ | ⟨_, w, raises, kept, _⟩
  · rw [count] at inside
    exact absurd h (Nat.not_lt_of_le inside)
  · rw [none, List.length_nil] at count
    omega
  · refine ⟨w, raises, ?_⟩
    rw [kept]
    rfl

/-- The two outcomes of `BUILD` within an element (R153). -/
theorem buildTable_of_some {lens : List Nat} {t : Table} {u : IUnit} (h : build lens = some t) :
    buildTable lens u = .ok t u := by
  rw [buildTable, h]

theorem buildTable_of_none {lens : List Nat} {u : IUnit} (h : build lens = none) :
    buildTable lens u = .raised (u.raise .format) := by
  rw [buildTable, h]

/-- A dynamic header is cut short in its counts or in the lengths they announce (R193). -/
theorem dynHeader_of_lt {u : IUnit} (h : 8 * u.inLen < u.bitpos + 14 + 3 * u.countsRead.hclen) :
    ∃ w, dynHeader u = .raised (w.raise .truncated) ∧ u.InHeader w := by
  by_cases counts : u.bitpos + 14 ≤ 8 * u.inLen
  · obtain ⟨w, raises, kept⟩ := readClLens_order_of_lt (u := u.countsRead) u.countsRead_hclen_le counts h
    refine ⟨w, ?_, .trans (v := u.countsRead) rfl kept⟩
    rw [dynHeader, dynCounts_of_le counts, Res.bind_ok, raises, Res.bind_raised]
  · obtain ⟨w, raises, kept⟩ := dynCounts_of_lt (Nat.lt_of_not_le counts)
    exact ⟨w, Res.bind_eq_raised.2 (.inl raises), kept⟩

/-- The counts and the lengths of a dynamic header (R193). -/
def IUnit.dynLensRead (u : IUnit) : IUnit :=
  { u.countsRead with
    bitpos := u.bitpos + 14 + 3 * u.countsRead.hclen, cllen := clLengths u.inBit u.countsRead.hclen (u.bitpos + 14) }

/-- A dynamic header whose counts and lengths are there goes on with the table (R193). -/
theorem dynHeader_of_le {u : IUnit} (h : u.bitpos + 14 + 3 * u.countsRead.hclen ≤ 8 * u.inLen) :
    dynHeader u = (buildTable (clLengths u.inBit u.countsRead.hclen (u.bitpos + 14)) u.dynLensRead).bind fun t w =>
      .ok () { w with cltab := t, lidx := 0, phase := .clen } := by
  have lengths : _ = Res.ok () u.dynLensRead :=
    readClLens_order_of_le (u := u.countsRead) u.countsRead_hclen_le h
  rw [dynHeader, dynCounts_of_le (by omega), Res.bind_ok, lengths, Res.bind_ok]
  rfl

/-- Settles O17: the stream is cut short, or the table is built from the lengths or refused. -/
theorem dynamicHeaderBuildsTheCodeLengthCode : Obligations.DynamicHeaderBuildsTheCodeLengthCode := by
  intro s bfin hw u hc
  have fails {k : ErrKind} {w : IUnit} (raises : dynHeader u = .raised (w.raise k)) (kept : u.InHeader w) :
      ∃ t, exec (.dynamic bfin) s = .next { s with i := t } ∧ IUnit.HeaderFailed k u t :=
    onI_headerFailed s hw (dynHeader_extends u) raises kept
  split
  next short =>
    obtain ⟨w, raises, kept⟩ := dynHeader_of_lt short
    exact fails raises kept
  next inside =>
    have header := dynHeader_of_le (Nat.le_of_not_lt inside)
    refine ⟨clLengths u.inBit u.countsRead.hclen (u.bitpos + 14), clLengths_length ..,
      fun k hk => clLengths_order _ _ _ hk, ?_⟩
    cases built : build (clLengths u.inBit u.countsRead.hclen (u.bitpos + 14)) with
    | none =>
      rw [buildTable_of_none built, Res.bind_raised] at header
      exact fails header rfl
    | some ct =>
      rw [buildTable_of_some built, Res.bind_ok] at header
      exact onI_eq_next.2 ⟨_, .inl header, rfl⟩

/-! ## O48 and O49: fetching the element -/

/-- The field that `PHASE` selects, one lemma per phase (R28, R180). -/
theorem stepI_header {s : State} (hs : s.i.start = false) (hp : s.i.phase = .hdr) :
    stepI s = runI s (fetchHeader s.i) := by
  simp [stepI, fetchI, hs, hp]

theorem stepI_codeLength {s : State} (hs : s.i.start = false) (hp : s.i.phase = .clen) :
    stepI s = runI s (fetchSymbol .cl s.i.cltab s.i) := by
  simp [stepI, fetchI, hs, hp]

theorem stepI_litLen {s : State} (hs : s.i.start = false) (hp : s.i.phase = .body) :
    stepI s = runI s (fetchSymbol .ll s.i.ltab s.i) := by
  simp [stepI, fetchI, hs, hp]

theorem stepU_scanline {s : State} (hs : s.u.start = false) (hb : s.u.busy = true) (hr : s.u.row < s.u.height.toNat) :
    stepU s = runU s (fetchRow s.rawSpace s.rawLen s.u) := by
  simp [stepU, hs, hb, hr]

theorem runI_of_decode {s : State} {f : Format} {v : Nat} {w : IUnit} {e : Instr} (h : decode f v = .ok e) :
    runI s (.ok (f, v) w) = exec e { s with i := w } := by
  simp only [runI, h]

theorem runU_of_decode {s : State} {f : Format} {v : Nat} {w : UUnit} {e : Instr} (h : decode f v = .ok e) :
    runU s (.ok (f, v) w) = exec e { s with u := w } := by
  simp only [runU, h]

theorem runI_fetchSymbol_ok {s : State} {f : Format} {t : Table} {v : Nat} {w : IUnit} {e : Instr}
    (hd : decodeSym t s.i = .ok v w) (h : decode f v = .ok e) :
    runI s (fetchSymbol f t s.i) = exec e { s with i := w } := by
  rw [fetchSymbol_eq, hd, Res.bind_ok, runI_of_decode h]

theorem runI_fetchSymbol_raised {s : State} {f : Format} {t : Table} {w : IUnit} (hd : decodeSym t s.i = .raised w) :
    runI s (fetchSymbol f t s.i) = .next { s with i := w } := by
  rw [fetchSymbol_eq, hd]
  rfl

/-- Scanline `ROW` ends where the next one starts (R66, R303). -/
theorem rowBase_end (u : UUnit) : (u.row + 1) * (1 + u.stride) = u.rowBase + 1 + u.stride := by
  rw [UUnit.rowBase, Nat.succ_mul, Nat.add_assoc]

/-- Settles O48: the fetch of each phase completes, and its value decodes. -/
theorem stepRunsTheDecodedElement : Obligations.StepRunsTheDecodedElement := by
  refine ⟨fun s i ha hs hp inside hd => ?_, fun s v w i ha hs hp hsym hd => ?_, fun s v w i ha hs hp hsym hd => ?_,
    fun s i ha hs hb hr inside hd => ?_⟩
  · rw [step_iAlone ha, stepI_header hs hp]
    rcases fetchHeader_cases s.i with ⟨_, fetched⟩ | ⟨short, _⟩
    · rw [fetched, runI_of_decode hd]
    · omega
  · rw [step_iAlone ha, stepI_codeLength hs hp, runI_fetchSymbol_ok hsym hd]
  · rw [step_iAlone ha, stepI_litLen hs hp, runI_fetchSymbol_ok hsym hd]
  · rw [rowBase_end] at inside
    rw [step_uAlone ha, stepU_scanline hs hb hr]
    rcases fetchRow_cases s.rawSpace s.rawLen s.u with ⟨_, fetched⟩ | ⟨short, _⟩
    · rw [fetched]
      exact runU_of_decode hd
    · omega

/-- Settles O49: the fetch of each phase raises, and that is the step. -/
theorem failedFetchEndsTheRun : Obligations.FailedFetchEndsTheRun := by
  refine ⟨fun s ha hs hp short => ?_, fun s w ha hs hp hsym => ?_, fun s w ha hs hp hsym => ?_,
    fun s ha hs hb hr short => ?_⟩
  · rw [step_iAlone ha, stepI_header hs hp]
    rcases fetchHeader_cases s.i with ⟨inside, _⟩ | ⟨_, t, raises, kept, _⟩
    · omega
    · exact ⟨t, by rw [raises]; rfl, kept⟩
  · rw [step_iAlone ha, stepI_codeLength hs hp, runI_fetchSymbol_raised hsym]
  · rw [step_iAlone ha, stepI_litLen hs hp, runI_fetchSymbol_raised hsym]
  · rw [rowBase_end] at short
    rw [step_uAlone ha, stepU_scanline hs hb hr]
    rcases fetchRow_cases s.rawSpace s.rawLen s.u with ⟨inside, _⟩ | ⟨_, raises⟩
    · omega
    · rw [raises]
      rfl

end Sys2Proof.Machine
end

/-! # Literals, end of block and matches

O22 to O27, O31 and O33: a length element is `MATCH` with its row of the length table; after its extra bits it decodes a
distance symbol and runs that symbol's element, which reads its own extra bits, checks the distance and copies. -/

section
namespace Sys2Proof.Machine

/-! ## O22, O23 and O33: the elements that read nothing more -/

/-- `OutAppend` appends its byte and changes nothing else (R11). -/
theorem IUnit.append_appended {u : IUnit} (h : u.out.wf) (b : Byte) : IUnit.Appended 1 (fun _ => b) u (u.append b) := by
  refine ⟨rfl, fun a => ?_⟩
  rw [IUnit.append_out_read h]
  exact if_congr (by omega) rfl rfl

/-- Settles O22: a literal is `OutAppend` of its byte, after the symbol is latched. -/
theorem literalAppendsItsByte : Obligations.LiteralAppendsItsByte := fun s b hw =>
  ⟨_, rfl, IUnit.append_appended (u := s.i.setSym b.toNat) hw b⟩

/-- Settles O23: what `END_BLOCK` does, written out. -/
theorem endOfBlockEndsTheBlock : Obligations.EndOfBlockEndsTheBlock := by
  intro s
  change onI s (.ok () (endBlock (s.i.setSym 256))) = _
  rw [endBlock_eq]
  rfl

/-- Settles O33: the symbol is latched, then the error is recorded (R350). -/
theorem reservedSymbolsRaise : Obligations.ReservedSymbolsRaise := fun _ =>
  ⟨fun _ _ => rfl, fun _ _ => rfl⟩

/-! ## Which operation an element of a match is -/

/-- An element of format `LL` is what its symbol does to the I-unit. -/
theorem exec_of_litLenWord {i : Instr} {v : Nat} (h : i.HasWord .ll v) (s : State) :
    exec i s = onI s (llElement v s.i) := by
  obtain ⟨hwf, word⟩ := h
  have decodes := decode_encode hwf
  rw [word] at decodes
  exact (runI_of_decode (w := s.i) decodes).symm.trans (runI_litLen s v s.i)

theorem lenInstrs_lt {k : Nat} {i : Instr} (h : lenInstrs[k]? = some i) : k < 29 :=
  (List.getElem?_eq_some_iff.1 h).1

/-- The elements of the length symbols are `MATCH` (R223-R252). -/
theorem exec_lenInstr {k : Nat} {i : Instr} (h : lenInstrs[k]? = some i) (s : State) :
    exec i s = onI s (matchElement (257 + k) s.i) := by
  have := lenInstrs_lt h
  rw [exec_of_litLenWord (lenInstrs_hasWord h), llElement, if_neg (by omega), if_neg (by omega), if_pos (by omega)]

/-- An element of format `DS` is the case of its symbol (R260). -/
theorem exec_of_decodeDS {d : Nat} {e : Instr} (h : decode .ds d = .ok e) (s : State) :
    exec e s = onI s (distSymbol d s.i) := by
  rcases decodeDS_cases d with ⟨inAlphabet, _⟩ | ⟨_, rejected⟩
  · interval_cases d <;> cases h <;> rfl
  · cases rejected.symm.trans h

/-- As a step, an operation of the I-unit leaves nothing of the unit as it was before (R28). -/
theorem onI_withI (s : State) (i : IUnit) (r : Res IUnit Unit) : onI { s with i := i } r = onI s r := by
  cases r <;> rfl

/-! ## The length and the distance code (R223) -/

/-- Everything a length element can do up to its distance code (R223). -/
theorem exec_lenInstr_cases {k : Nat} {i : Instr} (h : lenInstrs[k]? = some i) (s : State) :
    (0 < lextra.getD k 0 ∧ 8 * s.i.inLen < s.i.bitpos + lextra.getD k 0 ∧
        exec i s = .next { s with i := { s.i with sym := 257 + k }.raise .truncated }) ∨
    ((s.i.bitpos + lextra.getD k 0 ≤ 8 * s.i.inLen ∨ lextra.getD k 0 = 0) ∧
      exec i s = onI s (distance (s.i.lengthRead (257 + k) (lbase.getD k 0) (lextra.getD k 0)))) := by
  obtain ⟨few, _⟩ := length_rows k (lenInstrs_lt h)
  have outcomes := matchElement_cases (sym := 257 + k) (u := s.i)
  rw [Nat.add_sub_cancel_left] at outcomes
  rw [exec_lenInstr h]
  rcases outcomes (by omega) with ⟨extra, short, raises⟩ | ⟨inside, runs⟩
  · exact .inl ⟨extra, short, by rw [raises]; rfl⟩
  · exact .inr ⟨inside, by rw [runs]⟩

theorem exec_lenInstr_of_lt {k : Nat} {i : Instr} {s : State} (h : lenInstrs[k]? = some i)
    (extra : 0 < lextra.getD k 0) (short : 8 * s.i.inLen < s.i.bitpos + lextra.getD k 0) :
    exec i s = .next { s with i := { s.i with sym := 257 + k }.raise .truncated } := by
  rcases exec_lenInstr_cases h s with ⟨_, _, raises⟩ | ⟨inside, _⟩
  · exact raises
  · omega

theorem exec_lenInstr_of_le {k : Nat} {i : Instr} {s : State} (h : lenInstrs[k]? = some i)
    (inside : 0 < lextra.getD k 0 → s.i.bitpos + lextra.getD k 0 ≤ 8 * s.i.inLen) :
    exec i s = onI s (distance (s.i.lengthRead (257 + k) (lbase.getD k 0) (lextra.getD k 0))) := by
  rcases exec_lenInstr_cases h s with ⟨extra, short, _⟩ | ⟨_, runs⟩
  · have := inside extra
    omega
  · exact runs

/-- The distance code (R260): the case of the symbol it decodes to, or the error of the decode. -/
theorem distance_of_decode_ok {u w : IUnit} {d : Nat} (h : decodeSym u.dtab u = .ok d w) :
    distance u = distSymbol d w := by
  rw [distance, h, Res.bind_ok]

theorem distance_of_decode_raised {u w : IUnit} (h : decodeSym u.dtab u = .raised w) : distance u = .raised w := by
  rw [distance, h, Res.bind_raised]

/-- Settles O31: both sides are the case of the decoded symbol. -/
theorem matchRunsItsDistanceElement : Obligations.MatchRunsItsDistanceElement := by
  intro s k i h inside u d w e decodes element
  rw [exec_lenInstr_of_le h inside, distance_of_decode_ok decodes, exec_of_decodeDS element]
  exact (onI_withI s w (distSymbol d w)).symm

/-! ## The distance element (R260) -/

section
variable {d : Nat} {u : IUnit}

/-- The extra bits of the distance are cut short. -/
theorem distElement_of_short (hd : d < 30) (extra : 0 < dextra.getD d 0)
    (short : 8 * u.inLen < u.bitpos + dextra.getD d 0) :
    distElement d u = .raised ({ u with dsym := d }.raise .truncated) := by
  obtain ⟨few, _⟩ := distance_rows d hd
  rcases distElement_cases (d := d) (u := u) (by omega) with ⟨_, _, raises⟩ | ⟨inside, _⟩
  · exact raises
  · omega

/-- The distance reaches before `OUT[0]`. -/
theorem distElement_of_far (hd : d < 30) (inside : u.bitpos + dextra.getD d 0 ≤ 8 * u.inLen ∨ dextra.getD d 0 = 0)
    (far : u.outlen < (u.distanceRead d (dbase.getD d 0) (dextra.getD d 0)).mdist) :
    distElement d u = .raised ((u.distanceRead d (dbase.getD d 0) (dextra.getD d 0)).raise .format) := by
  obtain ⟨few, _⟩ := distance_rows d hd
  rcases distElement_cases (d := d) (u := u) (by omega) with ⟨extra, short, _⟩ | ⟨_, ⟨_, raises⟩ | ⟨near, _⟩⟩
  · omega
  · exact raises
  · omega

/-- The distance stays within the output. -/
theorem distElement_of_near (hd : d < 30) (inside : u.bitpos + dextra.getD d 0 ≤ 8 * u.inLen ∨ dextra.getD d 0 = 0)
    (near : (u.distanceRead d (dbase.getD d 0) (dextra.getD d 0)).mdist ≤ u.outlen) :
    distElement d u = .ok () (copyMatch u.mlen (u.distanceRead d (dbase.getD d 0) (dextra.getD d 0))) := by
  obtain ⟨few, _⟩ := distance_rows d hd
  rcases distElement_cases (d := d) (u := u) (by omega) with ⟨extra, short, _⟩ | ⟨_, ⟨far, _⟩ | ⟨_, completes⟩⟩
  · omega
  · omega
  · exact completes

/-- No distance is zero (R105). -/
theorem IUnit.distanceRead_mdist_pos (hd : d < 30) (u : IUnit) :
    1 ≤ (u.distanceRead d (dbase.getD d 0) (dextra.getD d 0)).mdist := by
  obtain ⟨_, positive, _⟩ := distance_rows d hd
  exact Nat.le_add_right_of_le positive

end

/-- Settles O27: each clause by the outcome of the operation that reports the error. -/
theorem matchErrorsInStreamOrder : Obligations.MatchErrorsInStreamOrder := by
  intro s k i h base extra u
  refine ⟨exec_lenInstr_of_lt h, fun inside => ?_⟩
  have runs : exec i s = onI s (distance u) := exec_lenInstr_of_le h fun _ => inside
  refine ⟨fun w raises => ?_, fun d w decodes => ?_⟩
  · rw [runs, distance_of_decode_raised raises, onI_raised]
  · rw [distance_of_decode_ok decodes] at runs
    obtain ⟨p, rfl⟩ := decodeSym_eq_ok decodes
    refine ⟨fun reserved => ?_, fun row => ⟨fun extra short => ?_, fun inside far => ?_⟩⟩
    · rw [runs, distSymbol_reserved reserved, rsvd, onI_raised]
    · rw [runs, distSymbol_of_lt row, distElement_of_short row extra short, onI_raised]
    · rw [runs, distSymbol_of_lt row, distElement_of_far row (.inl inside) far, onI_raised]

/-! ## The copy (R292, R293) -/

/-- Byte `k` of a match is byte `k % MDIST` of those before it: where the match is longer than its distance, the byte
`MDIST` behind is itself one of the match (R293). -/
theorem copyMatch_read_cyclic {n k : Nat} {u : IUnit} (h : u.out.wf) (hd : 1 ≤ u.mdist ∧ u.mdist ≤ u.outlen)
    (hk : k < n) : (copyMatch n u).out.read (u.outlen + k) = u.out.read (u.outlen - u.mdist + k % u.mdist) := by
  obtain ⟨_, _, reads⟩ := copyMatch_spec (n := n) h hd
  induction k using Nat.strong_induction_on with
  | _ k ih =>
    rw [reads, if_pos (by omega)]
    by_cases first : k < u.mdist
    · rw [reads, if_neg (by omega), Nat.mod_eq_of_lt first]
      congr 1
      omega
    · have back : u.outlen + k - u.mdist = u.outlen + (k - u.mdist) := by omega
      rw [back, ih _ (by omega) (by omega), ← Nat.mod_eq_sub_mod (by omega)]

/-- The copy loop appends the bytes before the match, repeated cyclically, and rewrites no byte (R292, R293, R73). -/
theorem copyMatch_copied (n : Nat) {u : IUnit} (h : u.out.wf) (hd : 1 ≤ u.mdist ∧ u.mdist ≤ u.outlen) :
    IUnit.Copied n u.mdist u (copyMatch n u) := by
  obtain ⟨frame, _, reads⟩ := copyMatch_spec (n := n) h hd
  refine ⟨frame, fun a => ?_⟩
  split
  next inMatch =>
    obtain ⟨k, rfl⟩ := Nat.exists_eq_add_of_le inMatch.1
    rw [copyMatch_read_cyclic h hd (by omega), Nat.add_sub_cancel_left]
  next outside => rw [reads, if_neg outside]

/-! ## O24, O25 and O26: the length elements -/

/-- Every length element runs with the base and the number of extra bits of its row of the length table (R104, R223). -/
theorem lenInstr_lengthRuns {k : Nat} {i : Instr} (h : lenInstrs[k]? = some i) :
    LengthRuns i (257 + k) (lbase.getD k 0) (lextra.getD k 0) := by
  refine ⟨fun s => exec_lenInstr_of_lt h, fun s d w hw inside decodes row bits near => ?_⟩
  have runs := exec_lenInstr_of_le h fun _ => inside
  rw [distance_of_decode_ok decodes, distSymbol_of_lt row] at runs
  obtain ⟨p, rfl⟩ := decodeSym_eq_ok decodes
  rw [distElement_of_near row (.inl bits) near, onI_ok] at runs
  exact ⟨_, runs, copyMatch_copied _ hw ⟨IUnit.distanceRead_mdist_pos row _, near⟩⟩

/-- Settles O24: rows 0 to 7 and 28 of the length table. -/
theorem lengthsWithoutExtraBits : Obligations.LengthsWithoutExtraBits :=
  ⟨lenInstr_lengthRuns (k := 0) rfl, lenInstr_lengthRuns (k := 1) rfl, lenInstr_lengthRuns (k := 2) rfl,
    lenInstr_lengthRuns (k := 3) rfl, lenInstr_lengthRuns (k := 4) rfl, lenInstr_lengthRuns (k := 5) rfl,
    lenInstr_lengthRuns (k := 6) rfl, lenInstr_lengthRuns (k := 7) rfl, lenInstr_lengthRuns (k := 28) rfl⟩

/-- Settles O25: rows 8 to 19 of the length table. -/
theorem lengthsOfOneToThreeExtraBits : Obligations.LengthsOfOneToThreeExtraBits :=
  ⟨lenInstr_lengthRuns (k := 8) rfl, lenInstr_lengthRuns (k := 9) rfl, lenInstr_lengthRuns (k := 10) rfl,
    lenInstr_lengthRuns (k := 11) rfl, lenInstr_lengthRuns (k := 12) rfl, lenInstr_lengthRuns (k := 13) rfl,
    lenInstr_lengthRuns (k := 14) rfl, lenInstr_lengthRuns (k := 15) rfl, lenInstr_lengthRuns (k := 16) rfl,
    lenInstr_lengthRuns (k := 17) rfl, lenInstr_lengthRuns (k := 18) rfl, lenInstr_lengthRuns (k := 19) rfl⟩

/-- Settles O26: rows 20 to 27 of the length table. -/
theorem lengthsOfFourAndFiveExtraBits : Obligations.LengthsOfFourAndFiveExtraBits :=
  ⟨lenInstr_lengthRuns (k := 20) rfl, lenInstr_lengthRuns (k := 21) rfl, lenInstr_lengthRuns (k := 22) rfl,
    lenInstr_lengthRuns (k := 23) rfl, lenInstr_lengthRuns (k := 24) rfl, lenInstr_lengthRuns (k := 25) rfl,
    lenInstr_lengthRuns (k := 26) rfl, lenInstr_lengthRuns (k := 27) rfl⟩

end Sys2Proof.Machine
end

/-! # Distance symbols and the copy

O28, O29, O30 and O32: a distance element is `DIST` with its row of the distance table (R260 to R290), and the copy it ends
with is the copy loop of every match (R292). -/

section
namespace Sys2Proof.Machine

/-! ## O32: the copy -/

/-- Settles O32 by `copyMatch_copied`, whose idea is `copyMatch_read_cyclic`: the byte `MDIST` behind one of the match is
one of those before it, or of the match itself. -/
theorem copyRepeatsTheBytesBeforeIt : Obligations.CopyRepeatsTheBytesBeforeIt := fun n _ hw least most =>
  copyMatch_copied n hw ⟨least, most⟩

/-! ## O28, O29 and O30: the distance elements -/

theorem distInstrs_lt {d : Nat} {i : Instr} (h : distInstrs[d]? = some i) : d < 30 :=
  (List.getElem?_eq_some_iff.1 h).1

/-- The elements of the distance symbols are `DIST` from its extra bits on (R260-R290). -/
theorem exec_distInstr {d : Nat} {i : Instr} (h : distInstrs[d]? = some i) (s : State) :
    exec i s = onI s (distElement d s.i) := by
  obtain ⟨hwf, word⟩ := distInstrs_hasWord h
  have decodes := decode_encode hwf
  rw [word] at decodes
  rw [exec_of_decodeDS decodes, distSymbol_of_lt (distInstrs_lt h)]

/-- Every distance element runs with the base and the number of extra bits of its row of the distance table (R105,
R260). -/
theorem distInstr_distanceRuns {d : Nat} {i : Instr} (h : distInstrs[d]? = some i) :
    DistanceRuns i d (dbase.getD d 0) (dextra.getD d 0) := by
  intro s hw m
  have row := distInstrs_lt h
  have runs := exec_distInstr h s
  split
  next short =>
    obtain ⟨extra, cut⟩ := short
    rw [runs, distElement_of_short row extra cut, onI_raised]
  next inside =>
    replace inside : s.i.bitpos + dextra.getD d 0 ≤ 8 * s.i.inLen ∨ dextra.getD d 0 = 0 := by omega
    split
    next far => rw [runs, distElement_of_far row inside far, onI_raised]
    next near =>
      replace near := Nat.le_of_not_lt near
      rw [distElement_of_near row inside near, onI_ok] at runs
      exact ⟨_, runs, copyMatch_copied _ hw ⟨IUnit.distanceRead_mdist_pos row _, near⟩⟩

/-- Settles O28: rows 0 to 11 of the distance table. -/
theorem distancesUpTo64 : Obligations.DistancesUpTo64 :=
  ⟨distInstr_distanceRuns (d := 0) rfl, distInstr_distanceRuns (d := 1) rfl, distInstr_distanceRuns (d := 2) rfl,
    distInstr_distanceRuns (d := 3) rfl, distInstr_distanceRuns (d := 4) rfl, distInstr_distanceRuns (d := 5) rfl,
    distInstr_distanceRuns (d := 6) rfl, distInstr_distanceRuns (d := 7) rfl, distInstr_distanceRuns (d := 8) rfl,
    distInstr_distanceRuns (d := 9) rfl, distInstr_distanceRuns (d := 10) rfl, distInstr_distanceRuns (d := 11) rfl⟩

/-- Settles O29: rows 12 to 23 of the distance table. -/
theorem distancesFrom65To4096 : Obligations.DistancesFrom65To4096 :=
  ⟨distInstr_distanceRuns (d := 12) rfl, distInstr_distanceRuns (d := 13) rfl, distInstr_distanceRuns (d := 14) rfl,
    distInstr_distanceRuns (d := 15) rfl, distInstr_distanceRuns (d := 16) rfl, distInstr_distanceRuns (d := 17) rfl,
    distInstr_distanceRuns (d := 18) rfl, distInstr_distanceRuns (d := 19) rfl, distInstr_distanceRuns (d := 20) rfl,
    distInstr_distanceRuns (d := 21) rfl, distInstr_distanceRuns (d := 22) rfl, distInstr_distanceRuns (d := 23) rfl⟩

/-- Settles O30: rows 24 to 29 of the distance table. -/
theorem distancesFrom4097To32768 : Obligations.DistancesFrom4097To32768 :=
  ⟨distInstr_distanceRuns (d := 24) rfl, distInstr_distanceRuns (d := 25) rfl, distInstr_distanceRuns (d := 26) rfl,
    distInstr_distanceRuns (d := 27) rfl, distInstr_distanceRuns (d := 28) rfl, distInstr_distanceRuns (d := 29) rfl⟩

end Sys2Proof.Machine
end

/-! # The scanline unfilter

O34 to O41: every filter element is `STEP_ROW` with its selector, and its predictor is over the row's own reconstructed
bytes and those above it. Where those bytes are an image's, so is the row, and a run goes through the rows in order. -/

section
namespace Sys2Proof.Machine

/-! ## O38 and O39: the Paeth predictor (R312) -/

/-- What `paeth` returns, by how far each argument lies from `p = a + b - c`. -/
theorem paeth_cases {a b c : Nat} {p : Int} (hp : p = (a : Int) + b - c) :
    (paeth a b c = a ∧ |p - a| ≤ |p - b| ∧ |p - a| ≤ |p - c|) ∨
    (paeth a b c = b ∧ (|p - b| < |p - a| ∨ |p - c| < |p - a|) ∧ |p - b| ≤ |p - c|) ∨
    (paeth a b c = c ∧ (|p - b| < |p - a| ∨ |p - c| < |p - a|) ∧ |p - c| < |p - b|) := by
  simp only [paeth, Int.abs_eq_natAbs, ← hp]
  split
  · exact .inl ⟨rfl, by omega, by omega⟩
  · split
    · exact .inr (.inl ⟨rfl, by omega, by omega⟩)
    · exact .inr (.inr ⟨rfl, by omega, by omega⟩)

/-- Settles O38: each outcome of `paeth_cases` has the least of the three distances, and it is strictly less than that of
an earlier argument. -/
theorem paethPicksTheNearest : Obligations.PaethPicksTheNearest := by
  intro a b c p r
  obtain ⟨picked, ab, ac⟩ | ⟨picked, notA, bc⟩ | ⟨picked, notA, cb⟩ := paeth_cases (rfl : p = _)
  · have isA : r = a := picked
    rw [isA]
    exact ⟨.inl rfl, le_rfl, ab, ac, fun _ => rfl, fun far => absurd rfl far⟩
  · have isB : r = b := picked
    rw [isB]
    exact ⟨.inr (.inl rfl), by omega, le_rfl, bc, by omega, fun _ _ => rfl⟩
  · have isC : r = c := picked
    rw [isC]
    exact ⟨.inr (.inr rfl), by omega, by omega, le_rfl, by omega, by omega⟩

/-- Both orders ask for the nearest to the same point, and where two different `a` and `b` are equally near to it, `c` is
nearer than both. -/
theorem paeth_comm (a b c : Nat) : paeth a b c = paeth b a c := by
  have swapped : (a : Int) + b - c = b + a - c := by omega
  have tie : |(a : Int) + b - c - a| = |(a : Int) + b - c - b| →
      a = b ∨ |(a : Int) + b - c - c| < |(a : Int) + b - c - a| := by
    simp only [Int.abs_eq_natAbs]
    omega
  have inOrder := paeth_cases (a := a) (b := b) (c := c) rfl
  have reversed := paeth_cases swapped
  omega

/-- Settles O39: where `b = c` the distance of `a` is 0, and the other reduction is this one after `paeth_comm`. -/
theorem paethIsSymmetricAndReduces : Obligations.PaethIsSymmetricAndReduces := by
  have reduces : ∀ a b, paeth a b b = a := fun a b => by simp [paeth]
  exact fun a b _ => ⟨paeth_comm a b _, reduces a b, (paeth_comm a b a).trans (reduces b a)⟩

/-! ## O34 to O37: the filter elements -/

/-- The prediction for byte `k` of the row with selector `ft` (R304, R306-R310). -/
def UUnit.prediction (ft : Nat) (u : UUnit) (k : Nat) : Nat := predictor ft (u.left k) (u.above k) (u.upLeft k)

/-- `rows` is `ROWS` with row `ROW` reconstructed from its scanline in `raw` and nothing else changed (R303-R305). -/
def UUnit.RowRebuilt (raw : Memory) (ft : Nat) (u : UUnit) (rows : Memory) : Prop :=
  ∀ a, rows.read a =
    if u.row * u.stride ≤ a ∧ a < (u.row + 1) * u.stride then
      BitVec.ofNat 8 ((raw.read (u.row * (1 + u.stride) + 1 + (a - u.row * u.stride))).toNat
        + UUnit.prediction ft { u with rows := rows } (a - u.row * u.stride))
    else u.rows.read a

/-- A scanline with a legal selector reconstructs its row (R303-R305) and goes on to the loop test (R300). -/
theorem rowElement_rebuilt {u : UUnit} (hw : u.rows.wf) (hb : u.bppLegal = true) (ft : Nat) (raw : Memory) :
    ∃ rows, rowElement ft raw u = .ok () (u.rowDone ft rows).nextRow ∧ rows.wf ∧ u.RowRebuilt raw ft rows := by
  obtain ⟨least, _⟩ := u.bppLegal_iff.1 hb
  obtain ⟨frame, wf, bytes⟩ := unfilterBytes_spec (raw := raw) (n := u.stride) (u := { u with ft := ft, col := 0 }) hw
    least (by simp)
  refine ⟨_, ?_, wf, fun a => ?_⟩
  · rw [rowElement_eq, frame]
    simp only [UUnit.rowDone, Nat.zero_add]
  · rw [bytes a, Nat.succ_mul]
    rfl

/-- The unit after a scanline and the loop test that follows it (R300). -/
theorem UUnit.rowDone_nextRow (ft : Nat) (rows : Memory) (u : UUnit) :
    (u.rowDone ft rows).nextRow = { u.rowDone ft rows with
      phase := if u.row + 1 < u.height.toNat then u.phase else .done
      rowsLen := if u.row + 1 < u.height.toNat then u.rowsLen else u.height.toNat * u.stride } := by
  by_cases more : u.row + 1 < u.height.toNat
  · simp only [if_pos more]
    exact if_pos more
  · simp only [if_neg more]
    exact if_neg more

/-- An element that is `STEP_ROW` with selector `ft` runs with the predictor of that selector (R306-R310). -/
theorem filterRuns_of_exec {i : Instr} {ft : Nat} (h : ∀ s, exec i s = onU s (rowElement ft s.rawSpace s.u)) :
    FilterRuns i ft (UUnit.prediction ft) := by
  intro s hw hb
  obtain ⟨rows, completes, _, rebuilt⟩ := rowElement_rebuilt hw hb ft s.rawSpace
  refine ⟨(s.u.rowDone ft rows).nextRow, by rw [h, completes, onU_ok], ?_, ?_⟩ <;> rw [UUnit.rowDone_nextRow]
  · rfl
  · exact rebuilt

/-- Settles O34: `PRED` of selectors 0, 1 and 2, written out over the neighbours of R304. -/
theorem noneSubAndUpReconstruct : Obligations.NoneSubAndUpReconstruct :=
  ⟨filterRuns_of_exec fun _ => rfl, filterRuns_of_exec fun _ => rfl, filterRuns_of_exec fun _ => rfl⟩

/-- Settles O35: `PRED` of selector 3, written out over the neighbours of R304. -/
theorem averageReconstructs : Obligations.AverageReconstructs := filterRuns_of_exec fun _ => rfl

/-- Settles O36: `PRED` of selector 4, written out over the neighbours of R304. -/
theorem paethReconstructs : Obligations.PaethReconstructs := filterRuns_of_exec fun _ => rfl

/-- Settles O37: the element is the raise alone. -/
theorem reservedSelectorRaises : Obligations.ReservedSelectorRaises := fun _ _ _ _ => rfl

/-! ## O41: the start of a run -/

/-- Settles O41: the command is the next step, and its geometry check (R301) and first loop test (R300) are written out. -/
theorem unfilterStartChecksTheGeometry : Obligations.UnfilterStartChecksTheGeometry := by
  intro s ha hs hb hc v
  rw [step_uAlone ha, stepU_of_start hs hb hc]
  rcases s.u.begin_cases with ⟨legal, e⟩ | ⟨illegal, e⟩ <;> rw [e]
  · rw [onU_ok, if_pos (s.u.bppLegal_iff.1 legal)]
    rcases UUnit.nextRow_cases { v with stride := s.u.width.toNat * s.u.bpp.toNat, row := 0, phase := .rowHdr } with
      ⟨rows, next⟩ | ⟨empty, next⟩
    · rw [next, if_pos rows]
    · have noRows : s.u.height.toNat = 0 := Nat.le_zero.1 empty
      rw [next, if_neg (Nat.not_lt.2 empty)]
      simp only [noRows, Nat.zero_mul, v]
  · rw [onU_raised, if_neg fun range => Bool.eq_false_iff.1 illegal (s.u.bppLegal_iff.2 range)]
    rfl

/-! ## O40: a whole image -/

/-- Where `ROWS` holds the image up to byte `k` of the row, the prediction for that byte is the one it was filtered with:
every neighbour lies before it (R78, R304). -/
theorem UUnit.prediction_eq_imagePrediction {u : UUnit} {o : Nat → Byte} {k : Nat} (hb : 1 ≤ u.bpp.toNat)
    (hk : k < u.stride) (before : ∀ a < u.row * u.stride + k, u.rows.read a = o a) (ft : Nat) :
    u.prediction ft k = imagePrediction o u.bpp.toNat u.stride ft u.row k := by
  have rowAbove : 1 ≤ u.row → (u.row - 1) * u.stride + u.stride = u.row * u.stride := fun first => by
    rw [← Nat.succ_mul, Nat.succ_eq_add_one, Nat.sub_add_cancel first]
  have left : u.left k = if u.bpp.toNat ≤ k then (o (u.row * u.stride + k - u.bpp.toNat)).toNat else 0 :=
    if_ctx_congr Iff.rfl (fun _ => by rw [before _ (by omega)]) fun _ => rfl
  have above : u.above k = if 1 ≤ u.row then (o ((u.row - 1) * u.stride + k)).toNat else 0 :=
    if_ctx_congr Iff.rfl (fun first => by rw [before _ (by have := rowAbove first; omega)]) fun _ => rfl
  have upLeft : u.upLeft k =
      if 1 ≤ u.row ∧ u.bpp.toNat ≤ k then (o ((u.row - 1) * u.stride + k - u.bpp.toNat)).toNat else 0 :=
    if_ctx_congr Iff.rfl (fun h => by rw [before _ (by have := rowAbove h.1; omega)]) fun _ => rfl
  rw [UUnit.prediction, left, above, upLeft, imagePrediction]

/-- The reconstruction undoes the filter: adding the prediction back modulo 256 gives the byte it was taken from (R305). -/
theorem ofNat_toNat_sub_add (b : Byte) (p : Nat) : BitVec.ofNat 8 ((b - BitVec.ofNat 8 p).toNat + p) = b := by
  rw [BitVec.ofNat_add, BitVec.ofNat_toNat, BitVec.setWidth_eq, BitVec.sub_add_cancel]

/-- A row rebuilt from a scanline of the image, below the rows of the image, is the image's row: byte by byte, each
predicted from bytes that are the image's already (R315). -/
theorem UUnit.RowRebuilt.restores {u : UUnit} {raw rows : Memory} {o : Nat → Byte}
    (rebuilt : u.RowRebuilt raw (raw.read u.rowBase).toNat rows) (hb : 1 ≤ u.bpp.toNat)
    (filtered : ∀ k < u.stride, raw.read (u.row * (1 + u.stride) + 1 + k) = o (u.row * u.stride + k) -
      BitVec.ofNat 8 (imagePrediction o u.bpp.toNat u.stride (raw.read (u.row * (1 + u.stride))).toNat u.row k))
    (restored : ∀ a < u.row * u.stride, u.rows.read a = o a) :
    ∀ a < (u.row + 1) * u.stride, rows.read a = o a := by
  intro a inside
  induction a using Nat.strong_induction_on with
  | _ a before =>
    have byte := rebuilt a
    by_cases earlier : a < u.row * u.stride
    · rw [byte, if_neg (by omega), restored a earlier]
    · obtain ⟨k, rfl⟩ : ∃ k, a = u.row * u.stride + k := ⟨a - u.row * u.stride, by omega⟩
      have inRow : k < u.stride := by
        rw [Nat.succ_mul] at inside
        omega
      have predicted := UUnit.prediction_eq_imagePrediction (u := { u with rows := rows }) (o := o) hb inRow
        (fun b hb => before b hb (hb.trans inside)) (raw.read u.rowBase).toNat
      rw [byte, if_pos ⟨Nat.le_add_right _ _, inside⟩, Nat.add_sub_cancel_left, predicted, filtered k inRow]
      exact ofNat_toNat_sub_add _ _

/-- A selector up to 4 decodes to an element that is `STEP_ROW` with it (R108, R303). -/
theorem decodeFS_filter {ft : Nat} (h : ft ≤ 4) :
    ∃ e, decode .fs ft = .ok e ∧ ∀ s, exec e s = onU s (rowElement ft s.rawSpace s.u) := by
  match ft with
  | 0 => exact ⟨.filterNone, rfl, fun _ => rfl⟩
  | 1 => exact ⟨.filterSub, rfl, fun _ => rfl⟩
  | 2 => exact ⟨.filterUp, rfl, fun _ => rfl⟩
  | 3 => exact ⟨.filterAvg, rfl, fun _ => rfl⟩
  | 4 => exact ⟨.filterPaeth, rfl, fun _ => rfl⟩
  | n + 5 => omega

/-- A run over the filtered scanlines of the image `o`, with the rows before `ROW` restored (R300, R315). -/
structure State.Restoring (o : Nat → Byte) (s : State) : Prop where
  iRests : s.iReady = false
  start : s.u.start = false
  busy : s.u.busy = true
  rows_wf : s.u.rows.wf
  bppLegal : s.u.bppLegal = true
  room : s.u.height.toNat * (1 + s.u.stride) ≤ s.rawLen
  filtered : s.rawSpace.Filtered o s.u.bpp.toNat s.u.stride s.u.height.toNat
  restored : ∀ a < s.u.row * s.u.stride, s.u.rows.read a = o a

/-- A step of such a run restores its row. -/
theorem State.Restoring.step {o : Nat → Byte} {s : State} (h : s.Restoring o) (hr : s.u.row < s.u.height.toNat) :
    ∃ ft rows, step s = .next { s with u := (s.u.rowDone ft rows).nextRow } ∧ rows.wf ∧
      ∀ a < (s.u.row + 1) * s.u.stride, rows.read a = o a := by
  obtain ⟨selector, scanline⟩ := h.filtered s.u.row hr
  obtain ⟨e, decodes, runs⟩ := decodeFS_filter selector
  have inside : (s.u.row + 1) * (1 + s.u.stride) ≤ s.rawLen := (Nat.mul_le_mul_right _ hr).trans h.room
  have ready : s.uReady = true := by simp [State.uReady, h.busy]
  obtain ⟨rows, completes, wf, rebuilt⟩ := rowElement_rebuilt h.rows_wf h.bppLegal _ s.rawSpace
  have least : 1 ≤ s.u.bpp.toNat := (s.u.bppLegal_iff.1 h.bppLegal).1
  refine ⟨(s.rawSpace.read s.u.rowBase).toNat, rows, ?_, wf, UUnit.RowRebuilt.restores rebuilt least scanline h.restored⟩
  obtain ⟨_, _, _, scanlineRuns⟩ := stepRunsTheDecodedElement
  rw [scanlineRuns s e ⟨h.iRests, ready⟩ h.start h.busy hr inside decodes, runs]
  exact congrArg (onU s) completes

/-- The rows that are left, one step each (R300). -/
theorem State.Restoring.ends {o : Nat → Byte} {n : Nat} {s : State} (h : s.Restoring o)
    (left : s.u.row + (n + 1) = s.u.height.toNat) :
    ∃ t, s.afterSteps (n + 1) = .next t ∧ t.u.phase = .done ∧ t.u.rowsLen = s.u.height.toNat * s.u.stride ∧
      ∀ a < t.u.rowsLen, t.u.rows.read a = o a := by
  induction n generalizing s with
  | zero =>
    obtain ⟨ft, rows, e, _, image⟩ := h.step (by omega)
    have last : ¬ s.u.row + 1 < s.u.height.toNat := by omega
    rw [UUnit.rowDone_nextRow, if_neg last, if_neg last] at e
    exact ⟨_, afterSteps_succ e, rfl, rfl, left ▸ image⟩
  | succ n ih =>
    obtain ⟨ft, rows, e, wf, image⟩ := h.step (by omega)
    have more : s.u.row + 1 < s.u.height.toNat := by omega
    rw [UUnit.rowDone_nextRow, if_pos more, if_pos more] at e
    have goesOn : State.Restoring o { s with u := s.u.rowDone ft rows } := { h with rows_wf := wf, restored := image }
    have rowsLeft : s.u.row + 1 + (n + 1) = s.u.height.toNat := by omega
    rw [afterSteps_succ e]
    exact ih goesOn rowsLeft

/-- Settles O40: at row 0 nothing is to be restored yet, and the run goes through all the rows. -/
theorem unfilterRestoresTheImage : Obligations.UnfilterRestoresTheImage := by
  intro s o ha hs hb hr hw legal stride nonempty room filtered
  have first : s.Restoring o := ⟨ha.1, hs, hb, hw, legal, room, filtered, fun a below => by simp [hr] at below⟩
  obtain ⟨n, rows⟩ : ∃ n, s.u.height.toNat = n + 1 := ⟨s.u.height.toNat - 1, by omega⟩
  obtain ⟨t, ends, done, len, image⟩ := first.ends (n := n) (by omega)
  exact ⟨t, rows ▸ ends, done, by rw [len, stride, Nat.mul_assoc], image⟩

end Sys2Proof.Machine
end

/-! # The two units and the host

O44, O46 and O54: outside a chained run a step of either unit is an operation of that unit alone; what the host reads of
an outcome; which writes have no step. -/

section
namespace Sys2Proof.Machine

/-! ## O54: the units share nothing outside a chained run -/

/-- What the selector `ft` does to the U-unit over the scanlines in `raw` (R303, R311). -/
def scanlineElement (ft : Nat) (raw : Memory) (u : UUnit) : Res UUnit Unit :=
  if ft ≤ 4 then rowElement ft raw u else .raised ({ u with ft := ft }.raise .format)

theorem decodeFS_scanline (b : Byte) :
    ∃ e, decode .fs b.toNat = .ok e ∧ ∀ s, exec e s = onU s (scanlineElement b.toNat s.rawSpace s.u) := by
  by_cases legal : b.toNat ≤ 4
  · simpa only [scanlineElement, if_pos legal] using decodeFS_filter legal
  · obtain ⟨n, hn⟩ : ∃ n, b.toNat = n + 5 := ⟨b.toNat - 5, by omega⟩
    have byte : n + 5 ≤ 255 := hn ▸ Nat.le_of_lt_succ b.isLt
    simp only [scanlineElement, if_neg legal]
    rw [hn]
    exact ⟨.rsvf (n + 5), if_pos byte, fun _ => rfl⟩

/-- The step of the I-unit where no chained run reads its `OUT` (R28, R38). -/
def IUnit.ownStep (u : IUnit) : Res IUnit Unit :=
  if u.start then if u.busy then .refused .hostWhileBusy else .ok () u.begin
  else u.element

/-- The step of the U-unit outside a chained run, where the scanlines are those of its own `RAW` (R300, R303). -/
def UUnit.ownStep (u : UUnit) : Res UUnit Unit :=
  if u.start then if u.busy then .refused .hostWhileBusy else u.begin
  else if u.busy then
    if u.row < u.height.toNat then (fetchRow u.raw u.rawLen u).bind fun w v => scanlineElement w.2 u.raw v
    else .ok () u.nextRow
  else .ok () u

theorem stepI_eq_ownStep {s : State} (h : s.u.usesOut = false) : stepI s = onI s s.i.ownStep := by
  unfold IUnit.ownStep
  cases started : s.i.start with
  | true =>
    rw [stepI_of_start started, startI, h]
    cases s.i.busy <;> rfl
  | false => rw [stepI_eq_onI started]; rfl

theorem UUnit.usesOut_eq_false {u : UUnit} :
    u.usesOut = false ↔ (u.busy = true → u.chained = false) ∧ (u.start = true → u.chainCmd = false) := by
  cases hs : u.start <;> cases hb : u.busy <;> simp [UUnit.usesOut, hs, hb]

/-- Fetching and running a scanline that lies in the U-unit's own `RAW` (R302, R303). -/
theorem runU_ownRow {s : State} (h : s.u.chained = false) :
    runU s (fetchRow s.rawSpace s.rawLen s.u) =
      onU s ((fetchRow s.u.raw s.u.rawLen s.u).bind fun w v => scanlineElement w.2 s.u.raw v) := by
  have space : s.rawSpace = s.u.raw := by simp [State.rawSpace, h]
  have len : s.rawLen = s.u.rawLen := by simp [State.rawLen, h]
  rw [len, space]
  rcases fetchRow_cases s.u.raw s.u.rawLen s.u with ⟨_, fetched⟩ | ⟨_, short⟩
  · obtain ⟨e, decoded, runs⟩ := decodeFS_scanline (s.u.raw.read s.u.rowBase)
    rw [fetched, runU_of_decode decoded, Res.bind_ok, runs, ← space]
  · rw [short]; rfl

theorem stepU_eq_ownStep {s : State} (h : s.u.usesOut = false) : stepU s = onU s s.u.ownStep := by
  obtain ⟨unchained, command⟩ := UUnit.usesOut_eq_false.1 h
  unfold UUnit.ownStep
  rcases stepU_cases s with ⟨hs, e⟩ | ⟨hs, hb, hr, e⟩ | ⟨hs, hb, hr, e⟩ | ⟨hs, hb, e⟩ <;> rw [e]
  · rw [startU, hs, command hs]
    cases s.u.busy <;> rfl
  · simp only [hs, hb, hr, if_true]
    exact runU_ownRow (unchained hb)
  · simp [hs, hb, Nat.not_lt.2 hr]
  · simp [hs, hb]

/-- A run on the U-unit's own `RAW` goes on, and ends, without the use of `OUT` (R77). -/
theorem UUnit.Extends.usesOut {u w : UUnit} (h : u.Extends w) (hs : u.start = false) (hc : u.chained = false) :
    w.usesOut = false :=
  UUnit.usesOut_eq_false.2 ⟨fun _ => h.chained.trans hc, fun started => absurd (h.start.symm.trans started) (by simp [hs])⟩

/-- A unit that raised has no run (R350). -/
theorem UUnit.raise_usesOut {u : UUnit} (hs : u.start = false) (k : ErrKind) : (u.raise k).usesOut = false :=
  UUnit.usesOut_eq_false.2 ⟨nofun, fun started => absurd (hs.symm.trans started) nofun⟩

theorem scanlineElement_usesOut {ft : Nat} {raw : Memory} {u w : UUnit} (hs : u.start = false) (hc : u.chained = false)
    (h : scanlineElement ft raw u = .ok () w ∨ scanlineElement ft raw u = .raised w) : w.usesOut = false := by
  unfold scanlineElement at h
  split at h
  · rcases h with h | h
    · exact (rowElement_extends h).usesOut hs hc
    · cases h
  · rcases h with h | h <;> cases h
    exact UUnit.raise_usesOut (u := { u with ft := ft }) hs .format

theorem UUnit.begin_usesOut {u w : UUnit} (hc : u.chainCmd = false) (h : u.begin = .ok () w ∨ u.begin = .raised w) :
    w.usesOut = false := by
  rcases u.begin_cases with ⟨_, e⟩ | ⟨_, e⟩ <;> rw [e] at h <;> rcases h with h | h <;> cases h
  · exact (UUnit.nextRow_extends _).usesOut rfl hc
  · exact UUnit.raise_usesOut rfl _

/-- No step of the U-unit begins to use `OUT`: only the host gives a chained command (R77). -/
theorem UUnit.ownStep_usesOut {u w : UUnit} (h : u.usesOut = false)
    (hw : u.ownStep = .ok () w ∨ u.ownStep = .raised w) : w.usesOut = false := by
  obtain ⟨unchained, command⟩ := UUnit.usesOut_eq_false.1 h
  unfold UUnit.ownStep at hw
  cases hs : u.start with
  | true =>
    cases hb : u.busy with
    | true => simp [hs, hb] at hw
    | false =>
      simp only [hs, hb, if_true, Bool.false_eq_true, if_false] at hw
      exact UUnit.begin_usesOut (command hs) hw
  | false =>
    cases hb : u.busy with
    | true =>
      have hc := unchained hb
      simp only [hs, hb, if_true, Bool.false_eq_true, if_false] at hw
      split at hw
      · rcases fetchRow_cases u.raw u.rawLen u with ⟨_, e⟩ | ⟨_, e⟩ <;> rw [e] at hw
        · exact scanlineElement_usesOut hs hc hw
        · rcases hw with hw | hw <;> cases hw
          exact UUnit.raise_usesOut hs _
      · rcases hw with hw | hw <;> cases hw
        exact (UUnit.nextRow_extends _).usesOut hs hc
    | false =>
      simp only [hs, hb, Bool.false_eq_true, if_false] at hw
      rcases hw with hw | hw <;> cases hw
      exact h

/-- Settles O54: each unit's step is an operation of that unit alone, and after the U-unit's step it still is. -/
theorem unitsDoNotInterfere : Obligations.UnitsDoNotInterfere := by
  intro s a b unchained hI hU
  rw [stepI_eq_ownStep unchained, onI_eq_next] at hI
  rw [stepU_eq_ownStep unchained, onU_eq_next] at hU
  obtain ⟨i, hi, rfl⟩ := hI
  obtain ⟨u, hu, rfl⟩ := hU
  have still : u.usesOut = false := UUnit.ownStep_usesOut unchained hu
  refine ⟨{ s with i := i, u := u }, ?_, ?_⟩
  · rw [stepU_eq_ownStep (s := { s with i := i }) unchained]
    exact onU_eq_next.2 ⟨u, hu, rfl⟩
  · rw [stepI_eq_ownStep (s := { s with u := u }) still]
    exact onI_eq_next.2 ⟨i, hi, rfl⟩

/-! ## O46: writes that have no step -/

theorem hostToI_locked {s : State} (h : s.iLocked = true) (i : IUnit) : hostToI s i = .refused .hostWhileBusy := if_pos h

theorem hostToU_locked {s : State} (h : s.uLocked = true) (u : UUnit) : hostToU s u = .refused .hostWhileBusy := if_pos h

/-- Settles O46: every write to a unit's side goes through the lock of that side, but a chained command without a result
is refused before it. -/
theorem noHostWriteWhileBusy : Obligations.NoHostWriteWhileBusy := by
  intro s
  constructor
  · intro cause a b n nlen strict st
    have locked : s.iLocked = true := by simpa [State.iLocked, UUnit.usesOut, or_assoc] using cause
    have refused : ∀ {act i}, hostActUnits act s = hostToI s i → hostAct act s = .refused .hostWhileBusy := fun e =>
      (hostAct_eq _ s).trans (e.trans (hostToI_locked locked _))
    exact ⟨refused rfl, refused rfl, refused rfl, refused rfl⟩
  · intro cause a b n w h c st
    have locked : s.uLocked = true := by simpa [State.uLocked] using cause
    have refused : ∀ {act u}, hostActUnits act s = hostToU s u → hostAct act s = .refused .hostWhileBusy := fun e =>
      (hostAct_eq _ s).trans (e.trans (hostToU_locked locked _))
    have unchained : hostAct (.writeUCmd st false) s = .refused .hostWhileBusy := by
      cases st <;> exact refused rfl
    refine ⟨refused rfl, refused rfl, refused rfl, refused rfl, refused rfl, unchained, refused rfl, ?_⟩
    by_cases result : s.i.phase = .done ∧ s.i.start = false
    · exact ⟨_, refused (if_neg (by simp [result]))⟩
    · exact ⟨_, hostAct_chainedStart_refused (by simpa [Classical.or_iff_not_imp_left] using result)⟩

/-! ## O44: what the host reads -/

theorem IUnit.reads_of_started {u : IUnit} (h : u.start = true) : u.status = 1 ∧ u.errRead = 0 ∧ u.lenRead = 0 :=
  ⟨if_pos h, if_pos h, if_pos h⟩

theorem UUnit.reads_of_started {u : UUnit} (h : u.start = true) : u.status = 1 ∧ u.errRead = 0 ∧ u.lenRead = 0 :=
  ⟨if_pos h, if_pos h, if_pos h⟩

theorem IUnit.reads_of_not_started {u : IUnit} (h : u.start = false) :
    u.errRead = errCode u.errKind ∧ u.lenRead = u.outLen := by
  simp [IUnit.errRead, IUnit.lenRead, h]

theorem UUnit.reads_of_not_started {u : UUnit} (h : u.start = false) :
    u.errRead = errCode u.errKind ∧ u.lenRead = u.rowsLen := by
  simp [UUnit.errRead, UUnit.lenRead, h]

/-- Settles O44: the views of a unit by whether a command is pending on it, then by its phase and error kind. -/
theorem hostReadsStatusAndErrorKind : Obligations.HostReadsStatusAndErrorKind := by
  unfold Obligations.HostReadsStatusAndErrorKind
  intro code s
  have number : ∀ k, (errCode k).toNat = code k
    | none | some .format | some .unsupported | some .truncated | some .huffman => rfl
  refine ⟨fun hs => ?_, fun hs => ?_, fun hs => ?_, fun hs => ?_⟩
  · obtain ⟨kind, len⟩ := IUnit.reads_of_not_started hs
    refine ⟨?_, (congrArg BitVec.toNat kind).trans (number _), len, fun done a inside => if_pos ⟨done, len ▸ inside⟩⟩
    simp only [hostRead, IUnit.status, hs]
    cases s.i.phase <;> rfl
  · obtain ⟨kind, len⟩ := UUnit.reads_of_not_started hs
    refine ⟨?_, (congrArg BitVec.toNat kind).trans (number _), len, fun done a inside => if_pos ⟨done, len ▸ inside⟩⟩
    simp only [hostRead, UUnit.status, hs]
    cases s.u.phase <;> rfl
  · obtain ⟨status, kind, len⟩ := IUnit.reads_of_started hs
    exact ⟨congrArg BitVec.toNat status, congrArg BitVec.toNat kind, len⟩
  · obtain ⟨status, kind, len⟩ := UUnit.reads_of_started hs
    exact ⟨congrArg BitVec.toNat status, congrArg BitVec.toNat kind, len⟩

end Sys2Proof.Machine
end

/-! # Hardware reset

O43: reset is the one host action that no lock guards (R380), so it gives the values of R38 from every state. -/

section
namespace Sys2Proof.Machine

/-- The lock of neither side is asked, and nothing but the model's draw counter is kept (R380, assumption 8). -/
theorem hostAct_hardReset (s : State) : hostAct .hardReset s = .next { State.reset with tick := s.tick } :=
  hostAct_eq .hardReset s

/-- No run and no pending command is left to step after reset (R38). -/
theorem State.reset_notReady (n : Nat) :
    State.iReady { State.reset with tick := n } = false ∧ State.uReady { State.reset with tick := n } = false :=
  ⟨rfl, rfl⟩

/-- Settles O43: reset does not depend on the state it is applied in, and its values are those of O42. -/
theorem hardwareResetInAnyState : Obligations.HardwareResetInAnyState := by
  intro s
  obtain ⟨⟨iIdle, uIdle, _, iNoError, outLen, strictPeek, _, uNoError, rowsLen⟩, _⟩ := resetValuesAndStart
  exact ⟨_, hostAct_hardReset s, iIdle, uIdle, iNoError, uNoError, outLen, rowsLen, strictPeek,
    State.reset_notReady s.tick⟩

end Sys2Proof.Machine
end
